-- ==== Sys2Proof/Word.lean ====
section
/-! DEFINITION. The words of the block: bytes, frames, the 24-bit code, the 32-bit stored sample and
the 64-bit encoding of a binary64 value (spec/00_scope R19, R20; spec/10_state R31 to R33). -/

namespace Sys2Proof

/-- An unsigned 8-bit value (00_scope R20). -/
abbrev Byte := BitVec 8

/-- A finite byte list; index 0 goes first on the bus (00_scope R20, 20_memory R54). -/
abbrev Frame := List Byte

/-- The 24-bit conversion code, the width of the latch U24 (10_state R31). -/
abbrev Code24 := BitVec 24

/-- The stored form of a RawSample: 32-bit two's complement (10_state R32, 41_sample_decode R144). -/
abbrev Raw32 := BitVec 32

/-- The 64-bit encoding of an IEEE 754 binary64 value (10_state R33, 00_scope R20). -/
abbrev F64 := BitVec 64

end Sys2Proof
end

