-- ==== Sys2Proof/Syntax.lean ====
section
/-! DEFINITION. The block's instruction set: the six commands of the register protocol, one constructor
per row of spec/opcode_table.json (spec/00_scope R1, spec/30_encoding R80). -/

namespace Sys2Proof

/-- A command with its operands as the untyped caller of an encoder gives them (spec/40_commands R104):
a register index or a value outside its range is an ill-formed command, which the encoder's checks refuse. -/
inductive Instr
  /-- POWERDOWN (40_commands R102). -/
  | powerdown
  /-- RESET (40_commands R100). -/
  | reset
  /-- START (40_commands R101). -/
  | start
  /-- RDATA (40_commands R110). -/
  | rdata
  /-- RREG r (40_commands R115). -/
  | rreg (r : Int)
  /-- WREG r, v (40_commands R120). -/
  | wreg (r v : Int)
  deriving DecidableEq, Repr

end Sys2Proof
end

