-- ==== Sys2Proof/WellFormed.lean ====
section
/-! DEFINITION. Well-formed commands: the operand ranges of spec/40_commands R104. -/

namespace Sys2Proof

/-- A register index of the ADC register space: 0..3 (spec/20_memory R50). -/
def isRegister (r : Int) : Bool := decide (0 ≤ r) && decide (r ≤ 3)

/-- A register value: 0..255 (spec/30_encoding R77). -/
def isByteValue (v : Int) : Bool := decide (0 ≤ v) && decide (v ≤ 255)

/-- Every operand lies in its range, so that an encoder accepts the command (spec/40_commands R104). -/
def Instr.wellFormed : Instr → Bool
  | .powerdown => true
  | .reset => true
  | .start => true
  | .rdata => true
  | .rreg r => isRegister r
  | .wreg r v => isRegister r && isByteValue v

end Sys2Proof
end

