-- ==== Sys2Proof/Decode.lean ====
section
/-! DEFINITION. The command encoding of spec/30_encoding: the classifier of command bytes (R81), frame
lengths (R86), the decoder of frames, the encoder of well-formed commands (R72 to R77, R121), and the
reading of the words of spec/opcode_table.json. -/

namespace Sys2Proof

/-- The class of a command byte (spec/30_encoding R81). -/
inductive CommandClass
  | powerdown
  | reset
  | start
  | rdata
  | rreg (r : BitVec 2)
  | wreg (r : BitVec 2)
  | notACommand
  deriving DecidableEq, Repr

/-- The register field `rr`: bits 3:2 of the command byte (spec/30_encoding R71). -/
def registerField (b : Byte) : BitVec 2 := b.extractLsb' 2 2

/-- `classify`, total on every byte, its cases in the order of spec/30_encoding R81. -/
def classify (b : Byte) : CommandClass :=
  if b = 0x02 then .powerdown
  else if b = 0x06 then .reset
  else if b = 0x08 then .start
  else if b = 0x10 then .rdata
  else if b &&& 0xF3 = 0x20 then .rreg (registerField b)
  else if b &&& 0xF3 = 0x40 then .wreg (registerField b)
  else .notACommand

/-- `frame_len`: the command byte alone sets the frame's length; `none` is "refused" (spec/30_encoding R86). -/
def frameLength (b : Byte) : Option Nat :=
  match classify b with
  | .reset => some 1
  | .start => some 1
  | .powerdown => some 1
  | .rreg _ => some 2
  | .wreg _ => some 2
  | .rdata => some 4
  | .notACommand => none

/-- The command a whole frame stands for, total on every byte list: the class of byte 0, the frame's
length (R86), and the dummy bytes, which are always 0x00 (R83). Every other byte list is refused (R82). -/
def decodeFrame : Frame → Option Instr
  | [] => none
  | b :: rest =>
    match classify b, rest with
    | .powerdown, [] => some .powerdown
    | .reset, [] => some .reset
    | .start, [] => some .start
    | .rdata, [d1, d2, d3] => if d1 = 0 ∧ d2 = 0 ∧ d3 = 0 then some .rdata else none
    | .rreg r, [d] => if d = 0 then some (.rreg (r.toNat : Int)) else none
    | .wreg r, [v] => some (.wreg (r.toNat : Int) (v.toNat : Int))
    | _, _ => none

/-- The command at the front of a byte sequence, with the bytes after its frame. -/
def decodeStream (bytes : List Byte) : Option (Instr × List Byte) :=
  match bytes with
  | [] => none
  | b :: _ =>
    match frameLength b with
    | none => none
    | some n =>
      match decodeFrame (bytes.take n) with
      | none => none
      | some i => some (i, bytes.drop n)

/-- The command byte `base | (r << 2)` of format CB-REG (spec/30_encoding R76). -/
def commandByte (base : Byte) (r : Int) : Byte := base ||| (BitVec.ofInt 8 r <<< 2)

/-- The frame of a well-formed command (spec/40_commands R100 to R121). An ill-formed command has no
frame: the operand checks (Machine/Operands.lean) refuse it first. -/
def encode : Instr → Frame
  | .powerdown => [0x02]
  | .reset => [0x06]
  | .start => [0x08]
  | .rdata => [0x10, 0x00, 0x00, 0x00]
  | .rreg r => [commandByte 0x20 r, 0x00]
  | .wreg r v => [commandByte 0x40 r, BitVec.ofInt 8 v]

/-- The bytes of a table word, the first at the lowest bits: every bit above `nbits` is 0, and the frame
is as long as its command byte says (one byte where the byte is no command). -/
def tableFrame (nbits w : Nat) : Frame :=
  let low := w % 2 ^ nbits
  let bytes : Frame :=
    [BitVec.ofNat 8 low, BitVec.ofNat 8 (low / 2 ^ 8), BitVec.ofNat 8 (low / 2 ^ 16), BitVec.ofNat 8 (low / 2 ^ 24)]
  match frameLength (BitVec.ofNat 8 low) with
  | some n => bytes.take n
  | none => bytes.take 1

/-- The instruction this decoder reads from a word of spec/opcode_table.json. -/
def decodeTableWord (nbits w : Nat) : Option Instr := decodeFrame (tableFrame nbits w)

end Sys2Proof
end

