-- ==== Sys2Proof/Config.lean ====
section
/-! DEFINITION. What the block's implementation fixes (spec/00_scope R8, R12, R19), the reference values
of its parameters (R7 to R14), and the free values: opaque constants without a body, of which nothing
can be proved (open parameters, and the environment's answers when its lists are used up). -/

namespace Sys2Proof

/-- The level of the data-ready line. It is active-low: `low` means data ready (00_scope R19, R21). -/
inductive Level
  | low
  | high
  deriving DecidableEq, Repr, Inhabited

/-- What the bus answers to one `Transfer`: a response, or failure (00_scope R21, 60_exceptions R251). -/
inductive BusAnswer
  | failure
  | response (bytes : Frame)
  deriving DecidableEq, Repr, Inhabited

namespace Config

/-- FSR = 2^23, fixed by the code width and not a parameter (00_scope R8). -/
def fsr : Nat := 8388608

/-- Reference value of PROGRESS_PERIOD: 1000 polls (00_scope R12). Log 20 (DEDUCED). -/
def progressPeriodReference : Nat := 1000

/-- The sentinel "all bits set" of the pre-configuration probe (43_sequencer R183). -/
def unresponsiveSentinel : Byte := 0xFF

/-- Reference value of VREF: 2.048 V (00_scope R7). -/
def vrefReference : ℚ := 2048 / 1000

/-- Reference value of OFFSET: +0.00224 V (00_scope R9). -/
def offsetReference : ℚ := 224 / 100000

/-- Reference value of POLL_INTERVAL: 1 ms (00_scope R10). -/
def pollIntervalReference : ℚ := 1

/-- RESET_SETTLE: a lower bound of 100 ms (00_scope R13). -/
def resetSettleMinimum : ℚ := 100

/-- WRITE_SETTLE: a lower bound of 1 ms (00_scope R14). -/
def writeSettleMinimum : ℚ := 1

/-- Free value: numerator of the open parameter DRDY_TIMEOUT (00_scope R11, D13). Log 8 (DESIGN CHOICE). -/
opaque drdyTimeoutNumerator : Nat

/-- Free value: denominator of the open parameter DRDY_TIMEOUT. Log 8 (DESIGN CHOICE). -/
opaque drdyTimeoutDenominator : ℕ+

/-- DRDY_TIMEOUT at reset: a duration in ms, not negative, of which nothing else is known (00_scope R11, D13).
Log 8 (DESIGN CHOICE), log 32 (DEDUCED). -/
def drdyTimeout : ℚ := drdyTimeoutNumerator / (drdyTimeoutDenominator : ℕ)

/-- Free value: the open parameter GAIN_SETTING (00_scope R16, D15). Log 8 (DESIGN CHOICE). -/
opaque gainToken : Nat

/-- Free value: where the host clock's readings start, in ms (91_not_in_source N13). Log 4 (DEDUCED). -/
opaque clockOrigin : ℚ

/-- Free value: the bus's answer to the `n`-th draw (10_state R40, 60_exceptions R251). Log 3 (DESIGN CHOICE). -/
opaque freeAnswer (n : Nat) : BusAnswer

/-- Free value: byte `k` of the response to the `n`-th draw, where the transport cannot fail. Log 15 (DEDUCED). -/
opaque freeByte (n k : Nat) : Byte

/-- Free value: the line's level at the `n`-th draw (60_exceptions R251). Log 3 (DESIGN CHOICE). -/
opaque freeLevel (n : Nat) : Level

/-- Free value: the clock's reading at the `n`-th draw, before the clock's floor applies.
Log 3 (DESIGN CHOICE), log 4 (DEDUCED). -/
opaque freeClock (n : Nat) : ℚ

/-- Free value: the number of a non-finite VREF or OFFSET, which no operation runs with. Log 12 (DEDUCED). -/
opaque freeConstant : ℚ

/-- Free value: sign and payload bits of a NaN result, a function of the operands. Log 13 (DESIGN CHOICE). -/
opaque freeNaN (a b : F64) : BitVec 52

end Config

end Sys2Proof
end

