-- ==== Sys2Proof/Machine/State.lean ====
section
/-! DEFINITION. The state of the block as plain data (spec/10_state, spec/70_reset_and_hazards R270), the
errors of spec/60_exceptions R231, the event trace of spec/20_memory R66, the host's operations of
spec/10_state R44, and the reasons a step can stop. -/

namespace Sys2Proof.Machine

/-- The control register DeviceState (10_state R36). -/
inductive DeviceState
  | uninitialized
  | configured
  | conversionPending
  | sampleReady
  | faulted
  deriving DecidableEq, Repr

/-- The sequencer phase, which plays the role of a program counter (10_state R34). -/
inductive Phase
  | idle
  | initReset
  | initSettle
  | initProbe
  | initWrite (i : Fin 4)
  | initVerify (i : Fin 4)
  | initCheck
  | waitPoll
  | waitSleep
  | acqTrigger
  | acqSync
  | acqRead
  | acqConvert
  | acqEmit
  deriving DecidableEq, Repr

/-- Four bytes, one for each index 0..3: PROFILE (10_state R38) and the readback buffer `rb` (R45). -/
structure Quad where
  b0 : Byte
  b1 : Byte
  b2 : Byte
  b3 : Byte
  deriving DecidableEq, Repr

/-- A value of the voltage datapath: a binary64 by its encoding (VOLT_ARITH = binary64), or an exact
rational (VOLT_ARITH = exact); 42_voltage_scaling R170. Log 21 (PRESUMED), log 22 (DEDUCED). -/
inductive Volt
  | binary64 (bits : F64)
  | exact (x : ℚ)
  deriving DecidableEq, Repr

/-- The parameter VOLT_ARITH (00_scope R17, 42_voltage_scaling R170). -/
inductive VoltArith
  | binary64
  | exact
  deriving DecidableEq, Repr

/-- A configured voltage constant: a finite number, or a non-finite value, which no operation runs with
(42_voltage_scaling R168). Log 7 (DESIGN CHOICE). -/
inductive ConfiguredValue
  | finite (x : ℚ)
  | nonFinite
  deriving DecidableEq, Repr

/-- The parameters of 00_scope R7 to R18: fixed for the block's lifetime, written by no operation (10_state R39).
Log 7, 8, 20. -/
structure Params where
  /-- VREF (R7). -/
  vref : ConfiguredValue
  /-- OFFSET (R9). -/
  offset : ConfiguredValue
  /-- POLL_INTERVAL in ms (R10). -/
  pollInterval : ℚ
  /-- DRDY_TIMEOUT in ms (R11). -/
  drdyTimeout : ℚ
  /-- PROGRESS_PERIOD in polls (R12). Log 20 (DEDUCED). -/
  progressPeriod : Nat
  /-- RESET_SETTLE in ms, at least 100 (R13). -/
  resetSettle : ℚ
  /-- WRITE_SETTLE in ms, at least 1 (R14). -/
  writeSettle : ℚ
  /-- GAIN_SETTING, an opaque token (R16). -/
  gainSetting : Nat
  /-- VOLT_ARITH (R17). -/
  voltArith : VoltArith
  /-- TRANSPORT_CAN_FAIL (R18). -/
  transportCanFail : Bool
  deriving DecidableEq, Repr

/-- A parameter or operand that BadParameter names (60_exceptions R231). -/
inductive ParamName
  | vref
  | offset
  | pollInterval
  deriving DecidableEq, Repr

/-- The nine errors with their info (60_exceptions R230, R231). -/
inductive Err
  /-- Code 1: the probe read 0xFF (43_sequencer R183). -/
  | deviceUnresponsive (step : Phase) (register : Fin 4) (value : Byte)
  /-- Code 2: every mismatch as (register, written, read), ascending (R186). -/
  | configurationMismatch (step : Phase) (mismatches : List (Fin 4 × Byte × Byte))
  /-- Code 3: data-ready not low within the budget (R194, R211). -/
  | drdyTimeout (step : Phase) (polls : Nat) (elapsed : ℚ)
  /-- Code 4: a cycle attempted while DeviceState is not Configured (R210). -/
  | notConfigured (step : Phase) (state : DeviceState)
  /-- Code 5: transport failure or a response of another length (40_commands R105). -/
  | busError (step : Phase) (register : Option (Fin 4)) (frame : Frame)
  /-- Code 6: a register index outside 0..3 (40_commands R104). -/
  | badRegister (index : Int)
  /-- Code 7: a byte value outside 0..255 (40_commands R104, 43_sequencer R180). -/
  | badValue (value : Int)
  /-- Code 8: decode_sample not given three bytes (41_sample_decode R145). -/
  | badLength (length : Nat)
  /-- Code 9: a non-positive poll interval, a non-finite VREF or OFFSET (43_sequencer R190, 42_voltage_scaling R168). -/
  | badParameter (name : ParamName)
  deriving DecidableEq, Repr

/-- The record of a cycle: timestamp, RawSample, voltage and gain setting, in that order (43_sequencer R214). -/
structure SampleRecord where
  timestamp : ℚ
  rawSample : Int
  voltage : Volt
  gainSetting : Nat
  deriving DecidableEq, Repr

/-- What a successful operation returns. -/
inductive OkValue
  /-- construct, initialize. -/
  | done
  /-- wait_ready: `Ready(polls)` (43_sequencer R192). -/
  | ready (polls : Nat)
  /-- acquire (43_sequencer R214). -/
  | sampled (record : SampleRecord)
  /-- get_state (10_state R36). -/
  | deviceState (d : DeviceState)
  /-- An encoder's frame (40_commands R121). -/
  | frame (bytes : Frame)
  /-- decode_register_response (40_commands R116). -/
  | registerValue (b : Byte)
  /-- decode_sample, decode_data_response (40_commands R111, 41_sample_decode R143). -/
  | rawSample (raw : Int)
  /-- raw_to_voltage (42_voltage_scaling R163). -/
  | voltage (v : Volt)
  deriving DecidableEq, Repr

/-- The outcome of a host operation: exactly one of `Ok(result)` and `Err(E, info)` (60_exceptions R230). -/
inductive OpResult
  | ok (value : OkValue)
  | err (e : Err)
  deriving DecidableEq, Repr

/-- The events of 20_memory R66, and the results of operations, in one order. Log 18 (DESIGN CHOICE). -/
inductive Event
  | xfer (out response : Frame)
  | xferFail (out : Frame)
  | level (l : Level)
  | clock (t : ℚ)
  | sleep (d : ℚ)
  | progress (n : Nat)
  | emit (record : SampleRecord)
  | result (r : OpResult)
  deriving DecidableEq, Repr

/-- The host's operations (10_state R44). -/
inductive HostOp
  /-- `construct()` (70_reset_and_hazards R270). -/
  | construct
  /-- `initialize(profile)` with the untyped bytes of its argument (43_sequencer R180). -/
  | initialise (p0 p1 p2 p3 : Int)
  /-- `wait_ready(poll_interval, timeout)` called by the host (43_sequencer R190). -/
  | waitReady (pollInterval timeout : ℚ)
  /-- `acquire()` (43_sequencer R210). -/
  | acquire
  /-- `get_state()` (10_state R36). -/
  | getState
  /-- A call of the command's encoder with untyped operands (40_commands R100 to R120). -/
  | encodeCommand (i : Instr)
  /-- A command line of a program (30_encoding R87) in machine form: the bytes of the command's frame.
  Log 1 (DESIGN CHOICE), log 2 (DEDUCED). -/
  | command (frame : Frame)
  /-- `decode_register_response([in0, in1])` (40_commands R116). -/
  | decodeRegisterResponse (in0 in1 : Byte)
  /-- `decode_data_response([in0, in1, in2, in3])` (40_commands R111). -/
  | decodeDataResponse (in0 in1 in2 in3 : Byte)
  /-- `decode_sample(bytes)` (41_sample_decode R140, R141, R145). -/
  | decodeSample (bytes : List Byte)
  /-- `raw_to_voltage(raw)` (42_voltage_scaling R163). -/
  | rawToVoltage (raw : Int)
  deriving DecidableEq, Repr

/-- Who called the running `wait_ready`: the host, or `acquire` (60_exceptions R239). Log 16 (DEDUCED). -/
inductive WaitCaller
  | host
  | acquire
  deriving DecidableEq, Repr

/-- The wait loop's bookkeeping (10_state R42), with the operands of the running call (43_sequencer R190).
Log 30 (DEDUCED). -/
structure WaitRegs where
  pollInterval : ℚ
  timeout : ℚ
  t0 : ℚ
  polls : Nat
  caller : WaitCaller
  deriving DecidableEq, Repr

/-- The environment's next answers, oldest first. Where a list is empty the answer is a free value of
Config. `clockFloor` is the least value the host clock can read next (60_exceptions R251).
Log 3 (DESIGN CHOICE), log 4 (DEDUCED). -/
structure Env where
  bus : List BusAnswer
  line : List Level
  clock : List ℚ
  clockFloor : ℚ
  draws : Nat
  deriving DecidableEq, Repr

/-- The state of the block, with the trace, the host's program and the environment's answers. -/
structure State where
  /-- DeviceState (10_state R36). -/
  devState : DeviceState
  /-- PROFILE (10_state R38). -/
  profile : Quad
  /-- PROFILE holds a value: false after construction (70_reset_and_hazards R270). Log 5 (DESIGN CHOICE). -/
  profileWritten : Bool
  /-- The sequencer phase (10_state R34). -/
  phase : Phase
  /-- The wait loop's bookkeeping (10_state R42). -/
  wait : WaitRegs
  /-- The readback buffer of `initialize` (10_state R45). -/
  rb : Quad
  /-- Stage latch U24 (10_state R31). -/
  u24 : Code24
  /-- Stage latch RAW (10_state R32). -/
  raw : Raw32
  /-- Stage latch Q (10_state R33). -/
  q : Volt
  /-- Stage latch P (10_state R33). -/
  p : Volt
  /-- Stage latch V (10_state R33). -/
  v : Volt
  /-- The parameters (10_state R39). -/
  params : Params
  /-- The event trace, oldest first (20_memory R66). -/
  trace : List Event
  /-- The host operations still to run, the next first (20_memory R60). -/
  program : List HostOp
  /-- The environment (10_state R43). -/
  env : Env
  deriving DecidableEq, Repr

/-- Reasons for which the machine stops with a fault. There are none: every error of the block is the
result of an operation (60_exceptions R230), after which the block takes the next one (R239). -/
inductive Fault
  deriving DecidableEq, Repr

/-- Reasons for which a step is refused. -/
inductive Refusal
  /-- An instruction without a meaning; raised by no arm of exec. Safe. -/
  | notModelled (mnemonic : String)
  /-- `step` raises it for a host's command line whose bytes are no frame of the command set: "A trace
  holding one is not a trace of this block, and a model refuses it" (30_encoding R82). Safe. -/
  | notACommand (frame : Frame)
  deriving DecidableEq, Repr

/-- The four bytes of a Quad that holds no value (10_state R38, R45). Log 5 (DESIGN CHOICE), log 6 (DESIGN CHOICE). -/
def Quad.cleared : Quad := { b0 := 0, b1 := 0, b2 := 0, b3 := 0 }

/-- The wait bookkeeping while no `wait_ready` runs (10_state R42). Log 6 (DESIGN CHOICE). -/
def WaitRegs.cleared : WaitRegs := { pollInterval := 0, timeout := 0, t0 := 0, polls := 0, caller := .host }

/-- A voltage latch that holds no value: +0.0 (10_state R33). Log 6 (DESIGN CHOICE). -/
def Volt.cleared : Volt := .binary64 0

/-- The parameters at their reference values; the open ones are free values of Config (00_scope R7 to R18).
Log 29 (DESIGN CHOICE), log 8 (DESIGN CHOICE). -/
def Params.reference : Params :=
  { vref := .finite Config.vrefReference
    offset := .finite Config.offsetReference
    pollInterval := Config.pollIntervalReference
    drdyTimeout := Config.drdyTimeout
    progressPeriod := Config.progressPeriodReference
    resetSettle := Config.resetSettleMinimum
    writeSettle := Config.writeSettleMinimum
    gainSetting := Config.gainToken
    voltArith := .binary64
    transportCanFail := true }

/-- No answer is listed, so that every draw is a free value. Log 3 (DESIGN CHOICE), log 4 (DEDUCED). -/
def Env.reset : Env := { bus := [], line := [], clock := [], clockFloor := Config.clockOrigin, draws := 0 }

/-- The block as `construct()` leaves it (70_reset_and_hazards R270): Uninitialized, IDLE, PROFILE unwritten,
no transient bookkeeping, nothing performed. -/
def State.reset : State :=
  { devState := .uninitialized
    profile := .cleared
    profileWritten := false
    phase := .idle
    wait := .cleared
    rb := .cleared
    u24 := 0
    raw := 0
    q := .cleared
    p := .cleared
    v := .cleared
    params := .reference
    trace := []
    program := []
    env := .reset }

end Sys2Proof.Machine
end

