-- ==== Sys2Proof/Machine/Ops.lean ====
section
/-! DEFINITION. The shared operations of the block: the primitives of spec/00_scope R21 with their trace
events (spec/20_memory R66), the environment's draws (spec/60_exceptions R251), sending a frame
(spec/40_commands R105), and the end of an operation, with its error entry (spec/60_exceptions R238). -/

namespace Sys2Proof.Machine

/-- The byte of index `i` (10_state R38, R45). -/
def Quad.get (x : Quad) (i : Fin 4) : Byte :=
  match i with
  | 0 => x.b0
  | 1 => x.b1
  | 2 => x.b2
  | 3 => x.b3

/-- Write the byte of index `i` and no other. -/
def Quad.set (x : Quad) (i : Fin 4) (b : Byte) : Quad :=
  match i with
  | 0 => { x with b0 := b }
  | 1 => { x with b1 := b }
  | 2 => { x with b2 := b }
  | 3 => { x with b3 := b }

/-- The index after `i`, none after 3 (43_sequencer R184, R185). -/
def nextIndex (i : Fin 4) : Option (Fin 4) :=
  match i with
  | 0 => some 1
  | 1 => some 2
  | 2 => some 3
  | 3 => none

/-- The 3-bit code of a DeviceState (10_state R36). -/
def DeviceState.code : DeviceState → BitVec 3
  | .uninitialized => 0
  | .configured => 1
  | .conversionPending => 2
  | .sampleReady => 3
  | .faulted => 4

/-- The error's numeric code (60_exceptions R231). -/
def Err.code : Err → Nat
  | .deviceUnresponsive _ _ _ => 1
  | .configurationMismatch _ _ => 2
  | .drdyTimeout _ _ _ => 3
  | .notConfigured _ _ => 4
  | .busError _ _ _ => 5
  | .badRegister _ => 6
  | .badValue _ => 7
  | .badLength _ => 8
  | .badParameter _ => 9

/-- The ADC register a phase's frame names (40_commands R105: "For RREG and WREG it also names the register"). -/
def Phase.register : Phase → Option (Fin 4)
  | .initProbe => some 0
  | .initWrite i => some i
  | .initVerify i => some i
  | .idle => none
  | .initReset => none
  | .initSettle => none
  | .initCheck => none
  | .waitPoll => none
  | .waitSleep => none
  | .acqTrigger => none
  | .acqSync => none
  | .acqRead => none
  | .acqConvert => none
  | .acqEmit => none

/-- Record one event at the end of the trace (20_memory R66). -/
def State.log (s : State) (e : Event) : State := { s with trace := s.trace ++ [e] }

/-- The bus's next answer, and the environment after it. Log 3 (DESIGN CHOICE). -/
def Env.drawBus (v : Env) : BusAnswer × Env :=
  match v.bus with
  | a :: rest => (a, { v with bus := rest, draws := v.draws + 1 })
  | [] => (Config.freeAnswer v.draws, { v with draws := v.draws + 1 })

/-- The line's next level, and the environment after it. Log 3 (DESIGN CHOICE). -/
def Env.drawLevel (v : Env) : Level × Env :=
  match v.line with
  | l :: rest => (l, { v with line := rest, draws := v.draws + 1 })
  | [] => (Config.freeLevel v.draws, { v with draws := v.draws + 1 })

/-- The clock's next reading before its floor applies, and the lists after it. Log 3 (DESIGN CHOICE). -/
def Env.drawReading (v : Env) : ℚ × Env :=
  match v.clock with
  | t :: rest => (t, { v with clock := rest, draws := v.draws + 1 })
  | [] => (Config.freeClock v.draws, { v with draws := v.draws + 1 })

/-- The clock's next reading: a draw that is never below the floor, and the floor becomes the reading, so
that readings do not decrease (60_exceptions R251). Log 4 (DEDUCED). -/
def Env.drawClock (v : Env) : ℚ × Env :=
  let d := v.drawReading
  let t := max d.1 v.clockFloor
  (t, { d.2 with clockFloor := t })

/-- A response of the frame's length whose bytes are free values: what a transport that cannot fail gives
where the draw was a failure (00_scope R18, 60_exceptions R251). Log 15 (DEDUCED). -/
def freeResponse (draw length : Nat) : Frame := (List.range length).map (Config.freeByte draw)

/-- The answer to a transfer of `out` under TRANSPORT_CAN_FAIL (00_scope R18). -/
def admittedAnswer (canFail : Bool) (draw : Nat) (out : Frame) : BusAnswer → BusAnswer
  | .response bytes => .response bytes
  | .failure => if canFail then .failure else .response (freeResponse draw out.length)

/-- `Transfer(out)`: one full-duplex exchange, one event; `none` is failure (00_scope R21, 20_memory R55). Log 24 (DEDUCED). -/
def State.transfer (s : State) (out : Frame) : State × Option Frame :=
  let d := s.env.drawBus
  let t : State := { s with env := d.2 }
  match admittedAnswer s.params.transportCanFail s.env.draws out d.1 with
  | .response bytes => (t.log (.xfer out bytes), some bytes)
  | .failure => (t.log (.xferFail out), none)

/-- `send(out)`: one transfer; a failure, or a response of another length, is `none`, on which the caller
raises BusError (40_commands R105). Log 9 (DEDUCED). -/
def State.send (s : State) (out : Frame) : State × Option Frame :=
  match s.transfer out with
  | (t, none) => (t, none)
  | (t, some bytes) => if bytes.length = out.length then (t, some bytes) else (t, none)

/-- `ReadLevel()` (00_scope R21). -/
def State.readLevel (s : State) : State × Level :=
  let d := s.env.drawLevel
  (({ s with env := d.2 } : State).log (.level d.1), d.1)

/-- `Now()` (00_scope R21). -/
def State.now (s : State) : State × ℚ :=
  let d := s.env.drawClock
  (({ s with env := d.2 } : State).log (.clock d.1), d.1)

/-- `Sleep(d)`: wait at least `d` ms, so the clock's floor rises by `d` (00_scope R21, 60_exceptions R251). -/
def State.sleep (s : State) (d : ℚ) : State :=
  ({ s with env := { s.env with clockFloor := s.env.clockFloor + d } } : State).log (.sleep d)

/-- `Progress(n)` (00_scope R21, 43_sequencer R193). -/
def State.progress (s : State) (n : Nat) : State := s.log (.progress n)

/-- `Emit(rec)` (00_scope R21). -/
def State.emit (s : State) (r : SampleRecord) : State := s.log (.emit r)

/-- Discard all transient bookkeeping: `polls`, `t0`, `rb` and the stage latches (60_exceptions R238). -/
def State.discard (s : State) : State :=
  { s with wait := .cleared, rb := .cleared, u24 := 0, raw := 0, q := .cleared, p := .cleared, v := .cleared }

/-- Return the result of a pure call, or of an argument error: no state of the block is written
(40_commands R103, 60_exceptions R235). -/
def State.report (s : State) (r : OpResult) : State := s.log (.result r)

/-- End the running operation: transient bookkeeping discarded, `phase <- IDLE`, the result returned
(60_exceptions R230, R238). -/
def State.finish (s : State) (r : OpResult) : State := ({ s.discard with phase := .idle } : State).report r

/-- Error entry: the raising rule's write of DeviceState, then the operation ends with the error
(60_exceptions R238). -/
def State.raise (s : State) (d : DeviceState) (e : Err) : State := ({ s with devState := d } : State).finish (.err e)

/-- Return from an operation with `Ok` and the DeviceState its last rule writes. The block has no
return-from-error operation: after an error it is IDLE and takes the next operation (60_exceptions R239). -/
def State.complete (s : State) (d : DeviceState) (v : OkValue) : State := ({ s with devState := d } : State).finish (.ok v)

/-- Send a command's frame in a phase of `initialize` or `acquire`: on a response the phase goes on with
`andThen`; on BusError DeviceState becomes Faulted and the operation ends (40_commands R105, 60_exceptions R236). -/
def State.sendThen (s : State) (i : Instr) (andThen : State → Frame → State) : State :=
  match s.send (encode i) with
  | (t, some response) => andThen t response
  | (t, none) => t.raise .faulted (.busError s.phase s.phase.register (encode i))

end Sys2Proof.Machine
end

