-- ==== Sys2Proof/Machine/Flags.lean ====
section
/-! DEFINITION. The block has no status flags or condition codes (spec/10_state R35). The tests its rules
make are combinational: each is a function of its operands, persists nowhere and is read by no later rule. -/

namespace Sys2Proof.Machine

/-- The bit-23 test of stage S2 (41_sample_decode R141). -/
def codeIsNegative (u : Code24) : Bool := u.getLsbD 23

/-- The line is active-low: low means data ready (00_scope R19, 43_sequencer R190). -/
def dataReady (l : Level) : Bool := decide (l = .low)

/-- The probe's test: equality with the sentinel 0xFF (43_sequencer R183). -/
def deviceSilent (c : Byte) : Bool := decide (c = Config.unresponsiveSentinel)

/-- A progress event is due after this many high polls (43_sequencer R193). -/
def progressDue (period polls : Nat) : Bool := decide (polls % period = 0)

/-- The budget is exceeded, a strict comparison (43_sequencer R194). -/
def budgetExceeded (elapsed timeout : ℚ) : Bool := decide (timeout < elapsed)

/-- The readbacks that differ from PROFILE, as (register, written, read) in ascending order (43_sequencer R186). -/
def mismatches (profile rb : Quad) : List (Fin 4 × Byte × Byte) :=
  ([0, 1, 2, 3] : List (Fin 4)).filterMap fun i =>
    if rb.get i = profile.get i then none else some (i, profile.get i, rb.get i)

end Sys2Proof.Machine
end

