-- ==== Sys2Proof/Machine/Binary64.lean ====
section
/-! DEFINITION. IEEE 754 binary64 on its 64-bit encoding, round to nearest with ties to even: `fl64` and the
operations ⊘, ⊗ and ⊕ of spec/00_scope R20, each `fl64` of the real result. The encoding's layout (sign, 11 exponent
bits of bias 1023, 52 fraction bits), infinities, NaNs and the sign of a number that rounds to zero are IEEE 754's
(log 21, PRESUMED). -/

namespace Sys2Proof.Machine.Binary64

/-- The nearest integer to `a / b`, ties to even. -/
def roundHalfEven (a b : Nat) : Nat :=
  let q := a / b
  let r := a % b
  if b < 2 * r ∨ (2 * r = b ∧ q % 2 = 1) then q + 1 else q

/-- Whether `2 ^ k ≤ n / d`. -/
def powLe (k : Int) (n d : Nat) : Bool :=
  if 0 ≤ k then decide (d * 2 ^ k.toNat ≤ n) else decide (d ≤ n * 2 ^ (-k).toNat)

/-- The `k` with `2 ^ k ≤ n / d < 2 ^ (k + 1)`, for positive `n` and `d`. -/
def leadingExponent (n d : Nat) : Int :=
  let k : Int := (n.log2 : Int) - (d.log2 : Int)
  if powLe k n d then k else k - 1

/-- `n / d` in units of `2 ^ e`, rounded to an integer. -/
def roundToUnit (n d : Nat) (e : Int) : Nat :=
  if 0 ≤ e then roundHalfEven n (d * 2 ^ e.toNat) else roundHalfEven (n * 2 ^ (-e).toNat) d

/-- The exponent of the last place of the binary64 numbers near `n / d`; -1074 is the smallest. -/
def unitExponent (n d : Nat) : Int := max (leadingExponent n d - 52) (-1074)

/-- The magnitude bits of infinity. -/
def infinityBits : Nat := 0x7FF0000000000000

/-- The magnitude bits of the binary64 nearest to `n / d`; a rounding that reaches 2^1024 gives infinity. -/
def magnitudeBits (n d : Nat) : Nat :=
  if n = 0 then 0
  else
    let e := unitExponent n d
    min ((e + 1074).toNat * 2 ^ 52 + roundToUnit n d e) infinityBits

/-- Put a sign before 63 magnitude bits. -/
def withSign (negative : Bool) (bits : Nat) : F64 := BitVec.ofNat 64 ((if negative then 2 ^ 63 else 0) + bits)

/-- `fl64(x)`: the binary64 value nearest to the number `x`, ties to even; `fl64(0) = +0.0` (00_scope R20). -/
def fl64 (x : ℚ) : F64 := withSign (decide (x < 0)) (magnitudeBits x.num.natAbs x.den)

/-- The sign bit. -/
def sign (a : F64) : Bool := a.msb

/-- The 63 bits below the sign. -/
def magnitude (a : F64) : Nat := a.toNat % 2 ^ 63

/-- The exponent field. -/
def exponentField (a : F64) : Nat := magnitude a / 2 ^ 52

/-- The fraction field. -/
def fractionField (a : F64) : Nat := magnitude a % 2 ^ 52

/-- Neither infinite nor NaN. -/
def isFinite (a : F64) : Bool := decide (magnitude a < infinityBits)

/-- Infinite. -/
def isInfinite (a : F64) : Bool := decide (magnitude a = infinityBits)

/-- Not a number. -/
def isNaN (a : F64) : Bool := decide (infinityBits < magnitude a)

/-- A zero of either sign. -/
def isZero (a : F64) : Bool := decide (magnitude a = 0)

/-- The significand of a finite value, with its leading bit where it is normal. -/
def significand (a : F64) : Nat :=
  if exponentField a = 0 then fractionField a else 2 ^ 52 + fractionField a

/-- The exponent of a finite value's last place. -/
def lastPlace (a : F64) : Int := if exponentField a = 0 then -1074 else (exponentField a : Int) - 1075

/-- The real number a finite value denotes. -/
def value (a : F64) : ℚ :=
  let m : ℚ := significand a
  let x : ℚ := if 0 ≤ lastPlace a then m * (2 ^ (lastPlace a).toNat : ℕ) else m / (2 ^ (-lastPlace a).toNat : ℕ)
  if sign a then -x else x

/-- An infinity. -/
def infinity (negative : Bool) : F64 := withSign negative infinityBits

/-- A zero. -/
def zero (negative : Bool) : F64 := withSign negative 0

/-- A quiet NaN whose sign and payload are a free value (log 13, DESIGN CHOICE). -/
def nan (a b : F64) : F64 :=
  let free := Config.freeNaN a b
  withSign free.msb (0x7FF8000000000000 + free.toNat % 2 ^ 51)

/-- `a ⊘ b`, `fl64` of the real quotient (00_scope R20); a zero quotient is +0.0 (log 21, PRESUMED for the corners
without a real quotient). -/
def div (a b : F64) : F64 :=
  let negative := sign a != sign b
  if isNaN a || isNaN b then nan a b
  else if isInfinite a then (if isInfinite b then nan a b else infinity negative)
  else if isInfinite b then zero negative
  else if isZero b then (if isZero a then nan a b else infinity negative)
  else fl64 (value a / value b)

/-- `a ⊗ b`, `fl64` of the real product (00_scope R20); a zero product is +0.0 (42_voltage_scaling R161; log 21,
PRESUMED for the corners without a real product). -/
def mul (a b : F64) : F64 :=
  let negative := sign a != sign b
  if isNaN a || isNaN b then nan a b
  else if isInfinite a then (if isZero b then nan a b else infinity negative)
  else if isInfinite b then (if isZero a then nan a b else infinity negative)
  else fl64 (value a * value b)

/-- `a ⊕ b`, `fl64` of the real sum (00_scope R20); a zero sum is +0.0 (log 21, PRESUMED for the corners without a
real sum). -/
def add (a b : F64) : F64 :=
  if isNaN a || isNaN b then nan a b
  else if isInfinite a then (if isInfinite b && sign a != sign b then nan a b else a)
  else if isInfinite b then b
  else fl64 (value a + value b)

end Sys2Proof.Machine.Binary64
end

