-- ==== Sys2Proof/Machine/Operands.lean ====
section
/-! DEFINITION. Operands: the refusal boundary of untyped callers (spec/40_commands R104, spec/43_sequencer
R180, R190, spec/42_voltage_scaling R168) and the fields of responses (spec/30_encoding R78, R79). -/

namespace Sys2Proof.Machine

/-- `check_reg(r)` (40_commands R104). -/
def checkRegister (r : Int) : Option Err := if isRegister r then none else some (.badRegister r)

/-- `check_val(v)` (40_commands R104). -/
def checkValue (v : Int) : Option Err := if isByteValue v then none else some (.badValue v)

/-- The first error among an encoder's operand checks: the register before the value (40_commands R120,
60_exceptions R237). -/
def operandError : Instr → Option Err
  | .powerdown => none
  | .reset => none
  | .start => none
  | .rdata => none
  | .rreg r => checkRegister r
  | .wreg r v => (checkRegister r).or (checkValue v)

/-- The first error among the bytes of a profile, in index order (43_sequencer R180). -/
def profileError (p0 p1 p2 p3 : Int) : Option Err :=
  (((checkValue p0).or (checkValue p1)).or (checkValue p2)).or (checkValue p3)

/-- The four bytes of a profile whose values passed `check_val`. -/
def profileBytes (p0 p1 p2 p3 : Int) : Quad :=
  { b0 := BitVec.ofInt 8 p0, b1 := BitVec.ofInt 8 p1, b2 := BitVec.ofInt 8 p2, b3 := BitVec.ofInt 8 p3 }

/-- `wait_ready`'s check of its operand `poll_interval` (43_sequencer R190). -/
def pollIntervalError (d : ℚ) : Option Err := if 0 < d then none else some (.badParameter .pollInterval)

/-- A configured constant that is finite in the configured arithmetic (42_voltage_scaling R168). Under `exact` every
number is (R170); under `binary64` its nearest binary64 must be too. Log 12 (DEDUCED). -/
def ConfiguredValue.isFinite (arith : VoltArith) : ConfiguredValue → Bool
  | .finite x =>
    match arith with
    | .binary64 => Binary64.isFinite (Binary64.fl64 x)
    | .exact => true
  | .nonFinite => false

/-- The first error of the block's configuration: a non-finite VREF or OFFSET (42_voltage_scaling R168,
60_exceptions R231 code 9), a POLL_INTERVAL that is not positive (00_scope R10). Log 12 (DEDUCED). Where several
are bad, the order VREF, OFFSET, POLL_INTERVAL is the model's. Log 31 (DESIGN CHOICE). -/
def configurationError (c : Params) : Option Err :=
  if c.vref.isFinite c.voltArith = false then some (.badParameter .vref)
  else if c.offset.isFinite c.voltArith = false then some (.badParameter .offset)
  else pollIntervalError c.pollInterval

/-- A configuration that 00_scope R7 to R14 allow: finite constants, a positive poll interval and progress period,
a budget that is not negative (log 32, DEDUCED), settles of at least their lower bounds (log 20, DEDUCED). -/
def Params.valid (c : Params) : Bool :=
  decide (configurationError c = none) && decide (0 ≤ c.drdyTimeout) && decide (0 < c.progressPeriod) &&
    decide (Config.resetSettleMinimum ≤ c.resetSettle) && decide (Config.writeSettleMinimum ≤ c.writeSettle)

/-- Byte `k` of a response (20_memory R54). Every caller reads a byte the response has, since `send` checks
the length (40_commands R105). -/
def responseByte (response : Frame) (k : Nat) : Byte := response.getD k 0

/-- `decode_register_response(in)`: byte 1, unchanged; byte 0 is not read (40_commands R116, 30_encoding R78). -/
def decodeRegisterResponse (response : Frame) : Byte := responseByte response 1

/-- A call of a command's encoder: its operand checks, then its frame. It writes no state of the block and
performs no primitive (40_commands R103, R104). -/
def State.codecCall (s : State) (i : Instr) : State :=
  match operandError i with
  | some e => s.report (.err e)
  | none => s.report (.ok (.frame (encode i)))

end Sys2Proof.Machine
end

