-- ==== Sys2Proof/Machine/Datapath.lean ====
section
/-! DEFINITION. The sample datapath: stages S1 and S2 (spec/41_sample_decode) and S3a, S3b and S4
(spec/42_voltage_scaling). Pure functions (spec/40_commands R103, spec/42_voltage_scaling R163). -/

namespace Sys2Proof.Machine

/-- Stage S1: `(b0 << 16) | (b1 << 8) | b2` (41_sample_decode R140). -/
def assemble (b0 b1 b2 : Byte) : Code24 :=
  (b0.zeroExtend 24 <<< 16) ||| (b1.zeroExtend 24 <<< 8) ||| b2.zeroExtend 24

/-- Stage S2 as an integer: an explicit bit test, then one subtraction (41_sample_decode R141). -/
def signExtendInt (u : Code24) : Int :=
  if codeIsNegative u then (u.toNat : Int) - 16777216 else (u.toNat : Int)

/-- Stage S2 as the latch RAW stores it: the 32-bit word of that integer (41_sample_decode R141, R144). -/
def signExtend (u : Code24) : Raw32 := BitVec.ofInt 32 (signExtendInt u)

/-- The code of an RDATA response: bytes 1 to 3; byte 0 is not read (30_encoding R79, 40_commands R111). -/
def responseCode (response : Frame) : Code24 :=
  assemble (responseByte response 1) (responseByte response 2) (responseByte response 3)

/-- `decode_sample` of three bytes: S1 then S2 (41_sample_decode R143). -/
def decodeSample (b0 b1 b2 : Byte) : Int := (signExtend (assemble b0 b1 b2)).toInt

/-- `decode_sample` of a byte list: BadLength unless it has three bytes (41_sample_decode R145). -/
def decodeSampleList : List Byte → OpResult
  | [b0, b1, b2] => .ok (.rawSample (decodeSample b0 b1 b2))
  | bytes => .err (.badLength bytes.length)

/-- `decode_data_response(in)` (40_commands R111). -/
def decodeDataResponse (response : Frame) : Int := (signExtend (responseCode response)).toInt

/-- A configured constant as a number. A non-finite one has none: a free value, which only a state that
no run reaches can use, since no operation runs with such a constant (42_voltage_scaling R168). Log 12 (DEDUCED). -/
def ConfiguredValue.number : ConfiguredValue → ℚ
  | .finite x => x
  | .nonFinite => Config.freeConstant

/-- `VREF64 = fl64(VREF)` (42_voltage_scaling, D3). -/
def vref64 (c : Params) : F64 := Binary64.fl64 c.vref.number

/-- `OFF64 = fl64(OFFSET)` (42_voltage_scaling, D3). -/
def off64 (c : Params) : F64 := Binary64.fl64 c.offset.number

/-- A voltage value as a binary64. -/
def Volt.toF64 : Volt → F64
  | .binary64 bits => bits
  | .exact x => Binary64.fl64 x

/-- The number a voltage value denotes. -/
def Volt.toRat : Volt → ℚ
  | .binary64 bits => Binary64.value bits
  | .exact x => x

/-- Stage S3a: `Q <- fl64(RAW) ⊘ fl64(2^23)` (42_voltage_scaling R160); RAW / 2^23 under `exact` (R170). -/
def stageFraction (c : Params) (raw : Int) : Volt :=
  match c.voltArith with
  | .binary64 => .binary64 (Binary64.div (Binary64.fl64 raw) (Binary64.fl64 Config.fsr))
  | .exact => .exact (raw / Config.fsr)

/-- Stage S3b: `P <- Q ⊗ VREF64` (42_voltage_scaling R161); Q * VREF under `exact` (R170). -/
def stageScale (c : Params) (q : Volt) : Volt :=
  match c.voltArith with
  | .binary64 => .binary64 (Binary64.mul q.toF64 (vref64 c))
  | .exact => .exact (q.toRat * c.vref.number)

/-- Stage S4: `V <- P ⊕ OFF64` (42_voltage_scaling R162); P + OFFSET under `exact` (R170). -/
def stageOffset (c : Params) (p : Volt) : Volt :=
  match c.voltArith with
  | .binary64 => .binary64 (Binary64.add p.toF64 (off64 c))
  | .exact => .exact (p.toRat + c.offset.number)

/-- `raw_to_voltage(raw)`: S3a, S3b and S4 in that order (42_voltage_scaling R163). -/
def rawToVoltage (c : Params) (raw : Int) : Volt := stageOffset c (stageScale c (stageFraction c raw))

/-- The ideal voltage `V* = RAW * VREF / 2^23 + OFFSET` (42_voltage_scaling R166). -/
def idealVoltage (c : Params) (raw : Int) : ℚ := raw * c.vref.number / Config.fsr + c.offset.number

end Sys2Proof.Machine
end

