-- ==== Sys2Proof/Machine/Commands.lean ====
section
/-! DEFINITION. The meanings of the six commands. A command the sequencer sends in its phase is one transfer
and that phase's rule (spec/43_sequencer R181 to R185, R210, R212); everywhere else it is a call of its
encoder, which is pure (spec/40_commands R100 to R120, R103). Log 2 (DEDUCED). -/

namespace Sys2Proof.Machine

/-- POWERDOWN: an encoder only; no phase sends it (40_commands R102, 60_exceptions R247). -/
def execPowerdown (s : State) : Host.Outcome State Fault Refusal := .next (s.codecCall .powerdown)

/-- Phase INIT_RESET: send `[0x06]`, then INIT_SETTLE (43_sequencer R181). -/
def phaseReset (s : State) : State := s.sendThen .reset fun t _ => { t with phase := .initSettle }

/-- RESET (40_commands R100), sent in INIT_RESET. -/
def execReset (s : State) : Host.Outcome State Fault Refusal :=
  .next (if s.phase = .initReset then phaseReset s else s.codecCall .reset)

/-- Phase ACQ_TRIGGER: NotConfigured unless DeviceState is Configured, checked before any primitive; then
send `[0x08]`, ConversionPending and ACQ_SYNC (43_sequencer R210). -/
def phaseTrigger (s : State) : State :=
  if s.devState = .configured then
    s.sendThen .start fun t _ => { t with devState := .conversionPending, phase := .acqSync }
  else s.raise s.devState (.notConfigured .acqTrigger s.devState)

/-- START (40_commands R101), sent in ACQ_TRIGGER. -/
def execStart (s : State) : Host.Outcome State Fault Refusal :=
  .next (if s.phase = .acqTrigger then phaseTrigger s else s.codecCall .start)

/-- Phase ACQ_READ: send `[0x10,0,0,0]`, write U24 and RAW from the response, SampleReady and ACQ_CONVERT
(43_sequencer R212). -/
def phaseRead (s : State) : State :=
  s.sendThen .rdata fun t response =>
    { t with
      u24 := responseCode response
      raw := signExtend (responseCode response)
      devState := .sampleReady
      phase := .acqConvert }

/-- RDATA (40_commands R110), sent in ACQ_READ. -/
def execRdata (s : State) : Host.Outcome State Fault Refusal :=
  .next (if s.phase = .acqRead then phaseRead s else s.codecCall .rdata)

/-- Phase INIT_PROBE: read register 0; 0xFF raises DeviceUnresponsive with DeviceState Uninitialized, any
other value goes on to INIT_WRITE(0) (43_sequencer R183). -/
def phaseProbe (s : State) : State :=
  s.sendThen (.rreg 0) fun t response =>
    let c := decodeRegisterResponse response
    if deviceSilent c then t.raise .uninitialized (.deviceUnresponsive .initProbe 0 c)
    else { t with phase := .initWrite 0 }

/-- Phase INIT_VERIFY(i): read register `i` into `rb[i]`, then the next index or INIT_CHECK (43_sequencer R185). -/
def phaseVerify (i : Fin 4) (s : State) : State :=
  s.sendThen (.rreg (i.val : Int)) fun t response =>
    { t with
      rb := t.rb.set i (decodeRegisterResponse response)
      phase := match nextIndex i with
        | some j => .initVerify j
        | none => .initCheck }

/-- RREG r (40_commands R115), sent in INIT_PROBE with r = 0 and in INIT_VERIFY(i) with r = i. -/
def execRreg (r : Int) (s : State) : Host.Outcome State Fault Refusal :=
  .next
    (match s.phase with
    | .initProbe => if r = 0 then phaseProbe s else s.codecCall (.rreg r)
    | .initVerify i => if r = (i.val : Int) then phaseVerify i s else s.codecCall (.rreg r)
    | _ => s.codecCall (.rreg r))

/-- Phase INIT_WRITE(i): write PROFILE[i] to register `i`, sleep WRITE_SETTLE, then the next index or
INIT_VERIFY(0) (43_sequencer R184). -/
def phaseWrite (i : Fin 4) (s : State) : State :=
  s.sendThen (.wreg (i.val : Int) ((s.profile.get i).toNat : Int)) fun t _ =>
    { t.sleep t.params.writeSettle with
      phase := match nextIndex i with
        | some j => .initWrite j
        | none => .initVerify 0 }

/-- WREG r, v (40_commands R120), sent in INIT_WRITE(i) with r = i and v = PROFILE[i]. -/
def execWreg (r v : Int) (s : State) : Host.Outcome State Fault Refusal :=
  .next
    (match s.phase with
    | .initWrite i =>
      if r = (i.val : Int) ∧ v = ((s.profile.get i).toNat : Int) then phaseWrite i s else s.codecCall (.wreg r v)
    | _ => s.codecCall (.wreg r v))

end Sys2Proof.Machine
end

