-- ==== Sys2Proof/Machine/Dispatch.lean ====
section
/-! DEFINITION. One arm for each command of spec/opcode_table.json. -/

namespace Sys2Proof.Machine

/-- The meaning of a command. -/
def exec (i : Instr) (s : State) : Host.Outcome State Fault Refusal :=
  match i with
  | .powerdown => Sys2Proof.Machine.execPowerdown s
  | .reset => Sys2Proof.Machine.execReset s
  | .start => Sys2Proof.Machine.execStart s
  | .rdata => Sys2Proof.Machine.execRdata s
  | .rreg r => Sys2Proof.Machine.execRreg r s
  | .wreg r v => Sys2Proof.Machine.execWreg r v s

end Sys2Proof.Machine
end

