-- ==== Sys2Proof/Machine/Fetch.lean ====
section
/-! DEFINITION. Where the next command comes from: the sequencer's phase (spec/10_state R34) or, in IDLE, the
host's program (spec/20_memory R60). The block has no program counter and no instruction memory. -/

namespace Sys2Proof.Machine

/-- The command whose frame the phase sends (43_sequencer R181, R183, R184, R185, R210, R212). -/
def State.command (s : State) : Option Instr :=
  match s.phase with
  | .initReset => some .reset
  | .initProbe => some (.rreg 0)
  | .initWrite i => some (.wreg (i.val : Int) ((s.profile.get i).toNat : Int))
  | .initVerify i => some (.rreg (i.val : Int))
  | .acqTrigger => some .start
  | .acqRead => some .rdata
  | .idle => none
  | .initSettle => none
  | .initCheck => none
  | .waitPoll => none
  | .waitSleep => none
  | .acqSync => none
  | .acqConvert => none
  | .acqEmit => none

/-- What a step finds to run. -/
inductive Fetched
  /-- A command, and the state it runs in. -/
  | command (i : Instr) (s : State)
  /-- Bytes that are no frame of the command set (30_encoding R82). -/
  | notACommand (frame : Frame)
  /-- No command: the phase's own rule, or the entry of a host operation. -/
  | none
  deriving DecidableEq, Repr

/-- Decode the bytes of a frame for execution in `s`. -/
def fetchFrame (frame : Frame) (s : State) : Fetched :=
  match decodeFrame frame with
  | some i => .command i s
  | Option.none => .notACommand frame

/-- The fetch of a step: in IDLE a command of the host's program, decoded from its bytes or called through
its encoder; in a sending phase the frame the codec builds for that phase. -/
def fetch (s : State) : Fetched :=
  match s.phase, s.program with
  | .idle, .command frame :: rest => fetchFrame frame { s with program := rest }
  | .idle, .encodeCommand i :: rest => .command i { s with program := rest }
  | .idle, _ => .none
  | _, _ =>
    match s.command with
    | some i => fetchFrame (encode i) s
    | Option.none => .none

end Sys2Proof.Machine
end

