-- ==== Sys2Proof/Machine/Sequencer.lean ====
section
/-! DEFINITION. The sequencer's phases that send no frame, and the entry of the host's operations
(spec/43_sequencer, spec/10_state R44, spec/70_reset_and_hazards R270). -/

namespace Sys2Proof.Machine

/-- `construct()`: the block's reset. It performs no primitive (70_reset_and_hazards R270). Log 25 (DEDUCED). -/
def opConstruct (s : State) : State :=
  ({ s with profile := .cleared, profileWritten := false } : State).complete .uninitialized .done

/-- `initialize(profile)`, entry: the checks, PROFILE, INIT_RESET; DeviceState is not written (43_sequencer R180). -/
def opInitialise (p0 p1 p2 p3 : Int) (s : State) : State :=
  match profileError p0 p1 p2 p3 with
  | some e => s.report (.err e)
  | none => { s with profile := profileBytes p0 p1 p2 p3, profileWritten := true, phase := .initReset }

/-- `wait_ready`, entry: the operand check, then `t0 <- Now()`, `polls <- 0`, WAIT_POLL (43_sequencer R190, R191).
Log 11 (DEDUCED). -/
def enterWait (caller : WaitCaller) (pollInterval timeout : ℚ) (s : State) : State :=
  match pollIntervalError pollInterval with
  | some e => s.finish (.err e)
  | none =>
    let (t, t0) := s.now
    { t with
      wait := { pollInterval := pollInterval, timeout := timeout, t0 := t0, polls := 0, caller := caller }
      phase := .waitPoll }

/-- `raw_to_voltage` called by the host (42_voltage_scaling R163), on any integer. Log 14 (DEDUCED). -/
def opRawToVoltage (raw : Int) (s : State) : State := s.report (.ok (.voltage (rawToVoltage s.params raw)))

/-- The operations of the block, and raw_to_voltage, which reads VREF and OFFSET: none runs with a bad
configuration. The other pure functions read no parameter (42_voltage_scaling R168). Log 12 (DEDUCED). -/
def HostOp.needsConfiguration : HostOp → Bool
  | .construct => true
  | .initialise _ _ _ _ => true
  | .waitReady _ _ => true
  | .acquire => true
  | .getState => true
  | .rawToVoltage _ => true
  | .encodeCommand _ => false
  | .command _ => false
  | .decodeRegisterResponse _ _ => false
  | .decodeDataResponse _ _ _ _ => false
  | .decodeSample _ => false

/-- The entry of a host operation in IDLE (10_state R44). Commands are not run here: they are fetched. -/
def runOp (op : HostOp) (s : State) : State :=
  match op with
  | .construct => opConstruct s
  | .initialise p0 p1 p2 p3 => opInitialise p0 p1 p2 p3 s
  | .waitReady pollInterval timeout => enterWait .host pollInterval timeout s
  | .acquire => { s with phase := .acqTrigger }
  | .getState => s.report (.ok (.deviceState s.devState))
  | .encodeCommand i => s.codecCall i
  | .command _ => s
  | .decodeRegisterResponse in0 in1 => s.report (.ok (.registerValue (Machine.decodeRegisterResponse [in0, in1])))
  | .decodeDataResponse in0 in1 in2 in3 => s.report (.ok (.rawSample (Machine.decodeDataResponse [in0, in1, in2, in3])))
  | .decodeSample bytes => s.report (decodeSampleList bytes)
  | .rawToVoltage raw => opRawToVoltage raw s

/-- A host operation with the configuration's check in front (42_voltage_scaling R168). -/
def startOp (op : HostOp) (s : State) : State :=
  match configurationError s.params with
  | some e => if op.needsConfiguration then s.report (.err e) else runOp op s
  | none => runOp op s

/-- Phase IDLE: take the host's next operation, or wait for one (70_reset_and_hazards R270). Log 23 (DEDUCED). -/
def phaseIdle (s : State) : State :=
  match s.program with
  | [] => s
  | op :: rest => startOp op { s with program := rest }

/-- Phase INIT_SETTLE (43_sequencer R182). -/
def phaseSettle (s : State) : State := { s.sleep s.params.resetSettle with phase := .initProbe }

/-- Phase INIT_CHECK (43_sequencer R186). -/
def phaseCheck (s : State) : State :=
  match mismatches s.profile s.rb with
  | [] => s.complete .configured .done
  | bad => s.raise .faulted (.configurationMismatch .initCheck bad)

/-- A low poll ends the wait: the host's call returns `Ready(polls)`, a cycle goes on to ACQ_READ
(43_sequencer R192, R211). -/
def waitReadyLow (s : State) : State :=
  match s.wait.caller with
  | .host => s.complete s.devState (.ready s.wait.polls)
  | .acquire => { s with wait := .cleared, phase := .acqRead }

/-- The budget is exceeded: a direct call returns DrdyTimeout and writes no DeviceState, a cycle is
abandoned with DeviceState Faulted (43_sequencer R194, R211, 60_exceptions R234). Log 10 (DEDUCED). -/
def waitTimeout (elapsed : ℚ) (s : State) : State :=
  match s.wait.caller with
  | .host => s.raise s.devState (.drdyTimeout .waitPoll s.wait.polls elapsed)
  | .acquire => s.raise .faulted (.drdyTimeout .waitPoll s.wait.polls elapsed)

/-- A high poll is counted, with a progress event every PROGRESS_PERIOD polls (43_sequencer R192, R193). -/
def countPoll (s : State) : State :=
  let t : State := { s with wait := { s.wait with polls := s.wait.polls + 1 } }
  if progressDue t.params.progressPeriod t.wait.polls then t.progress t.wait.polls else t

/-- The budget check after a high poll (43_sequencer R194). -/
def checkBudget (s : State) : State :=
  let (t, now) := s.now
  if budgetExceeded (now - t.wait.t0) t.wait.timeout then waitTimeout (now - t.wait.t0) t
  else { t with phase := .waitSleep }

/-- Phase WAIT_POLL (43_sequencer R192 to R194). -/
def phasePoll (s : State) : State :=
  let (t, l) := s.readLevel
  if dataReady l then waitReadyLow t else checkBudget (countPoll t)

/-- Phase WAIT_SLEEP (43_sequencer R195). -/
def phaseSleep (s : State) : State := { s.sleep s.wait.pollInterval with phase := .waitPoll }

/-- Phase ACQ_SYNC: `wait_ready(POLL_INTERVAL, DRDY_TIMEOUT)` inside the cycle (43_sequencer R211). -/
def phaseSync (s : State) : State := enterWait .acquire s.params.pollInterval s.params.drdyTimeout s

/-- Phase ACQ_CONVERT: write Q, P and V from RAW (43_sequencer R213, 42_voltage_scaling R160 to R163). -/
def phaseConvert (s : State) : State :=
  { s with
    q := stageFraction s.params s.raw.toInt
    p := stageScale s.params (stageFraction s.params s.raw.toInt)
    v := rawToVoltage s.params s.raw.toInt
    phase := .acqEmit }

/-- Phase ACQ_EMIT: the timestamp, the record, DeviceState Configured (43_sequencer R214). -/
def phaseEmit (s : State) : State :=
  let (t, ts) := s.now
  let record : SampleRecord :=
    { timestamp := ts, rawSample := t.raw.toInt, voltage := t.v, gainSetting := t.params.gainSetting }
  (t.emit record).complete .configured (.sampled record)

/-- What a phase does when it fetches no command. The phases that send a frame do nothing here: their
command is fetched and executed (Machine/Fetch.lean). -/
def runPhase (s : State) : State :=
  match s.phase with
  | .idle => phaseIdle s
  | .initReset => s
  | .initSettle => phaseSettle s
  | .initProbe => s
  | .initWrite _ => s
  | .initVerify _ => s
  | .initCheck => phaseCheck s
  | .waitPoll => phasePoll s
  | .waitSleep => phaseSleep s
  | .acqTrigger => s
  | .acqSync => phaseSync s
  | .acqRead => s
  | .acqConvert => phaseConvert s
  | .acqEmit => phaseEmit s

end Sys2Proof.Machine
end

