-- ==== Sys2Proof/Machine/Step.lean ====
section
/-! DEFINITION. One step of the block: the phase's command where it has one, else the phase's own rule or the
entry of the host's next operation. Log 17 (DESIGN CHOICE). -/

namespace Sys2Proof.Machine

/-- One step. It is refused only for a command line whose bytes are no frame of the command set (30_encoding R82). -/
def step (s : State) : Host.Outcome State Fault Refusal :=
  match fetch s with
  | .command i t => exec i t
  | .notACommand frame => .refused (.notACommand frame)
  | .none => .next (runPhase s)

/-- `s` with the instruction of a table word as the host's next command line, in IDLE, where alone the block
takes one: the next step fetches, decodes and runs it. Log 1 (DESIGN CHOICE). -/
def State.withFetchWord (s : State) (nbits w : Nat) : State :=
  { s with phase := .idle, program := .command (tableFrame nbits w) :: s.program }

end Sys2Proof.Machine
end

