-- ==== Sys2Proof/Machine/Assembler.lean ====
section
/-! DEFINITION. The command syntax of spec/30_encoding R87 and the sequence-level forms of R88: what a source
line stands for. The spelling is notation only; the meaning of an operation is defined by the sequencer alone.
Log 27 (DESIGN CHOICE). -/

namespace Sys2Proof.Machine

/-- One line of a program: a command (R87), or a sequence-level form (R88). -/
inductive Line
  | command (i : Instr)
  | sleep (d : ℚ)
  | poll
  | now
  | progress (n : Nat)
  | emit (r : SampleRecord)
  | convert
  deriving DecidableEq, Repr

/-- A decimal digit. -/
def decimalDigit (c : Char) : Option Nat :=
  if 48 ≤ c.toNat ∧ c.toNat ≤ 57 then some (c.toNat - 48) else none

/-- A hexadecimal digit of either case. -/
def hexDigit (c : Char) : Option Nat :=
  if 48 ≤ c.toNat ∧ c.toNat ≤ 57 then some (c.toNat - 48)
  else if 65 ≤ c.toNat ∧ c.toNat ≤ 70 then some (c.toNat - 55)
  else if 97 ≤ c.toNat ∧ c.toNat ≤ 102 then some (c.toNat - 87)
  else none

/-- The number that digits of a base spell after `acc`. -/
def digits (base : Nat) (digit : Char → Option Nat) (acc : Nat) : List Char → Option Nat
  | [] => some acc
  | c :: rest =>
    match digit c with
    | some d => digits base digit (acc * base + d) rest
    | none => none

/-- A decimal number of at least one digit. -/
def parseDecimal : List Char → Option Nat
  | [] => none
  | c :: rest => digits 10 decimalDigit 0 (c :: rest)

/-- A byte as `0xHH` or in decimal (R87). -/
def parseByte : List Char → Option Nat
  | ['0', 'x', h, l] => digits 16 hexDigit 0 [h, l]
  | word => parseDecimal word

/-- A register as `0..3` or `CONF0..CONF3` (R87). -/
def parseRegister : List Char → Option Nat
  | ['C', 'O', 'N', 'F', c] => decimalDigit c
  | word => parseDecimal word

/-- A command line, given as its words without the comma and the comment (R87). -/
def parseCommand : List (List Char) → Option Instr
  | [['P', 'O', 'W', 'E', 'R', 'D', 'O', 'W', 'N']] => some .powerdown
  | [['R', 'E', 'S', 'E', 'T']] => some .reset
  | [['S', 'T', 'A', 'R', 'T']] => some .start
  | [['R', 'D', 'A', 'T', 'A']] => some .rdata
  | [['R', 'R', 'E', 'G'], r] => (parseRegister r).map fun n => .rreg n
  | [['W', 'R', 'E', 'G'], r, v] =>
    match parseRegister r, parseByte v with
    | some n, some b => some (.wreg n b)
    | _, _ => none
  | _ => none

/-- The line a primitive's event is spelled with; results are no lines (R88). -/
def Event.line : Event → Option Line
  | .xfer out _ => (decodeFrame out).map .command
  | .xferFail out => (decodeFrame out).map .command
  | .level _ => some .poll
  | .clock _ => some .now
  | .sleep d => some (.sleep d)
  | .progress n => some (.progress n)
  | .emit r => some (.emit r)
  | .result _ => none

/-- The write of index `i` with its settle (R88). -/
def expandWrite (c : Params) (profile : Quad) (i : Fin 4) : List Line :=
  [.command (.wreg (i.val : Int) ((profile.get i).toNat : Int)), .sleep c.writeSettle]

/-- `INIT p0, p1, p2, p3` where the probe reads a value other than 0xFF (R88, 43_sequencer R187). -/
def expandInit (c : Params) (profile : Quad) : List Line :=
  [.command .reset, .sleep c.resetSettle, .command (.rreg 0)]
    ++ (expandWrite c profile 0 ++ expandWrite c profile 1 ++ expandWrite c profile 2 ++ expandWrite c profile 3)
    ++ [.command (.rreg 0), .command (.rreg 1), .command (.rreg 2), .command (.rreg 3)]

/-- One round of `WAIT` whose poll read high, `n` counting the high polls so far (R88). -/
def expandHighPoll (period : Nat) (pollInterval : ℚ) (n : Nat) : List Line :=
  .poll :: ((if progressDue period n then [.progress n] else []) ++ [.now, .sleep pollInterval])

/-- `WAIT` whose line reads low after `k` high polls within the budget (R88). -/
def expandWait (period : Nat) (pollInterval : ℚ) (k : Nat) : List Line :=
  .now :: ((List.range k).flatMap (fun j => expandHighPoll period pollInterval (j + 1)) ++ [.poll])

/-- `ACQ` that emits `r` after `k` high polls (R88, 43_sequencer R215). -/
def expandAcquire (c : Params) (k : Nat) (r : SampleRecord) : List Line :=
  [.command .start] ++ expandWait c.progressPeriod c.pollInterval k ++ [.command .rdata, .convert, .now, .emit r]

end Sys2Proof.Machine
end

