-- ==== Sys2Proof/Safety.lean ====
section
/-! DEFINITION. What counts as a safe run, in the terms the claims use: the answer a transfer gets, the frames
a trace may hold (spec/30_encoding R82), the hazards software must respect as a monitor over the trace
(spec/70_reset_and_hazards R280 to R285), and the invariants of the state. -/

namespace Sys2Proof.Machine

/-- The answer the bus gives if the next primitive is a transfer of `out` (60_exceptions R251). -/
def State.busAnswer (s : State) (out : Frame) : BusAnswer :=
  admittedAnswer s.params.transportCanFail s.env.draws out s.env.drawBus.1

/-- The next transfer of `out` completes with a response of the frame's length (40_commands R105). -/
def State.responds (s : State) (out response : Frame) : Prop :=
  s.busAnswer out = .response response ∧ response.length = out.length

/-- The state after that transfer: one event more, one draw less (20_memory R55). -/
def State.afterTransfer (s : State) (out response : Frame) : State :=
  { s with env := s.env.drawBus.2, trace := s.trace ++ [.xfer out response] }

/-- What a bus error records of its transfer: the failure, or the response of another length (40_commands R105). -/
def State.busErrorEvent (s : State) (out : Frame) : Option Event :=
  match s.busAnswer out with
  | .failure => some (.xferFail out)
  | .response bytes => if bytes.length = out.length then none else some (.xfer out bytes)

/-- The phases that send a frame, where the command itself goes on the bus. -/
def State.sends (s : State) (i : Instr) : Prop := s.command = some i ∧ (i = .start → s.devState = .configured)

/-- A frame the sequencer may send: a command's frame, and never POWERDOWN (30_encoding R80, R82, 40_commands R102).
Log 19 (DEDUCED). -/
def sequencerFrame (out : Frame) : Bool :=
  match decodeFrame out with
  | some .powerdown => false
  | some .reset => true
  | some .start => true
  | some .rdata => true
  | some (.rreg _) => true
  | some (.wreg _ _) => true
  | none => false

/-- The event is no transfer, or a transfer of a frame the sequencer may send. -/
def Event.frameAllowed : Event → Bool
  | .xfer out _ => sequencerFrame out
  | .xferFail out => sequencerFrame out
  | .level _ => true
  | .clock _ => true
  | .sleep _ => true
  | .progress _ => true
  | .emit _ => true
  | .result _ => true

/-- Every frame of the trace is one the sequencer may send. -/
def State.framesAllowed (s : State) : Bool := s.trace.all Event.frameAllowed

/-- What the hazards of 70_reset_and_hazards leave to wait for: the settle that must still pass before the
next frame (R280, R281), whether a conversion was started and its result not yet read (R285), and whether
the line has read low since that START (R282). -/
structure Monitor where
  settle : ℚ
  started : Bool
  ready : Bool
  deriving DecidableEq, Repr

/-- Nothing to wait for and nothing started. -/
def Monitor.start : Monitor := { settle := 0, started := false, ready := false }

/-- A frame may be sent: no settle is open, and an RDATA comes only after data-ready (R280, R281, R282). -/
def Monitor.admits (m : Monitor) (out : Frame) : Bool :=
  decide (m.settle ≤ 0) && (decide (decodeFrame out ≠ some .rdata) || m.ready)

/-- What must be waited for after a transfer of the frame that completed. -/
def Monitor.completed (m : Monitor) (out : Frame) : Monitor :=
  match decodeFrame out with
  | some .reset => { m with settle := Config.resetSettleMinimum }
  | some (.wreg _ _) => { m with settle := Config.writeSettleMinimum }
  | some .start => { m with started := true, ready := false }
  | some .rdata => { m with started := false, ready := false }
  | some (.rreg _) => m
  | some .powerdown => m
  | none => m

/-- A transfer that failed, or whose response had another length, opens no settle and starts no conversion;
an RDATA or START so ended leaves no result to read. Log 28 (DESIGN CHOICE). -/
def Monitor.failed (m : Monitor) (out : Frame) : Monitor :=
  match decodeFrame out with
  | some .start => { m with started := false, ready := false }
  | some .rdata => { m with started := false, ready := false }
  | some .reset => m
  | some (.wreg _ _) => m
  | some (.rreg _) => m
  | some .powerdown => m
  | none => m

/-- The monitor after an event; `none` where the event breaks a hazard rule. -/
def Monitor.next (m : Monitor) : Event → Option Monitor
  | .xfer out response =>
    if m.admits out then some (if response.length = out.length then m.completed out else m.failed out) else none
  | .xferFail out => if m.admits out then some (m.failed out) else none
  | .sleep d => some { m with settle := max 0 (m.settle - max 0 d) }
  | .level .low => some { m with ready := m.started }
  | .level .high => some m
  | .clock _ => some m
  | .progress _ => some m
  | .emit _ => some m
  | .result _ => some m

/-- The monitor after a list of events. -/
def Monitor.run (m : Monitor) : List Event → Option Monitor
  | [] => some m
  | e :: rest =>
    match m.next e with
    | some n => n.run rest
    | none => none

/-- No event of the trace breaks a hazard rule. -/
def State.hazardFree (s : State) : Bool := (Monitor.start.run s.trace).isSome

/-- What the monitor must show in each phase for the phase's own events to respect the hazards. -/
def monitorFits (s : State) (m : Monitor) : Bool :=
  match s.phase with
  | .initSettle => decide (m.settle ≤ Config.resetSettleMinimum)
  | .acqSync => decide (m.settle ≤ 0) && m.started
  | .acqRead => decide (m.settle ≤ 0) && m.ready
  | .waitPoll => decide (m.settle ≤ 0) && (decide (s.wait.caller = .host) || m.started)
  | .waitSleep => decide (m.settle ≤ 0) && (decide (s.wait.caller = .host) || m.started)
  | .idle => decide (m.settle ≤ 0)
  | .initReset => decide (m.settle ≤ 0)
  | .initProbe => decide (m.settle ≤ 0)
  | .initWrite _ => decide (m.settle ≤ 0)
  | .initVerify _ => decide (m.settle ≤ 0)
  | .initCheck => decide (m.settle ≤ 0)
  | .acqTrigger => decide (m.settle ≤ 0)
  | .acqConvert => decide (m.settle ≤ 0)
  | .acqEmit => decide (m.settle ≤ 0)

/-- The trace respects the hazards so far and the phase can go on doing so (R280 to R285). -/
def State.hazardInvariant (s : State) : Bool :=
  match Monitor.start.run s.trace with
  | some m => monitorFits s m
  | none => false

/-- DeviceState is one that lasts outside a cycle. -/
def DeviceState.settled : DeviceState → Bool
  | .uninitialized => true
  | .configured => true
  | .faulted => true
  | .conversionPending => false
  | .sampleReady => false

/-- DeviceState agrees with the phase: ConversionPending from Trigger to Read, SampleReady from Read to
Emit, neither outside a cycle (43_sequencer R210 to R215). -/
def State.devStateFits (s : State) : Bool :=
  match s.phase with
  | .acqSync => decide (s.devState = .conversionPending)
  | .acqRead => decide (s.devState = .conversionPending)
  | .acqConvert => decide (s.devState = .sampleReady)
  | .acqEmit => decide (s.devState = .sampleReady)
  | .waitPoll => if s.wait.caller = .host then s.devState.settled else decide (s.devState = .conversionPending)
  | .waitSleep => if s.wait.caller = .host then s.devState.settled else decide (s.devState = .conversionPending)
  | .idle => s.devState.settled
  | .initReset => s.devState.settled
  | .initSettle => s.devState.settled
  | .initProbe => s.devState.settled
  | .initWrite _ => s.devState.settled
  | .initVerify _ => s.devState.settled
  | .initCheck => s.devState.settled
  | .acqTrigger => s.devState.settled

/-- The phase is one of `initialize`. -/
def Phase.initialising : Phase → Bool
  | .initReset => true
  | .initSettle => true
  | .initProbe => true
  | .initWrite _ => true
  | .initVerify _ => true
  | .initCheck => true
  | .idle => false
  | .waitPoll => false
  | .waitSleep => false
  | .acqTrigger => false
  | .acqSync => false
  | .acqRead => false
  | .acqConvert => false
  | .acqEmit => false

/-- The phase is one of a `wait_ready`. -/
def Phase.waiting : Phase → Bool
  | .waitPoll => true
  | .waitSleep => true
  | .idle => false
  | .initReset => false
  | .initSettle => false
  | .initProbe => false
  | .initWrite _ => false
  | .initVerify _ => false
  | .initCheck => false
  | .acqTrigger => false
  | .acqSync => false
  | .acqRead => false
  | .acqConvert => false
  | .acqEmit => false

/-- A cycle has sent START and has not ended (43_sequencer R216). -/
def State.inCycle (s : State) : Bool :=
  match s.phase with
  | .acqSync => true
  | .acqRead => true
  | .acqConvert => true
  | .acqEmit => true
  | .waitPoll => decide (s.wait.caller = .acquire)
  | .waitSleep => decide (s.wait.caller = .acquire)
  | .idle => false
  | .initReset => false
  | .initSettle => false
  | .initProbe => false
  | .initWrite _ => false
  | .initVerify _ => false
  | .initCheck => false
  | .acqTrigger => false

/-- Transient bookkeeping holds nothing in IDLE, and PROFILE holds a value wherever it is read
(10_state R34, R38, R42, R45, 60_exceptions R238). -/
def State.bookkeepingFits (s : State) : Bool :=
  (decide (s.phase ≠ .idle) || decide (s.discard = s)) && (!s.phase.initialising || s.profileWritten)

/-- A RawSample: an integer of the 24-bit range (41_sample_decode R142). -/
def isRawSample (x : Int) : Bool := decide (-8388608 ≤ x) && decide (x ≤ 8388607)

/-- The latch RAW holds a RawSample, and before Emit the latch V holds its voltage (43_sequencer R213). -/
def State.latchesFit (s : State) : Bool :=
  isRawSample s.raw.toInt && (decide (s.phase ≠ .acqEmit) || decide (s.v = rawToVoltage s.params s.raw.toInt))

/-- A record of this block: a RawSample, its voltage, and the configured gain setting (43_sequencer R214). -/
def SampleRecord.fits (c : Params) (r : SampleRecord) : Bool :=
  isRawSample r.rawSample && decide (r.voltage = rawToVoltage c r.rawSample) && decide (r.gainSetting = c.gainSetting)

/-- An emitted record is one of this block; every other event is free. -/
def Event.recordFits (c : Params) : Event → Bool
  | .emit r => r.fits c
  | .xfer _ _ => true
  | .xferFail _ => true
  | .level _ => true
  | .clock _ => true
  | .sleep _ => true
  | .progress _ => true
  | .result _ => true

/-- Every record the trace emitted is one of this block. -/
def State.recordsFit (s : State) : Bool := s.trace.all (Event.recordFits s.params)

/-- The wait's count against the clock (43_sequencer R196): each high poll but the last was followed by a
sleep of `pollInterval`, and no poll before the last one had exceeded the budget. -/
def State.waitFits (s : State) : Bool :=
  match s.phase with
  | .waitPoll =>
    decide (0 < s.wait.pollInterval) &&
      decide ((s.wait.polls : ℚ) * s.wait.pollInterval ≤ s.env.clockFloor - s.wait.t0) &&
      (decide (s.wait.polls = 0) || decide (((s.wait.polls : ℚ) - 1) * s.wait.pollInterval ≤ s.wait.timeout))
  | .waitSleep =>
    decide (0 < s.wait.pollInterval) && decide (1 ≤ s.wait.polls) &&
      decide (((s.wait.polls : ℚ) - 1) * s.wait.pollInterval ≤ s.env.clockFloor - s.wait.t0) &&
      decide (((s.wait.polls : ℚ) - 1) * s.wait.pollInterval ≤ s.wait.timeout)
  | .idle => true
  | .initReset => true
  | .initSettle => true
  | .initProbe => true
  | .initWrite _ => true
  | .initVerify _ => true
  | .initCheck => true
  | .acqTrigger => true
  | .acqSync => true
  | .acqRead => true
  | .acqConvert => true
  | .acqEmit => true

/-- The invariant of the block over a valid configuration: DeviceState agrees with the phase, and transient
bookkeeping with its life. -/
def State.coherent (s : State) : Bool := s.params.valid && s.devStateFits && s.bookkeepingFits

/-- The events of the wait's round `j` (from 0) whose poll read high, where the clock reads `start` at entry
and moves by the sleeps alone (43_sequencer R215, spec/95_test_vectors L2-W). -/
def highPollEvents (period : Nat) (start pollInterval : ℚ) (j : Nat) : List Event :=
  [.level .high] ++ (if (j + 1) % period = 0 then [.progress (j + 1)] else [])
    ++ [.clock (start + j * pollInterval), .sleep pollInterval]

/-- The results in the trace, oldest first (60_exceptions R230). -/
def State.results (s : State) : List OpResult :=
  s.trace.filterMap fun e =>
    match e with
    | .result r => some r
    | .xfer _ _ => none
    | .xferFail _ => none
    | .level _ => none
    | .clock _ => none
    | .sleep _ => none
    | .progress _ => none
    | .emit _ => none

end Sys2Proof.Machine
end

