-- ==== Sys2Proof/Certificates/Slice0/Obligations.lean ====
section
/-! DEFINITION. The statements about the block, for the provers. Each docstring names the rules of spec/ it
formalises, or says what it rests on. Wherever a statement reads the environment, the form of the answers is the
model's (log 3, 4); wherever bookkeeping is discarded, the zeros it then holds are the model's (log 6). -/

open Sys2Proof Sys2Proof.Machine

/-! ### Encoding -/

/-- R121: the encoder table, and that no other frame is produced. -/
def Obligations.EncoderTable : Prop :=
  encode .reset = [0x06] ∧ encode .start = [0x08] ∧ encode .powerdown = [0x02] ∧
  encode .rdata = [0x10, 0x00, 0x00, 0x00] ∧
  encode (.rreg 0) = [0x20, 0x00] ∧ encode (.rreg 1) = [0x24, 0x00] ∧
  encode (.rreg 2) = [0x28, 0x00] ∧ encode (.rreg 3) = [0x2C, 0x00] ∧
  (∀ v : Byte, encode (.wreg 0 v.toNat) = [0x40, v] ∧ encode (.wreg 1 v.toNat) = [0x44, v] ∧
    encode (.wreg 2 v.toNat) = [0x48, v] ∧ encode (.wreg 3 v.toNat) = [0x4C, v]) ∧
  (∀ i : Instr, i.wellFormed = true →
    encode i ∈ ([[0x06], [0x08], [0x02], [0x10, 0x00, 0x00, 0x00], [0x20, 0x00], [0x24, 0x00], [0x28, 0x00],
      [0x2C, 0x00]] : List Frame) ∨
    ∃ v : Byte, encode i ∈ ([[0x40, v], [0x44, v], [0x48, v], [0x4C, v]] : List Frame))

/-- Decoding the frame of a well-formed command gives it back, whatever bytes follow it (R72 to R77, R81, R86). -/
def Obligations.DecodeOfEncode : Prop :=
  ∀ (i : Instr) (rest : List Byte), i.wellFormed = true →
    decodeFrame (encode i) = some i ∧ decodeStream (encode i ++ rest) = some (i, rest)

/-- A byte list that decodes is the frame of the command it decodes to, and that command is well-formed:
no other byte list is a command (R82, R83). -/
def Obligations.EncodeOfDecode : Prop :=
  ∀ (f : Frame) (i : Instr), decodeFrame f = some i → i.wellFormed = true ∧ encode i = f

/-- The twelve command bytes of the opcode map and their classes; every other byte is NotACommand (R80, R81, R82). -/
def Obligations.CommandBytes : Prop :=
  classify 0x02 = .powerdown ∧ classify 0x06 = .reset ∧ classify 0x08 = .start ∧ classify 0x10 = .rdata ∧
  classify 0x20 = .rreg 0 ∧ classify 0x24 = .rreg 1 ∧ classify 0x28 = .rreg 2 ∧ classify 0x2C = .rreg 3 ∧
  classify 0x40 = .wreg 0 ∧ classify 0x44 = .wreg 1 ∧ classify 0x48 = .wreg 2 ∧ classify 0x4C = .wreg 3 ∧
  ∀ b : Byte, classify b = .notACommand ↔
    b ∉ ([0x02, 0x06, 0x08, 0x10, 0x20, 0x24, 0x28, 0x2C, 0x40, 0x44, 0x48, 0x4C] : List Byte)

/-- Words written out from the encoding rules decode to the commands they stand for (R70 to R77). -/
def Obligations.WrittenOutWords : Prop :=
  decodeFrame [0b00000010] = some .powerdown ∧ decodeFrame [0b00000110] = some .reset ∧
  decodeFrame [0b00001000] = some .start ∧ decodeFrame [0b00010000, 0, 0, 0] = some .rdata ∧
  decodeFrame [0b00101000, 0] = some (.rreg 2) ∧ decodeFrame [0b01000100, 0b11000100] = some (.wreg 1 0xC4)

/-- A command line of the host's program is fetched, decoded and executed; an encoder call is executed; in a
sending phase the phase's own command is. Bytes that do not decode are refused (log 1, 2; R34, R60, R82). -/
def Obligations.StepRunsTheDecodedCommand : Prop :=
  (∀ (s : State) (f : Frame) (i : Instr) (rest : List HostOp), s.phase = .idle → s.program = .command f :: rest →
    decodeFrame f = some i → step s = exec i { s with program := rest }) ∧
  (∀ (s : State) (i : Instr) (rest : List HostOp), s.phase = .idle → s.program = .encodeCommand i :: rest →
    step s = exec i { s with program := rest }) ∧
  (∀ (s : State) (i : Instr), s.command = some i → step s = exec i s) ∧
  (∀ (s : State) (f : Frame) (rest : List HostOp), s.phase = .idle → s.program = .command f :: rest →
    decodeFrame f = none → step s = .refused (.notACommand f))

/-! ### Encoder calls -/

/-- Every command outside its sending phase is a call of its encoder: the frame is returned, nothing else of
the state changes (R100, R101, R102, R103, R110, R115, R120; log 2). -/
def Obligations.EncoderCallReturnsTheFrame : Prop :=
  ∀ (i : Instr) (s : State), i.wellFormed = true → s.command ≠ some i →
    exec i s = .next { s with trace := s.trace ++ [.result (.ok (.frame (encode i)))] }

/-- R102: POWERDOWN is an encoder only, and no phase sends it. -/
def Obligations.PowerdownIsAnEncoderOnly : Prop :=
  ∀ s : State, s.command ≠ some .powerdown ∧
    exec .powerdown s = .next { s with trace := s.trace ++ [.result (.ok (.frame [0x02]))] }

/-- R104: the operand checks, the register before the value; an operand error writes no state and sends no frame. -/
def Obligations.OperandErrors : Prop :=
  ∀ (s : State) (r v : Int),
    (¬(0 ≤ r ∧ r ≤ 3) →
      exec (.rreg r) s = .next { s with trace := s.trace ++ [.result (.err (.badRegister r))] } ∧
      exec (.wreg r v) s = .next { s with trace := s.trace ++ [.result (.err (.badRegister r))] }) ∧
    (0 ≤ r ∧ r ≤ 3 → ¬(0 ≤ v ∧ v ≤ 255) →
      exec (.wreg r v) s = .next { s with trace := s.trace ++ [.result (.err (.badValue v))] })

/-! ### Sending -/

/-- R105, R18: what `send` does: a response of the frame's length is returned after one Xfer event; a failure, or a
response of another length, is an error after one event; the failure outcome never happens where
TRANSPORT_CAN_FAIL is false. That the event of another length is Xfer with that response is the model's choice
(log 9), as is what a failure draw then turns into (log 15). -/
def Obligations.SendIsOneTransfer : Prop :=
  ∀ (s : State) (out : Frame),
    (∀ response, s.responds out response → s.send out = (s.afterTransfer out response, some response)) ∧
    (∀ e, s.busErrorEvent out = some e →
      s.send out = ({ s with env := s.env.drawBus.2, trace := s.trace ++ [e] }, none)) ∧
    ((∃ response, s.responds out response) ∨ (∃ e, s.busErrorEvent out = some e)) ∧
    (s.params.transportCanFail = false → ∀ e, s.busErrorEvent out = some e → e ≠ .xferFail out)

/-- R236: a BusError of any command in its sending phase leaves DeviceState Faulted and the phase IDLE, with the
transfer and the error in the trace, the transients discarded (to zeros: log 6) and nothing else written. The event of a
response of another length is the model's choice (log 9). -/
def Obligations.BusErrorFaults : Prop :=
  ∀ (s : State) (i : Instr) (e : Event), s.sends i → s.busErrorEvent (encode i) = some e →
    exec i s = .next { s.discard with
      devState := .faulted
      phase := .idle
      env := s.env.drawBus.2
      trace := s.trace ++ [e, .result (.err (.busError s.phase s.phase.register (encode i)))] }

/-- R238: error entry, field by field. The zeros of the discarded fields are the model's choice (log 6). -/
def Obligations.ErrorEntry : Prop :=
  ∀ (s : State) (d : DeviceState) (e : Err), s.raise d e =
    { devState := d, profile := s.profile, profileWritten := s.profileWritten, phase := .idle
      wait := { pollInterval := 0, timeout := 0, t0 := 0, polls := 0, caller := .host }
      rb := { b0 := 0, b1 := 0, b2 := 0, b3 := 0 }, u24 := 0, raw := 0
      q := .binary64 0, p := .binary64 0, v := .binary64 0
      params := s.params, trace := s.trace ++ [.result (.err e)], program := s.program, env := s.env }

/-- What a command leaves unchanged: the frame of all six (R39, R38, R103, R185, R210, R212). That a command the
phase does not send is an encoder call, which changes only the trace, is the model's inference (log 2); the clock's
floor is the model's form of R251 (log 4). -/
def Obligations.CommandFrame : Prop :=
  ∀ (i : Instr) (s t : State), exec i s = .next t →
    t.params = s.params ∧ t.program = s.program ∧ t.profile = s.profile ∧ t.profileWritten = s.profileWritten ∧
    t.env.line = s.env.line ∧ t.env.clock = s.env.clock ∧
    (s.command ≠ some i → t = { s with trace := t.trace }) ∧
    (t.phase ≠ .idle → t.wait = s.wait ∧ t.q = s.q ∧ t.p = s.p ∧ t.v = s.v ∧
      (i ≠ .rdata → t.u24 = s.u24 ∧ t.raw = s.raw) ∧
      ((∀ r, i ≠ .rreg r) → t.rb = s.rb) ∧
      (i ≠ .start → i ≠ .rdata → t.devState = s.devState)) ∧
    (s.command = some i → t.phase = .idle → t.discard = t) ∧
    ((∀ r v, i ≠ .wreg r v) → t.env.clockFloor = s.env.clockFloor)

/-! ### Initialization -/

/-- R180: `initialize` writes PROFILE and enters INIT_RESET, DeviceState unwritten; a byte outside 0..255 is
BadValue for the first such byte, with nothing written. -/
def Obligations.InitialiseEntry : Prop :=
  ∀ (s : State) (p0 p1 p2 p3 : Int) (rest : List HostOp), s.phase = .idle →
    s.program = .initialise p0 p1 p2 p3 :: rest → configurationError s.params = none →
    ((∀ x ∈ [p0, p1, p2, p3], 0 ≤ x ∧ x ≤ 255) →
      ∃ c0 c1 c2 c3 : Byte, (c0.toNat : Int) = p0 ∧ (c1.toNat : Int) = p1 ∧ (c2.toNat : Int) = p2 ∧
        (c3.toNat : Int) = p3 ∧
        step s = .next { s with
          program := rest, profile := { b0 := c0, b1 := c1, b2 := c2, b3 := c3 }, profileWritten := true,
          phase := .initReset }) ∧
    (∀ (good : List Int) (x : Int) (after : List Int), [p0, p1, p2, p3] = good ++ x :: after →
      (∀ y ∈ good, 0 ≤ y ∧ y ≤ 255) → ¬(0 ≤ x ∧ x ≤ 255) →
      step s = .next { s with program := rest, trace := s.trace ++ [.result (.err (.badValue x))] })

/-- R181: phase INIT_RESET sends the RESET frame and goes to INIT_SETTLE. -/
def Obligations.ResetPhase : Prop :=
  ∀ (s : State) (response : Frame), s.phase = .initReset → s.responds [0x06] response →
    exec .reset s = .next { s.afterTransfer [0x06] response with phase := .initSettle }

/-- R182: phase INIT_SETTLE sleeps RESET_SETTLE and goes to INIT_PROBE. The clock's floor is the model's form of
R251 (log 4). -/
def Obligations.SettlePhase : Prop :=
  ∀ s : State, s.phase = .initSettle →
    step s = .next { s with
      env := { s.env with clockFloor := s.env.clockFloor + s.params.resetSettle }
      trace := s.trace ++ [.sleep s.params.resetSettle]
      phase := .initProbe }

/-- R183: phase INIT_PROBE reads register 0; 0xFF raises DeviceUnresponsive with DeviceState Uninitialized,
every other value goes on to INIT_WRITE(0). The zeros of discarded fields are the model's (log 6). -/
def Obligations.ProbePhase : Prop :=
  ∀ (s : State) (x c : Byte), s.phase = .initProbe → s.responds [0x20, 0x00] [x, c] →
    exec (.rreg 0) s = .next
      (if c = 0xFF then
        { (s.afterTransfer [0x20, 0x00] [x, c]).discard with
          devState := .uninitialized
          phase := .idle
          trace := s.trace ++ [.xfer [0x20, 0x00] [x, c],
            .result (.err (.deviceUnresponsive .initProbe 0 0xFF))] }
      else { s.afterTransfer [0x20, 0x00] [x, c] with phase := .initWrite 0 })

/-- R184: phase INIT_WRITE(i) writes PROFILE[i] to register i, sleeps WRITE_SETTLE, and goes to the next index,
after index 3 to INIT_VERIFY(0). The clock's floor is the model's form of R251 (log 4). -/
def Obligations.WritePhase : Prop :=
  ∀ (s : State) (i : Fin 4) (response : Frame), s.phase = .initWrite i →
    s.responds [0x40 ||| (BitVec.ofNat 8 i.val <<< 2), s.profile.get i] response →
    exec (.wreg (i.val : Int) ((s.profile.get i).toNat : Int)) s = .next { s with
      env := { s.env.drawBus.2 with clockFloor := s.env.clockFloor + s.params.writeSettle }
      trace := s.trace ++ [.xfer [0x40 ||| (BitVec.ofNat 8 i.val <<< 2), s.profile.get i] response,
        .sleep s.params.writeSettle]
      phase := if h : i.val < 3 then .initWrite ⟨i.val + 1, by omega⟩ else .initVerify 0 }

/-- R185: phase INIT_VERIFY(i) reads register i into rb[i] and writes no other readback, then goes to the next
index, after index 3 to INIT_CHECK. -/
def Obligations.VerifyPhase : Prop :=
  ∀ (s : State) (i : Fin 4) (x c : Byte), s.phase = .initVerify i →
    s.responds [0x20 ||| (BitVec.ofNat 8 i.val <<< 2), 0x00] [x, c] →
    ∃ rb : Quad, rb.get i = c ∧ (∀ j, j ≠ i → rb.get j = s.rb.get j) ∧
      exec (.rreg (i.val : Int)) s = .next
        { s.afterTransfer [0x20 ||| (BitVec.ofNat 8 i.val <<< 2), 0x00] [x, c] with
          rb := rb
          phase := if h : i.val < 3 then .initVerify ⟨i.val + 1, by omega⟩ else .initCheck }

/-- R186: phase INIT_CHECK: equal readbacks make DeviceState Configured and return Ok; any mismatch makes it
Faulted and raises one ConfigurationMismatch that lists exactly the mismatches, in ascending index. The zeros of
discarded fields are the model's (log 6). -/
def Obligations.CheckPhase : Prop :=
  ∀ s : State, s.phase = .initCheck →
    ((∀ i, s.rb.get i = s.profile.get i) →
      step s = .next { s.discard with
        devState := .configured, phase := .idle, trace := s.trace ++ [.result (.ok .done)] }) ∧
    ((∃ i, s.rb.get i ≠ s.profile.get i) →
      ∃ bad : List (Fin 4 × Byte × Byte),
        (∀ m, m ∈ bad ↔ s.rb.get m.1 ≠ s.profile.get m.1 ∧ m.2 = (s.profile.get m.1, s.rb.get m.1)) ∧
        (bad.map fun m => m.1.val).Pairwise (· < ·) ∧
        step s = .next { s.discard with
          devState := .faulted, phase := .idle
          trace := s.trace ++ [.result (.err (.configurationMismatch .initCheck bad))] })

/-- R188, and the primitives R187 lists (ten transfers: log 26): with a probe other than 0xFF and readbacks that
echo the profile, thirteen steps of `initialize(p)` perform exactly those primitives and end with Ok, DeviceState
Configured. -/
def Obligations.InitialiseEcho : Prop :=
  ∀ (s : State) (p : Quad) (rest : List HostOp) (more : List BusAnswer)
    (a x c y0 z0 y1 z1 y2 z2 y3 z3 x0 x1 x2 x3 : Byte),
    s.phase = .idle → configurationError s.params = none →
    s.program = .initialise p.b0.toNat p.b1.toNat p.b2.toNat p.b3.toNat :: rest →
    s.env.bus = [.response [a], .response [x, c], .response [y0, z0], .response [y1, z1], .response [y2, z2],
      .response [y3, z3], .response [x0, p.b0], .response [x1, p.b1], .response [x2, p.b2],
      .response [x3, p.b3]] ++ more →
    c ≠ 0xFF →
    ∃ t : State, Sys2Proof.core.run 13 s = .next t ∧
      t.devState = .configured ∧ t.phase = .idle ∧ t.profile = p ∧ t.program = rest ∧ t.env.bus = more ∧
      t.trace = s.trace ++
        [.xfer [0x06] [a], .sleep s.params.resetSettle, .xfer [0x20, 0x00] [x, c],
          .xfer [0x40, p.b0] [y0, z0], .sleep s.params.writeSettle,
          .xfer [0x44, p.b1] [y1, z1], .sleep s.params.writeSettle,
          .xfer [0x48, p.b2] [y2, z2], .sleep s.params.writeSettle,
          .xfer [0x4C, p.b3] [y3, z3], .sleep s.params.writeSettle,
          .xfer [0x20, 0x00] [x0, p.b0], .xfer [0x24, 0x00] [x1, p.b1], .xfer [0x28, 0x00] [x2, p.b2],
          .xfer [0x2C, 0x00] [x3, p.b3], .result (.ok .done)]

/-- R188, second half, from the first verify read on: readbacks of which some differs from PROFILE end, five
steps later, in ConfigurationMismatch and DeviceState Faulted. -/
def Obligations.InitialiseMismatch : Prop :=
  ∀ (s : State) (v : Quad) (more : List BusAnswer) (x0 x1 x2 x3 : Byte), s.phase = .initVerify 0 →
    s.env.bus = [.response [x0, v.b0], .response [x1, v.b1], .response [x2, v.b2], .response [x3, v.b3]] ++ more →
    v ≠ s.profile →
    ∃ (t : State) (bad : List (Fin 4 × Byte × Byte)), Sys2Proof.core.run 5 s = .next t ∧ bad ≠ [] ∧
      t.devState = .faulted ∧ t.phase = .idle ∧
      t.trace = s.trace ++
        [.xfer [0x20, 0x00] [x0, v.b0], .xfer [0x24, 0x00] [x1, v.b1], .xfer [0x28, 0x00] [x2, v.b2],
          .xfer [0x2C, 0x00] [x3, v.b3], .result (.err (.configurationMismatch .initCheck bad))]

/-! ### The wait -/

/-- R190, R191: the entry of a host's `wait_ready`: BadParameter for a non-positive poll interval, else one clock
reading into t0, polls 0, WAIT_POLL. When the configuration is checked (log 12), and that a negative timeout is not
refused (log 11), are the model's choice. -/
def Obligations.WaitEntry : Prop :=
  ∀ (s : State) (d b : ℚ) (rest : List HostOp), s.phase = .idle → s.program = .waitReady d b :: rest →
    configurationError s.params = none →
    (0 < d → step s = .next { s with
      program := rest
      env := s.env.drawClock.2
      trace := s.trace ++ [.clock s.env.drawClock.1]
      wait := { pollInterval := d, timeout := b, t0 := s.env.drawClock.1, polls := 0, caller := .host }
      phase := .waitPoll }) ∧
    (¬ 0 < d → step s = .next { s.discard with
      program := rest, phase := .idle, trace := s.trace ++ [.result (.err (.badParameter .pollInterval))] })

/-- R192: a low poll ends the wait at once with the count of high polls; the caller is the host, or a cycle,
which goes on to ACQ_READ (R211). The zeros of discarded fields are the model's (log 6). -/
def Obligations.LowPoll : Prop :=
  ∀ s : State, s.phase = .waitPoll → s.env.drawLevel.1 = .low →
    (s.wait.caller = .host → step s = .next { s.discard with
      phase := .idle
      env := s.env.drawLevel.2
      trace := s.trace ++ [.level .low, .result (.ok (.ready s.wait.polls))] }) ∧
    (s.wait.caller = .acquire → step s = .next { s with
      wait := .cleared
      phase := .acqRead
      env := s.env.drawLevel.2
      trace := s.trace ++ [.level .low] })

/-- R192, R193, R194: a high poll is counted, progress is emitted at every multiple of PROGRESS_PERIOD (log 20), the
clock is read, and the wait sleeps while the elapsed time is at most the budget. -/
def Obligations.HighPollWithinBudget : Prop :=
  ∀ s : State, s.phase = .waitPoll → s.env.drawLevel.1 = .high →
    s.env.drawLevel.2.drawClock.1 - s.wait.t0 ≤ s.wait.timeout →
    step s = .next { s with
      wait := { s.wait with polls := s.wait.polls + 1 }
      phase := .waitSleep
      env := s.env.drawLevel.2.drawClock.2
      trace := s.trace ++ [.level .high]
        ++ (if (s.wait.polls + 1) % s.params.progressPeriod = 0 then [.progress (s.wait.polls + 1)] else [])
        ++ [.clock s.env.drawLevel.2.drawClock.1] }

/-- R194, R211, R234: past the budget the wait raises DrdyTimeout with the poll count and the elapsed time; a
direct call writes no DeviceState, a cycle leaves it Faulted. The step named (log 10) and the zeros of discarded
fields (log 6) are the model's choice. -/
def Obligations.HighPollOverBudget : Prop :=
  ∀ s : State, s.phase = .waitPoll → s.env.drawLevel.1 = .high →
    s.wait.timeout < s.env.drawLevel.2.drawClock.1 - s.wait.t0 →
    step s = .next { s.discard with
      devState := if s.wait.caller = .host then s.devState else .faulted
      phase := .idle
      env := s.env.drawLevel.2.drawClock.2
      trace := s.trace ++ [.level .high]
        ++ (if (s.wait.polls + 1) % s.params.progressPeriod = 0 then [.progress (s.wait.polls + 1)] else [])
        ++ [.clock s.env.drawLevel.2.drawClock.1,
          .result (.err (.drdyTimeout .waitPoll (s.wait.polls + 1) (s.env.drawLevel.2.drawClock.1 - s.wait.t0)))] }

/-- R195: WAIT_SLEEP sleeps the poll interval and goes back to WAIT_POLL. The clock's floor is the model's form
of R251 (log 4). -/
def Obligations.SleepPhase : Prop :=
  ∀ s : State, s.phase = .waitSleep →
    step s = .next { s with
      env := { s.env with clockFloor := s.env.clockFloor + s.wait.pollInterval }
      trace := s.trace ++ [.sleep s.wait.pollInterval]
      phase := .waitPoll }

/-- R251, in the model's form (log 4): a clock reading is not below the floor and becomes it, and a reading that is
admissible is taken as it is. -/
def Obligations.ClockReadings : Prop :=
  ∀ (v : Env) (t : ℚ) (rest : List ℚ),
    v.clockFloor ≤ v.drawClock.1 ∧ v.drawClock.2.clockFloor = v.drawClock.1 ∧
    (v.clock = t :: rest → v.clockFloor ≤ t → v.drawClock.1 = t ∧ v.drawClock.2.clock = rest)

/-- R196, the count: with the wait's invariant, a DrdyTimeout of n polls over e ms comes only past the budget,
after n - 1 sleeps, and the poll before the last was within it. -/
def Obligations.TimeoutBounds : Prop :=
  ∀ (s t : State) (st : Phase) (n : Nat) (e : ℚ) (pre : List Event), s.waitFits = true → s.phase = .waitPoll →
    step s = .next t → t.trace = pre ++ [.result (.err (.drdyTimeout st n e))] → t.phase = .idle →
    s.wait.timeout < e ∧ ((n : ℚ) - 1) * s.wait.pollInterval ≤ e ∧
    (2 ≤ n → ((n : ℚ) - 2) * s.wait.pollInterval ≤ s.wait.timeout)

/-- R196, termination: a line that stays high raises DrdyTimeout after at most floor(timeout / poll_interval) + 2
polls, whatever the clock reads. -/
def Obligations.WaitTerminates : Prop :=
  ∀ (s : State) (more : List Level), s.phase = .waitPoll → s.wait.polls = 0 → 0 < s.wait.pollInterval →
    0 ≤ s.wait.timeout → s.wait.t0 ≤ s.env.clockFloor →
    s.env.line = List.replicate (⌊s.wait.timeout / s.wait.pollInterval⌋.toNat + 2) Level.high ++ more →
    ∃ (k n : Nat) (e : ℚ) (t : State), Sys2Proof.core.run k s = .next t ∧ t.phase = .idle ∧
      n ≤ ⌊s.wait.timeout / s.wait.pollInterval⌋.toNat + 2 ∧ s.wait.timeout < e ∧
      t.trace.getLast? = some (.result (.err (.drdyTimeout .waitPoll n e)))

/-! ### The acquisition cycle -/

/-- R210: `acquire()` goes to ACQ_TRIGGER and does nothing else; a call while DeviceState is not Configured ends in
NotConfigured, with no primitive performed and DeviceState unchanged; else START is sent, ConversionPending, ACQ_SYNC.
The zeros of discarded fields (log 6) and when the configuration is checked (log 12) are the model's. -/
def Obligations.TriggerPhase : Prop :=
  (∀ (s : State) (rest : List HostOp), s.phase = .idle → s.program = .acquire :: rest →
    configurationError s.params = none →
    step s = .next { s with program := rest, phase := .acqTrigger } ∧
    (s.devState ≠ .configured → Sys2Proof.core.run 2 s = .next { s.discard with
      program := rest, phase := .idle, trace := s.trace ++ [.result (.err (.notConfigured .acqTrigger s.devState))] })) ∧
  ∀ s : State, s.phase = .acqTrigger →
    (s.devState ≠ .configured → exec .start s = .next { s.discard with
      phase := .idle, trace := s.trace ++ [.result (.err (.notConfigured .acqTrigger s.devState))] }) ∧
    (∀ response, s.devState = .configured → s.responds [0x08] response →
      exec .start s = .next { s.afterTransfer [0x08] response with
        devState := .conversionPending, phase := .acqSync })

/-- R211, entry: ACQ_SYNC enters the wait with POLL_INTERVAL and DRDY_TIMEOUT, for the cycle. -/
def Obligations.SyncPhase : Prop :=
  ∀ s : State, s.phase = .acqSync → 0 < s.params.pollInterval →
    step s = .next { s with
      env := s.env.drawClock.2
      trace := s.trace ++ [.clock s.env.drawClock.1]
      wait := ⟨s.params.pollInterval, s.params.drdyTimeout, s.env.drawClock.1, 0, .acquire⟩
      phase := .waitPoll }

/-- R212: phase ACQ_READ sends RDATA, decodes response bytes 1 to 3 into RAW (and U24), SampleReady, ACQ_CONVERT. -/
def Obligations.ReadPhase : Prop :=
  ∀ (s : State) (x b0 b1 b2 : Byte), s.phase = .acqRead →
    s.responds [0x10, 0x00, 0x00, 0x00] [x, b0, b1, b2] →
    ∃ (u : Code24) (raw : Raw32), u.toNat = b0.toNat * 65536 + b1.toNat * 256 + b2.toNat ∧
      raw.toInt = (if 8388608 ≤ u.toNat then (u.toNat : Int) - 16777216 else (u.toNat : Int)) ∧
      exec .rdata s = .next { s.afterTransfer [0x10, 0x00, 0x00, 0x00] [x, b0, b1, b2] with
        u24 := u, raw := raw, devState := .sampleReady, phase := .acqConvert }

/-- R213, R160 to R163: phase ACQ_CONVERT writes V, and Q and P, from RAW, performs no primitive and goes to
ACQ_EMIT. What Q and P hold under VOLT_ARITH = exact is the model's inference (log 22). -/
def Obligations.ConvertPhase : Prop :=
  ∀ s : State, s.phase = .acqConvert →
    step s = .next { s with
      q := stageFraction s.params s.raw.toInt
      p := stageScale s.params (stageFraction s.params s.raw.toInt)
      v := rawToVoltage s.params s.raw.toInt
      phase := .acqEmit }

/-- R214: phase ACQ_EMIT reads the clock, emits the record and returns it, DeviceState Configured. The zeros of
discarded fields are the model's (log 6). -/
def Obligations.EmitPhase : Prop :=
  ∀ s : State, s.phase = .acqEmit →
    step s = .next { s.discard with
      devState := .configured
      phase := .idle
      env := s.env.drawClock.2
      trace := s.trace ++ [.clock s.env.drawClock.1,
        .emit ⟨s.env.drawClock.1, s.raw.toInt, s.v, s.params.gainSetting⟩,
        .result (.ok (.sampled ⟨s.env.drawClock.1, s.raw.toInt, s.v, s.params.gainSetting⟩))] }

/-- R215: a cycle whose line reads low after k high polls, over a clock that moves by the sleeps alone, performs
exactly R215's primitives and returns the record of the response's code. -/
def Obligations.AcquireCycle : Prop :=
  ∀ (s : State) (k : Nat) (a x b0 b1 b2 : Byte) (rest : List HostOp) (bus : List BusAnswer) (line : List Level)
    (clock : List ℚ),
    s.phase = .idle → s.devState = .configured → configurationError s.params = none →
    s.program = .acquire :: rest →
    s.env.bus = .response [a] :: .response [x, b0, b1, b2] :: bus →
    s.env.line = List.replicate k Level.high ++ Level.low :: line →
    s.env.clock = List.replicate (k + 2) s.env.clockFloor ++ clock →
    (k = 0 ∨ ((k : ℚ) - 1) * s.params.pollInterval ≤ s.params.drdyTimeout) →
    ∃ t : State, Sys2Proof.core.run (2 * k + 7) s = .next t ∧ t.devState = .configured ∧ t.phase = .idle ∧
      t.program = rest ∧
      ∃ r : SampleRecord,
        r.timestamp = s.env.clockFloor + k * s.params.pollInterval ∧
        r.rawSample = decodeSample b0 b1 b2 ∧
        r.voltage = rawToVoltage s.params (decodeSample b0 b1 b2) ∧
        r.gainSetting = s.params.gainSetting ∧
        t.trace = s.trace ++ [.xfer [0x08] [a], .clock s.env.clockFloor]
          ++ (List.range k).flatMap (highPollEvents s.params.progressPeriod s.env.clockFloor s.params.pollInterval)
          ++ [.level .low, .xfer [0x10, 0x00, 0x00, 0x00] [x, b0, b1, b2], .clock r.timestamp, .emit r,
            .result (.ok (.sampled r))]

/-- R216: once START has been sent, a step either stays in the cycle or ends it with the record, a DrdyTimeout or
a BusError. -/
def Obligations.CycleEndsOnlySo : Prop :=
  ∀ s t : State, s.inCycle = true → s.params.valid = true → step s = .next t →
    t.inCycle = true ∨
    (t.phase = .idle ∧ ∃ r, t.trace.getLast? = some (.result r) ∧
      ((∃ record, r = .ok (.sampled record)) ∨ (∃ st n e, r = .err (.drdyTimeout st n e)) ∨
        (∃ st reg f, r = .err (.busError st reg f))))

/-! ### Operations that run in one step -/

/-- R270: `construct()` makes the block Uninitialized and IDLE with PROFILE unwritten, and performs no primitive;
so does reset, after which the block waits in IDLE for a host operation. -/
def Obligations.ConstructAndReset : Prop :=
  (∀ (s : State) (rest : List HostOp), s.phase = .idle → s.program = .construct :: rest →
    configurationError s.params = none →
    ∃ t : State, step s = .next t ∧ t.devState = .uninitialized ∧ t.phase = .idle ∧ t.profileWritten = false ∧
      t.trace = s.trace ++ [.result (.ok .done)] ∧ t.env = s.env ∧ t.params = s.params ∧ t.program = rest) ∧
  State.reset.devState = .uninitialized ∧ State.reset.phase = .idle ∧ State.reset.profileWritten = false ∧
  State.reset.trace = [] ∧ step State.reset = .next State.reset

/-- R36, R103, R163: `get_state()` returns DeviceState, the pure decoders return their results, `raw_to_voltage`
returns the voltage; none writes state. Response byte 0 is read by neither decoder (R84). When the configuration is
checked (log 12), and that raw_to_voltage takes any integer (log 14), are the model's choice. -/
def Obligations.PureCalls : Prop :=
  ∀ (s : State) (rest : List HostOp) (x b0 b1 b2 : Byte), s.phase = .idle →
    (configurationError s.params = none → s.program = .getState :: rest →
      step s = .next { s with program := rest, trace := s.trace ++ [.result (.ok (.deviceState s.devState))] }) ∧
    (s.program = .decodeRegisterResponse x b0 :: rest →
      step s = .next { s with program := rest, trace := s.trace ++ [.result (.ok (.registerValue b0))] }) ∧
    (s.program = .decodeDataResponse x b0 b1 b2 :: rest →
      step s = .next { s with
        program := rest, trace := s.trace ++ [.result (.ok (.rawSample (decodeSample b0 b1 b2)))] }) ∧
    (s.program = .decodeSample [b0, b1, b2] :: rest →
      step s = .next { s with
        program := rest, trace := s.trace ++ [.result (.ok (.rawSample (decodeSample b0 b1 b2)))] }) ∧
    (∀ raw : Int, configurationError s.params = none → s.program = .rawToVoltage raw :: rest →
      step s = .next { s with
        program := rest, trace := s.trace ++ [.result (.ok (.voltage (rawToVoltage s.params raw)))] })

/-- R145: `decode_sample` of a list that is not three bytes long is refused with BadLength and writes no state. -/
def Obligations.BadLengthIsRefused : Prop :=
  ∀ (s : State) (rest : List HostOp) (bytes : List Byte), s.phase = .idle →
    s.program = .decodeSample bytes :: rest → bytes.length ≠ 3 →
    step s = .next { s with program := rest, trace := s.trace ++ [.result (.err (.badLength bytes.length))] }

/-- R168, D36: no operation of the block runs with a VREF or OFFSET that is non-finite, or whose nearest binary64 is under
VOLT_ARITH = binary64, nor with a POLL_INTERVAL that is not positive: it ends with BadParameter, writes no state and performs no primitive.
When and what the check covers (log 12) and the order VREF, OFFSET, POLL_INTERVAL (log 31) are the model's choice. -/
def Obligations.NonFiniteConstantsAreRefused : Prop :=
  (∀ (s : State) (op : HostOp) (rest : List HostOp), s.phase = .idle → s.program = op :: rest →
    op.needsConfiguration = true →
    (s.params.vref.isFinite s.params.voltArith = false →
      step s = .next { s with program := rest, trace := s.trace ++ [.result (.err (.badParameter .vref))] }) ∧
    (s.params.vref.isFinite s.params.voltArith = true → s.params.offset.isFinite s.params.voltArith = false →
      step s = .next { s with program := rest, trace := s.trace ++ [.result (.err (.badParameter .offset))] }) ∧
    (s.params.vref.isFinite s.params.voltArith = true → s.params.offset.isFinite s.params.voltArith = true →
      ¬ 0 < s.params.pollInterval →
      step s = .next { s with
        program := rest, trace := s.trace ++ [.result (.err (.badParameter .pollInterval))] })) ∧
  (∀ arith : VoltArith, ConfiguredValue.nonFinite.isFinite arith = false) ∧
  ∀ x : ℚ, (ConfiguredValue.finite x).isFinite .binary64 = Binary64.isFinite (Binary64.fl64 x) ∧
    (ConfiguredValue.finite x).isFinite .exact = true

/-! ### The datapath -/

/-- R143, with R140 and R141: stage S1 is positional, stage S2 extends the sign of the code, as an integer and as the
stored 32-bit word, and decode_sample is the one after the other. -/
def Obligations.SampleStages : Prop :=
  (∀ b0 b1 b2 : Byte, (assemble b0 b1 b2).toNat = b0.toNat * 65536 + b1.toNat * 256 + b2.toNat) ∧
  ∀ u : Code24,
    (signExtend u).toInt = (if u.getLsbD 23 then (u.toNat : Int) - 16777216 else (u.toNat : Int)) ∧
    signExtend u = u.signExtend 32 ∧
    signExtend u = (if u.getLsbD 23 then u.zeroExtend 32 ||| 0xFF000000 else u.zeroExtend 32) ∧
    ∀ b0 b1 b2 : Byte, assemble b0 b1 b2 = u →
      decodeSample b0 b1 b2 = (if u.getLsbD 23 then (u.toNat : Int) - 16777216 else (u.toNat : Int))

/-- R142: S2 is a bijection from the 2^24 codes onto [-2^23, 2^23 - 1], with RAW congruent to U24 modulo 2^24. -/
def Obligations.SignExtensionIsABijection : Prop :=
  (∀ u : Code24, isRawSample (signExtend u).toInt = true ∧ (signExtend u).toInt % 16777216 = (u.toNat : Int)) ∧
  (∀ u w : Code24, (signExtend u).toInt = (signExtend w).toInt → u = w) ∧
  (∀ x : Int, isRawSample x = true → ∃ u : Code24, (signExtend u).toInt = x)

/-- R160 to R163: the division by full scale is exact, and RAW = 0 gives +0.0; for all constants with a finite
binary64 the product and the sum are each the real result rounded once; the corners of R161 and R162. What Q holds
under VOLT_ARITH = exact is the model's inference (log 22), and that the bits of +0.0 are zero is the encoding's
(log 21). -/
def Obligations.FractionIsExact : Prop :=
  (∀ (c : Params) (raw : Int), isRawSample raw = true →
    (stageFraction c raw).toRat = raw / 8388608 ∧
    (c.voltArith = .binary64 → ∃ bits, stageFraction c raw = .binary64 bits ∧ Binary64.isFinite bits = true ∧
      (raw = 0 → bits = 0))) ∧
  ∀ (c : Params) (vref offset : ℚ) (raw : Int), c.voltArith = .binary64 → c.vref = .finite vref →
    c.offset = .finite offset → c.vref.isFinite .binary64 = true → c.offset.isFinite .binary64 = true →
    isRawSample raw = true →
    ∃ p v : F64,
      p = Binary64.fl64 (raw / 8388608 * Binary64.value (Binary64.fl64 vref)) ∧
      v = Binary64.fl64 (Binary64.value p + Binary64.value (Binary64.fl64 offset)) ∧
      stageScale c (stageFraction c raw) = .binary64 p ∧ rawToVoltage c raw = .binary64 v ∧
      Binary64.isFinite p = true ∧
      (raw = -8388608 → Binary64.value p = -Binary64.value (Binary64.fl64 vref)) ∧
      (raw = 0 → p = 0 ∧ Binary64.value v = Binary64.value (Binary64.fl64 offset)) ∧
      (offset = 0 → Binary64.value v = Binary64.value p)

/-- R168: with constants of magnitude below 2^1000 no voltage is infinite or NaN. -/
def Obligations.VoltagesAreFinite : Prop :=
  ∀ (c : Params) (vref offset : ℚ) (raw : Int), c.voltArith = .binary64 → c.vref = .finite vref →
    c.offset = .finite offset → |vref| < 2 ^ 1000 → |offset| < 2 ^ 1000 → isRawSample raw = true →
    ∃ bits, rawToVoltage c raw = .binary64 bits ∧ Binary64.isFinite bits = true

/-- R167: for VREF64 > 0 the voltage is non-decreasing in RAW, and with the reference constants it is strictly
increasing. -/
def Obligations.VoltageIsMonotone : Prop :=
  (∀ (c : Params) (vref offset : ℚ) (raw raw' : Int), c.voltArith = .binary64 → c.vref = .finite vref →
    c.offset = .finite offset → 0 < vref → vref < 2 ^ 1000 → |offset| < 2 ^ 1000 →
    isRawSample raw = true → isRawSample raw' = true → raw ≤ raw' →
    (rawToVoltage c raw).toRat ≤ (rawToVoltage c raw').toRat) ∧
  (∀ (c : Params) (raw raw' : Int), c.voltArith = .binary64 → c.vref = .finite (2048 / 1000) →
    c.offset = .finite (224 / 100000) → isRawSample raw = true → isRawSample raw' = true → raw < raw' →
    (rawToVoltage c raw).toRat < (rawToVoltage c raw').toRat)

/-- R166: with the reference constants the voltage differs from the ideal one by less than 5 * 10^-16 V. -/
def Obligations.VoltageErrorBound : Prop :=
  ∀ (c : Params) (raw : Int), c.voltArith = .binary64 → c.vref = .finite (2048 / 1000) →
    c.offset = .finite (224 / 100000) → isRawSample raw = true →
    |(rawToVoltage c raw).toRat - (raw * (2048 / 1000) / 8388608 + 224 / 100000)| < 5 / 10 ^ 16

/-- R170, R168: under VOLT_ARITH = exact the voltage is the ideal one, of whatever size the finite constants are, and
the host's call of raw_to_voltage answers it. That any integer is taken (log 14), and that the call needs a positive
POLL_INTERVAL (log 12), are the model's choice. -/
def Obligations.ExactArithmeticIsIdeal : Prop :=
  ∀ (c : Params) (vref offset : ℚ) (raw : Int), c.voltArith = .exact → c.vref = .finite vref →
    c.offset = .finite offset →
    rawToVoltage c raw = .exact (raw * vref / 8388608 + offset) ∧
    ∀ (s : State) (rest : List HostOp), s.params = c → 0 < c.pollInterval → s.phase = .idle →
      s.program = .rawToVoltage raw :: rest →
      step s = .next { s with
        program := rest, trace := s.trace ++ [.result (.ok (.voltage (.exact (raw * vref / 8388608 + offset))))] }

/-! ### The whole machine -/

/-- R230, R238: every step answers a next state but for a refused command line; no step faults. -/
def Obligations.OnlyNonCommandsStop : Prop :=
  ∀ s : State, (∃ t, step s = .next t) ∨
    (∃ f rest, s.phase = .idle ∧ s.program = .command f :: rest ∧ decodeFrame f = none ∧
      step s = .refused (.notACommand f))

/-- R66, R238: a step only adds events after those of the trace, and no operation writes a parameter (R39). -/
def Obligations.TraceGrowsAndParametersStay : Prop :=
  ∀ s t : State, step s = .next t → (∃ events, t.trace = s.trace ++ events) ∧ t.params = s.params

/-- R38: only `initialize` writes PROFILE; `construct` leaves it unwritten. -/
def Obligations.ProfileWriters : Prop :=
  ∀ s t : State, step s = .next t → (t.profile ≠ s.profile ∨ t.profileWritten ≠ s.profileWritten) →
    s.phase = .idle ∧ ∃ op rest, s.program = op :: rest ∧
      (op = .construct ∧ t.profileWritten = false ∨
        ∃ p0 p1 p2 p3, op = .initialise p0 p1 p2 p3 ∧ t.profileWritten = true ∧ t.phase = .initReset)

/-- R37: the writers of DeviceState: where a step changes it, the new value comes from the rule the table names. -/
def Obligations.DeviceStateWriters : Prop :=
  ∀ s t : State, step s = .next t → t.devState ≠ s.devState →
    (t.devState = .uninitialized → (∃ rest, s.phase = .idle ∧ s.program = .construct :: rest) ∨ s.phase = .initProbe) ∧
    (t.devState = .configured → s.phase = .initCheck ∨ s.phase = .acqEmit) ∧
    (t.devState = .conversionPending → s.phase = .acqTrigger ∧ s.devState = .configured) ∧
    (t.devState = .sampleReady → s.phase = .acqRead) ∧
    (t.devState = .faulted → s.phase = .initCheck ∨ (s.phase = .waitPoll ∧ s.wait.caller = .acquire) ∨
      s.command ≠ none)

/-- R284, R272: DeviceState becomes Configured from Faulted or Uninitialized only when all four readbacks equal PROFILE. -/
def Obligations.ConfiguredOnlyAfterVerify : Prop :=
  ∀ s t : State, s.coherent = true → step s = .next t → t.devState = .configured → s.devState.settled = true →
    s.devState ≠ .configured → s.phase = .initCheck ∧ ∀ i, s.rb.get i = s.profile.get i

/-- R230, R237: an operation gives one result, at the step that ends it, be it the step that takes it from the
program; a step inside an operation gives none, nor does one that finds no operation. -/
def Obligations.OneResultPerOperation : Prop :=
  ∀ s t : State, step s = .next t →
    ((s.phase ≠ .idle ∨ s.program ≠ []) → t.phase = .idle → ∃ r, t.results = s.results ++ [r]) ∧
    (t.phase ≠ .idle → t.results = s.results) ∧
    (s.phase = .idle → s.program = [] → t.results = s.results)

/-! ### Invariants -/

/-- The state after reset meets the invariants below. -/
def Obligations.ResetMeetsTheInvariants : Prop :=
  State.reset.coherent = true ∧ State.reset.framesAllowed = true ∧ State.reset.hazardInvariant = true ∧
  State.reset.latchesFit = true ∧ State.reset.recordsFit = true ∧ State.reset.waitFits = true

/-- Every step keeps DeviceState in agreement with the phase, and transient bookkeeping with its life
(R36, R37, R38, R42, R45, R210 to R215, R238). -/
def Obligations.StepKeepsCoherence : Prop :=
  ∀ s t : State, s.coherent = true → step s = .next t → t.coherent = true

/-- R82, R102: every frame the block sends is a command's frame, and POWERDOWN is never sent. -/
def Obligations.StepKeepsFramesAllowed : Prop :=
  ∀ s t : State, s.framesAllowed = true → step s = .next t → t.framesAllowed = true

/-- R280 to R282, R285: with a valid configuration every step keeps the hazards respected: settles after RESET and
WREG, data-ready before RDATA, one RDATA per START. That a transfer that failed, or whose response had another
length, opens no settle and starts no conversion is the model's choice (log 28). -/
def Obligations.StepKeepsHazards : Prop :=
  ∀ s t : State, s.params.valid = true → s.hazardInvariant = true → step s = .next t →
    t.hazardInvariant = true ∧ t.hazardFree = true

/-- R142, R213, R214: every emitted record holds a RawSample, its voltage and the configured gain. -/
def Obligations.StepKeepsRecords : Prop :=
  ∀ s t : State, s.latchesFit = true → s.recordsFit = true → step s = .next t →
    t.latchesFit = true ∧ t.recordsFit = true

/-- R196: every step keeps the wait's count in agreement with the clock. -/
def Obligations.StepKeepsWaitCount : Prop :=
  ∀ s t : State, s.waitFits = true → step s = .next t → t.waitFits = true
end

