-- ==== Sys2Proof/Laws/Binary64.lean ====
section
/-! SUPPORT. What rounding to binary64 and the operations on binary64 values do, as facts about rational numbers:
error, monotonicity, exactness, finiteness. -/

namespace Sys2Proof.Machine.Binary64

/-- Rounding to an integer is off by at most one half. -/
theorem roundHalfEven_error (a b : Nat) (hb : 0 < b) : |(roundHalfEven a b : ℚ) - a / b| ≤ 1 / 2 := by
  have hb' : (0 : ℚ) < b := by exact_mod_cast hb
  have hd : (a : ℚ) = b * (a / b : ℕ) + (a % b : ℕ) := by exact_mod_cast (Nat.div_add_mod a b).symm
  have hr : ((a % b : ℕ) : ℚ) < b := by exact_mod_cast Nat.mod_lt a hb
  have h0 : (0 : ℚ) ≤ (a % b : ℕ) := Nat.cast_nonneg _
  have he : (a : ℚ) / b = (a / b : ℕ) + (a % b : ℕ) / b := by
    rw [eq_comm, ← sub_eq_zero]; field_simp; linarith
  have hq : ((a % b : ℕ) : ℚ) / b * b = (a % b : ℕ) := by field_simp
  simp only [roundHalfEven]
  split
  · rename_i h
    have h2 : (b : ℚ) ≤ 2 * (a % b : ℕ) := by
      obtain h | h := h
      · exact_mod_cast h.le
      · exact_mod_cast h.1.ge
    rw [he, abs_le]
    push_cast
    constructor <;> nlinarith
  · rename_i h
    have h2 : 2 * ((a % b : ℕ) : ℚ) ≤ b := by
      have : 2 * (a % b) ≤ b := by omega
      exact_mod_cast this
    rw [he, abs_le]
    constructor <;> nlinarith

/-- Rounding to an integer is monotone in the fraction. -/
theorem roundHalfEven_mono (a b c d : Nat) (hb : 0 < b) (hd : 0 < d) (h : a * d ≤ c * b) :
    roundHalfEven a b ≤ roundHalfEven c d := by
  have h1 := Nat.div_add_mod a b
  have h2 := Nat.div_add_mod c d
  have h3 := Nat.mod_lt a hb
  have h4 := Nat.mod_lt c hd
  have hq : a / b ≤ c / d := by
    rw [Nat.le_div_iff_mul_le hd]
    have := Nat.div_mul_le_self a b
    exact Nat.le_of_mul_le_mul_right (by nlinarith : a / b * d * b ≤ c * b) hb
  simp only [roundHalfEven]
  obtain hlt | heq := hq.lt_or_eq
  · split <;> split <;> omega
  · rw [← heq] at h2 ⊢
    have hr : a % b * d ≤ c % d * b := by nlinarith
    have up : b < 2 * (a % b) → d < 2 * (c % d) := fun hh => by nlinarith
    have tie : 2 * (a % b) = b → d ≤ 2 * (c % d) := fun hh => by nlinarith
    split <;> split <;> omega

/-- A whole number is rounded to itself. -/
theorem roundHalfEven_mul (m b : Nat) (hb : 0 < b) : roundHalfEven (m * b) b = m := by
  simp [roundHalfEven, Nat.mul_div_cancel _ hb, hb.ne]

/-- `powLe` decides the comparison of a fraction with a power of two. -/
theorem powLe_iff (k : Int) (n d : Nat) (hd : 0 < d) : powLe k n d = true ↔ (2 : ℚ) ^ k ≤ n / d := by
  have hd' : (0 : ℚ) < d := by exact_mod_cast hd
  unfold powLe
  rw [le_div_iff₀ hd']
  split
  · rename_i h
    obtain ⟨m, rfl⟩ := Int.eq_ofNat_of_zero_le h
    rw [decide_eq_true_eq, ← Nat.cast_le (α := ℚ)]
    simp [mul_comm]
  · rename_i h
    obtain ⟨m, rfl⟩ : ∃ m : Nat, k = -(m : Int) := ⟨(-k).toNat, by omega⟩
    rw [decide_eq_true_eq, ← Nat.cast_le (α := ℚ)]
    simp only [neg_neg, Int.toNat_natCast, Nat.cast_mul, Nat.cast_pow, Nat.cast_ofNat, zpow_neg, zpow_natCast]
    rw [inv_mul_le_iff₀ (by positivity), mul_comm]

/-- The leading exponent brackets the fraction between two powers of two. -/
theorem leadingExponent_spec (n d : Nat) (hn : 0 < n) (hd : 0 < d) :
    (2 : ℚ) ^ leadingExponent n d ≤ n / d ∧ (n : ℚ) / d < 2 ^ (leadingExponent n d + 1) := by
  have hd' : (0 : ℚ) < d := by exact_mod_cast hd
  have n1 : (2 : ℚ) ^ n.log2 ≤ n := by exact_mod_cast Nat.log2_self_le hn.ne'
  have n2 : (n : ℚ) < 2 ^ (n.log2 + 1) := by exact_mod_cast Nat.lt_log2_self
  have d1 : (2 : ℚ) ^ d.log2 ≤ d := by exact_mod_cast Nat.log2_self_le hd.ne'
  have d2 : (d : ℚ) < 2 ^ (d.log2 + 1) := by exact_mod_cast Nat.lt_log2_self
  have two : (2 : ℚ) ≠ 0 := by norm_num
  have e : (2 : ℚ) ^ ((n.log2 : Int) - d.log2) = 2 ^ n.log2 / 2 ^ d.log2 := by
    rw [zpow_sub₀ two, zpow_natCast, zpow_natCast]
  have hi : (n : ℚ) / d < 2 ^ ((n.log2 : Int) - d.log2 + 1) := by
    rw [zpow_add_one₀ two, e, div_mul_eq_mul_div, div_lt_div_iff₀ hd' (by positivity)]
    rw [pow_succ] at n2
    have : (0 : ℚ) < 2 ^ d.log2 := by positivity
    nlinarith
  have lo : (2 : ℚ) ^ ((n.log2 : Int) - d.log2 - 1) ≤ n / d := by
    rw [zpow_sub_one₀ two, e, ← div_eq_mul_inv, div_div, div_le_div_iff₀ (by positivity) hd']
    rw [pow_succ] at d2
    have : (0 : ℚ) < 2 ^ n.log2 := by positivity
    nlinarith
  unfold leadingExponent
  simp only
  split
  · rename_i h
    exact ⟨(powLe_iff _ n d hd).mp h, hi⟩
  · rename_i h
    rw [powLe_iff _ n d hd, not_le] at h
    exact ⟨lo, by simpa using h⟩

/-- A fraction in units of a power of two. -/
theorem roundToUnit_eq (n d : Nat) (e : Int) (hd : 0 < d) :
    ∃ a b : Nat, 0 < b ∧ roundToUnit n d e = roundHalfEven a b ∧ (a : ℚ) / b = n / d / 2 ^ e ∧
      ((0 ≤ e ∧ a = n ∧ b = d * 2 ^ e.toNat) ∨ (e < 0 ∧ a = n * 2 ^ (-e).toNat ∧ b = d)) := by
  have hd' : (d : ℚ) ≠ 0 := by exact_mod_cast hd.ne'
  unfold roundToUnit
  split
  · rename_i h
    refine ⟨_, _, by positivity, rfl, ?_, .inl ⟨h, rfl, rfl⟩⟩
    obtain ⟨m, rfl⟩ := Int.eq_ofNat_of_zero_le h
    simp [div_div]
  · rename_i h
    refine ⟨_, _, hd, rfl, ?_, .inr ⟨by omega, rfl, rfl⟩⟩
    obtain ⟨m, rfl⟩ : ∃ m : Nat, e = -(m : Int) := ⟨(-e).toNat, by omega⟩
    simp only [neg_neg, Int.toNat_natCast, Nat.cast_mul, Nat.cast_pow, Nat.cast_ofNat, zpow_neg, zpow_natCast, div_inv_eq_mul]
    ring

/-- The number that 63 magnitude bits denote. -/
def magnitudeValue (b : Nat) : ℚ :=
  ((if b / 2 ^ 52 = 0 then b % 2 ^ 52 else 2 ^ 52 + b % 2 ^ 52 : Nat) : ℚ) * 2 ^ (max ((b / 2 ^ 52 : Nat) : Int) 1 - 1075)

theorem magnitudeValue_nonneg (b : Nat) : 0 ≤ magnitudeValue b := by unfold magnitudeValue; positivity

theorem magnitudeValue_eq_zero (b : Nat) : magnitudeValue b = 0 ↔ b = 0 := by
  unfold magnitudeValue
  rw [mul_eq_zero, Nat.cast_eq_zero]
  constructor
  · rintro (h | h)
    · split at h <;> omega
    · exact absurd h (by positivity)
  · rintro rfl; exact .inl rfl

/-- A value is its magnitude's number under its sign. -/
theorem value_eq (a : F64) :
    value a = if sign a then -magnitudeValue (magnitude a) else magnitudeValue (magnitude a) := by
  have h : (if 0 ≤ lastPlace a then (significand a : ℚ) * (2 ^ (lastPlace a).toNat : ℕ)
      else (significand a : ℚ) / (2 ^ (-lastPlace a).toNat : ℕ)) = significand a * 2 ^ lastPlace a := by
    split
    · rename_i h
      obtain ⟨m, hm⟩ := Int.eq_ofNat_of_zero_le h
      simp [hm]
    · rename_i h
      obtain ⟨m, hm⟩ : ∃ m : Nat, lastPlace a = -(m : Int) := ⟨(-lastPlace a).toNat, by omega⟩
      simp [hm, div_eq_mul_inv]
  have hm : (significand a : ℚ) * 2 ^ lastPlace a = magnitudeValue (magnitude a) := by
    unfold magnitudeValue significand lastPlace exponentField fractionField
    by_cases hz : magnitude a / 2 ^ 52 = 0
    · rw [if_pos hz, if_pos hz, hz]
      rfl
    · have : max ((magnitude a / 2 ^ 52 : Nat) : Int) 1 = (magnitude a / 2 ^ 52 : Nat) := by omega
      simp only [hz, if_false, this]
  unfold value
  simp only [h, hm]

theorem sign_withSign (s : Bool) (b : Nat) (h : b < 2 ^ 63) : sign (withSign s b) = s := by
  unfold sign withSign
  rw [BitVec.msb_eq_decide]
  cases s <;> simp <;> omega

theorem magnitude_withSign (s : Bool) (b : Nat) (h : b < 2 ^ 63) : magnitude (withSign s b) = b := by
  unfold magnitude withSign
  cases s <;> simp <;> omega

/-- The bits of the last place of a number and of its leading bit. -/
theorem roundToUnit_bounds (n d : Nat) (hn : 0 < n) (hd : 0 < d) :
    -1074 ≤ unitExponent n d ∧ roundToUnit n d (unitExponent n d) ≤ 2 ^ 53 ∧
      (unitExponent n d = -1074 ∨
        2 ^ 52 ≤ roundToUnit n d (unitExponent n d) ∧ (2 : ℚ) ^ (unitExponent n d + 52) ≤ n / d) := by
  obtain ⟨lo, hi⟩ := leadingExponent_spec n d hn hd
  obtain ⟨a, b, hb, hr, hab, -⟩ := roundToUnit_eq n d (unitExponent n d) hd
  have hb' : (0 : ℚ) < b := by exact_mod_cast hb
  have pe : (0 : ℚ) < 2 ^ unitExponent n d := by positivity
  refine ⟨le_max_right _ _, ?_, ?_⟩
  · rw [hr, show (2 : Nat) ^ 53 = roundHalfEven (2 ^ 53 * 1) 1 by rw [roundHalfEven_mul _ _ (by norm_num)]]
    refine roundHalfEven_mono a b _ 1 hb (by norm_num) ?_
    have : (a : ℚ) / b ≤ 2 ^ 53 := by
      rw [hab, div_le_iff₀ pe]
      have h2 : (2 : ℚ) ^ (53 : Nat) * 2 ^ unitExponent n d = 2 ^ (53 + unitExponent n d) := by
        rw [zpow_add₀ (by norm_num)]; rfl
      rw [h2]
      refine hi.le.trans (zpow_le_zpow_right₀ (by norm_num) ?_)
      have : leadingExponent n d - 52 ≤ unitExponent n d := le_max_left _ _
      omega
    rw [div_le_iff₀ hb'] at this
    have : a ≤ 2 ^ 53 * b := by exact_mod_cast this
    omega
  · rcases le_or_gt (leadingExponent n d - 52) (-1074) with h | h
    · exact .inl (max_eq_right h)
    · have hu : unitExponent n d = leadingExponent n d - 52 := max_eq_left h.le
      have hle : (2 : ℚ) ^ (unitExponent n d + 52) ≤ n / d := by rw [hu]; simpa using lo
      refine .inr ⟨?_, hle⟩
      rw [hr, show (2 : Nat) ^ 52 = roundHalfEven (2 ^ 52 * 1) 1 by rw [roundHalfEven_mul _ _ (by norm_num)]]
      refine roundHalfEven_mono _ 1 a b (by norm_num) hb ?_
      have : (2 : ℚ) ^ 52 ≤ a / b := by
        rw [hab, le_div_iff₀ pe]
        have h2 : (2 : ℚ) ^ (52 : Nat) * 2 ^ unitExponent n d = 2 ^ (unitExponent n d + 52) := by
          rw [add_comm, zpow_add₀ (by norm_num)]; rfl
        rw [h2]; exact hle
      rw [le_div_iff₀ hb'] at this
      have : 2 ^ 52 * b ≤ a := by exact_mod_cast this
      omega

/-- The number that rounding `n / d` in its own last place gives. -/
def rounded (n d : Nat) : ℚ := roundToUnit n d (unitExponent n d) * 2 ^ unitExponent n d

/-- Magnitude bits put together from a last place and a rounded significand denote their product. -/
theorem magnitudeValue_bits (e : Int) (m : Nat) (he : -1074 ≤ e) (hm : m ≤ 2 ^ 53) (h : e = -1074 ∨ 2 ^ 52 ≤ m) :
    magnitudeValue ((e + 1074).toNat * 2 ^ 52 + m) = m * 2 ^ e := by
  obtain ⟨k, rfl⟩ : ∃ k : Nat, e = (k : Int) - 1074 := ⟨(e + 1074).toNat, by omega⟩
  have hk : ((k : Int) - 1074 + 1074).toNat = k := by omega
  rw [hk]
  have cases3 : m < 2 ^ 52 ∨ (2 ^ 52 ≤ m ∧ m < 2 ^ 53) ∨ m = 2 ^ 53 := by omega
  unfold magnitudeValue
  obtain h1 | ⟨h1, h2⟩ | rfl := cases3
  · have hk0 : k = 0 := by omega
    subst hk0
    have q : (0 * 2 ^ 52 + m) / 2 ^ 52 = 0 := by omega
    have r : (0 * 2 ^ 52 + m) % 2 ^ 52 = m := by omega
    rw [q, r]
    norm_num
  · have q : (k * 2 ^ 52 + m) / 2 ^ 52 = k + 1 := by omega
    have r : 2 ^ 52 + (k * 2 ^ 52 + m) % 2 ^ 52 = m := by omega
    rw [q, r, if_neg (by omega)]
    congr 2
    push_cast
    omega
  · have q : (k * 2 ^ 52 + 2 ^ 53) / 2 ^ 52 = k + 2 := by omega
    have r : 2 ^ 52 + (k * 2 ^ 52 + 2 ^ 53) % 2 ^ 52 = 2 ^ 52 := by omega
    rw [q, r, if_neg (by omega)]
    have e2 : max (((k + 2 : Nat)) : Int) 1 - 1075 = 1 + ((k : Int) - 1074) := by push_cast; omega
    rw [e2, zpow_add₀ (by norm_num)]
    push_cast
    ring

/-- The largest finite binary64 value. -/
def maxFinite : ℚ := (2 ^ 53 - 1) * 2 ^ (971 : Int)

theorem maxFinite_pos : 0 < maxFinite := by unfold maxFinite; norm_num

/-- Powers of two up to 2^1023 are below it. -/
theorem pow_le_maxFinite (k : Int) (hk : k ≤ 1023) : (2 : ℚ) ^ k ≤ maxFinite := by
  refine (zpow_le_zpow_right₀ (by norm_num) hk).trans ?_
  rw [maxFinite, show (1023 : Int) = 52 + 971 by norm_num, zpow_add₀ (by norm_num)]
  gcongr
  norm_num

/-- Up to the largest finite value nothing overflows: the magnitude bits are finite and denote the rounded number. -/
theorem magnitudeBits_spec (n d : Nat) (hn : 0 < n) (hd : 0 < d) (hx : (n : ℚ) / d ≤ maxFinite) :
    magnitudeBits n d < infinityBits ∧ magnitudeValue (magnitudeBits n d) = rounded n d := by
  obtain ⟨he, hm, ho⟩ := roundToUnit_bounds n d hn hd
  have hmax : maxFinite < 2 ^ (1024 : Int) := by
    rw [maxFinite, show (1024 : Int) = 53 + 971 by norm_num, zpow_add₀ (by norm_num)]
    gcongr
    norm_num
  have hu : unitExponent n d ≤ 971 := by
    obtain h | ⟨-, h⟩ := ho
    · omega
    · have := (zpow_lt_zpow_iff_right₀ (by norm_num : (1 : ℚ) < 2)).mp ((h.trans hx).trans_lt hmax)
      omega
  have hb : (unitExponent n d + 1074).toNat * 2 ^ 52 + roundToUnit n d (unitExponent n d) < infinityBits := by
    unfold infinityBits
    obtain hlt | heq := hu.lt_or_eq
    · have : (unitExponent n d + 1074).toNat ≤ 2044 := by omega
      omega
    · have hm' : roundToUnit n d (unitExponent n d) ≤ 2 ^ 53 - 1 := by
        obtain ⟨a, b, hb, hr, hab, -⟩ := roundToUnit_eq n d (unitExponent n d) hd
        rw [hr, show (2 : Nat) ^ 53 - 1 = roundHalfEven ((2 ^ 53 - 1) * 1) 1 by rw [roundHalfEven_mul _ _ (by norm_num)]]
        refine roundHalfEven_mono a b _ 1 hb (by norm_num) ?_
        have hle : (a : ℚ) / b ≤ 2 ^ 53 - 1 := by
          rw [hab, heq, div_le_iff₀ (by positivity)]
          exact hx
        rw [div_le_iff₀ (by exact_mod_cast hb)] at hle
        have : (a : ℚ) ≤ ((2 ^ 53 - 1 : Nat) : ℚ) * b := by norm_num at hle ⊢; exact hle
        have : a ≤ (2 ^ 53 - 1) * b := by exact_mod_cast this
        omega
      have : (unitExponent n d + 1074).toNat = 2045 := by omega
      omega
  have hmin : magnitudeBits n d =
      (unitExponent n d + 1074).toNat * 2 ^ 52 + roundToUnit n d (unitExponent n d) := by
    simp only [magnitudeBits, hn.ne', if_false]
    exact min_eq_left hb.le
  rw [hmin]
  exact ⟨hb, magnitudeValue_bits _ _ he hm (ho.imp id And.left)⟩

/-- Rounding is off by at most half a last place; below `2 ^ k` that is `2 ^ (k - 54)`. -/
theorem rounded_error (n d : Nat) (hn : 0 < n) (hd : 0 < d) (k : Int) (hk : -1021 ≤ k) (hx : (n : ℚ) / d < 2 ^ k) :
    |rounded n d - n / d| ≤ 2 ^ (k - 54) := by
  obtain ⟨he, hm, ho⟩ := roundToUnit_bounds n d hn hd
  have hu : unitExponent n d ≤ k - 53 := by
    obtain h | ⟨-, h⟩ := ho
    · omega
    · have := (zpow_lt_zpow_iff_right₀ (by norm_num : (1 : ℚ) < 2)).mp (h.trans_lt hx)
      omega
  obtain ⟨a, b, hb, hr, hab, -⟩ := roundToUnit_eq n d (unitExponent n d) hd
  have pe : (0 : ℚ) < 2 ^ unitExponent n d := by positivity
  have herr := roundHalfEven_error a b hb
  rw [hab, ← hr] at herr
  have hfac : rounded n d - n / d =
      (roundToUnit n d (unitExponent n d) - n / d / 2 ^ unitExponent n d) * 2 ^ unitExponent n d := by
    unfold rounded
    field_simp
  rw [hfac, abs_mul, abs_of_pos pe]
  calc _ ≤ 1 / 2 * (2 : ℚ) ^ unitExponent n d := by gcongr
    _ ≤ 1 / 2 * 2 ^ (k - 53) := by gcongr; norm_num
    _ = 2 ^ (k - 54) := by
      rw [show k - 53 = (k - 54) + 1 by ring, zpow_add_one₀ (by norm_num)]
      ring

/-- Rounding is monotone. -/
theorem rounded_mono (n d n' d' : Nat) (hn : 0 < n) (hd : 0 < d) (hn' : 0 < n') (hd' : 0 < d')
    (h : (n : ℚ) / d ≤ n' / d') : rounded n d ≤ rounded n' d' := by
  obtain ⟨he, hm, ho⟩ := roundToUnit_bounds n d hn hd
  obtain ⟨he', hm', ho'⟩ := roundToUnit_bounds n' d' hn' hd'
  have hu : unitExponent n d ≤ unitExponent n' d' := by
    have lo := (leadingExponent_spec n d hn hd).1
    have hi := (leadingExponent_spec n' d' hn' hd').2
    have := (zpow_lt_zpow_iff_right₀ (by norm_num : (1 : ℚ) < 2)).mp ((lo.trans h).trans_lt hi)
    unfold unitExponent
    omega
  unfold rounded
  obtain hlt | heq := hu.lt_or_eq
  · have h52 : 2 ^ 52 ≤ roundToUnit n' d' (unitExponent n' d') := by
      obtain h1 | h1 := ho'
      · omega
      · exact h1.1
    have c1 : (roundToUnit n d (unitExponent n d) : ℚ) ≤ 2 ^ 53 := by exact_mod_cast hm
    have c2 : (2 : ℚ) ^ 52 ≤ roundToUnit n' d' (unitExponent n' d') := by exact_mod_cast h52
    calc _ ≤ (2 : ℚ) ^ 53 * 2 ^ unitExponent n d := by gcongr
      _ = 2 ^ 52 * 2 ^ (unitExponent n d + 1) := by rw [zpow_add_one₀ (by norm_num)]; ring
      _ ≤ 2 ^ 52 * 2 ^ unitExponent n' d' := by gcongr; norm_num; omega
      _ ≤ _ := by gcongr
  · rw [← heq] at ho' hm' ⊢
    obtain ⟨a, b, hb, hr, hab, -⟩ := roundToUnit_eq n d (unitExponent n d) hd
    obtain ⟨a', b', hb', hr', hab', -⟩ := roundToUnit_eq n' d' (unitExponent n d) hd'
    have pe : (0 : ℚ) < 2 ^ unitExponent n d := by positivity
    have hle : (a : ℚ) / b ≤ a' / b' := by rw [hab, hab']; gcongr
    rw [div_le_div_iff₀ (by exact_mod_cast hb) (by exact_mod_cast hb')] at hle
    have := roundHalfEven_mono a b a' b' hb hb' (by exact_mod_cast hle)
    rw [hr, hr']
    gcongr

/-- A number of at most 53 significant bits, not below the last place of the least number, is not changed. -/
theorem rounded_exact (n d m : Nat) (e : Int) (hn : 0 < n) (hd : 0 < d) (he : -1074 ≤ e) (hm : m ≤ 2 ^ 53)
    (hx : (n : ℚ) / d = m * 2 ^ e) : rounded n d = n / d := by
  obtain ⟨he', hm', ho⟩ := roundToUnit_bounds n d hn hd
  obtain ⟨a, b, hb, hr, hab, -⟩ := roundToUnit_eq n d (unitExponent n d) hd
  have hb' : (b : ℚ) ≠ 0 := by exact_mod_cast hb.ne'
  have pe : (2 : ℚ) ^ unitExponent n d ≠ 0 := by positivity
  have whole : ∃ w : Nat, (n : ℚ) / d / 2 ^ unitExponent n d = w := by
    rcases le_or_gt (unitExponent n d) e with h | h
    · obtain ⟨j, hj⟩ := Int.eq_ofNat_of_zero_le (by omega : 0 ≤ e - unitExponent n d)
      refine ⟨m * 2 ^ j, ?_⟩
      have hs : e = unitExponent n d + (j : Int) := by omega
      rw [hx, hs, zpow_add₀ (by norm_num), zpow_natCast]
      push_cast
      field_simp
    · obtain h1 | ⟨-, h1⟩ := ho
      · omega
      · have hm1 : (m : ℚ) ≤ 2 ^ (53 : Int) := by exact_mod_cast hm
        have h2 : (2 : ℚ) ^ (unitExponent n d + 52) ≤ 2 ^ (53 + e) := by
          rw [hx] at h1
          refine h1.trans ?_
          rw [zpow_add₀ (by norm_num)]
          gcongr
        have h3 := (zpow_le_zpow_iff_right₀ (by norm_num : (1 : ℚ) < 2)).mp h2
        have h4 : unitExponent n d = e + 1 := by omega
        have h5 : (2 : ℚ) ^ (53 : Int) ≤ m := by
          rw [hx, h4, show e + 1 + 52 = 53 + e by ring, zpow_add₀ (by norm_num)] at h1
          exact le_of_mul_le_mul_right h1 (by positivity)
        refine ⟨2 ^ 52, ?_⟩
        rw [hx, h4, le_antisymm hm1 h5, zpow_add_one₀ (by norm_num)]
        have : (2 : ℚ) ^ e ≠ 0 := by positivity
        field_simp
        norm_num
  obtain ⟨w, hw⟩ := whole
  have hab' : a = w * b := by
    rw [hw, div_eq_iff hb'] at hab
    exact_mod_cast hab
  unfold rounded
  rw [hr, hab', roundHalfEven_mul _ _ hb, ← hw]
  field_simp

/-- The magnitude bits of a number's nearest value. -/
theorem magnitude_fl64 (x : ℚ) : magnitude (fl64 x) = magnitudeBits x.num.natAbs x.den := by
  refine magnitude_withSign _ _ ?_
  unfold magnitudeBits infinityBits
  simp only
  split
  · norm_num
  · exact lt_of_le_of_lt (min_le_right _ _) (by norm_num)

theorem sign_fl64 (x : ℚ) : sign (fl64 x) = decide (x < 0) := by
  refine sign_withSign _ _ ?_
  unfold magnitudeBits infinityBits
  simp only
  split
  · norm_num
  · exact lt_of_le_of_lt (min_le_right _ _) (by norm_num)

/-- A number's size as the fraction that `fl64` rounds. -/
theorem abs_eq_fraction (x : ℚ) : |x| = (x.num.natAbs : ℚ) / x.den := by
  conv_lhs => rw [← Rat.num_div_den x]
  rw [abs_div, Nat.abs_cast, Nat.cast_natAbs, Int.cast_abs]

/-- The size of a number's nearest value: the rounded size, and finite up to the largest value. -/
theorem magnitudeValue_fl64 (x : ℚ) (hx : |x| ≤ maxFinite) :
    magnitude (fl64 x) < infinityBits ∧
      magnitudeValue (magnitude (fl64 x)) = if x = 0 then 0 else rounded x.num.natAbs x.den := by
  rw [magnitude_fl64]
  by_cases h : x = 0
  · subst h
    simp [magnitudeBits, magnitudeValue, infinityBits]
  · have hn : 0 < x.num.natAbs := Int.natAbs_pos.mpr (Rat.num_ne_zero.mpr h)
    rw [abs_eq_fraction] at hx
    simpa [h] using magnitudeBits_spec _ _ hn x.den_pos hx

/-- Up to the largest finite value the nearest value is finite. -/
theorem isFinite_fl64 (x : ℚ) (hx : |x| ≤ maxFinite) : isFinite (fl64 x) = true := by
  simpa [isFinite] using (magnitudeValue_fl64 x hx).1

/-- The nearest value of a number is the rounded size under the number's sign. -/
theorem value_fl64 (x : ℚ) (hx : |x| ≤ maxFinite) :
    value (fl64 x) = if x = 0 then 0 else if x < 0 then -rounded x.num.natAbs x.den else rounded x.num.natAbs x.den := by
  rw [value_eq, sign_fl64, (magnitudeValue_fl64 x hx).2]
  by_cases h0 : x = 0
  · simp [h0]
  · by_cases hn : x < 0 <;> simp [h0, hn]

theorem value_fl64_zero : value (fl64 0) = 0 := by rw [value_fl64 0 (by simp [maxFinite_pos.le])]; simp

theorem value_fl64_neg (x : ℚ) (hx : |x| ≤ maxFinite) : value (fl64 (-x)) = -value (fl64 x) := by
  rw [value_fl64 x hx, value_fl64 (-x) (by rwa [abs_neg])]
  simp only [Rat.num_neg_eq_neg_num, Int.natAbs_neg, Rat.den_neg_eq_den, neg_eq_zero, neg_lt_zero]
  obtain h | rfl | h := lt_trichotomy x 0
  · simp [h, h.ne, not_lt.mpr h.le]
  · simp
  · simp [h, h.ne', not_lt.mpr h.le]

/-- Rounding to binary64 is off by at most `2 ^ (k - 54)` below `2 ^ k`. -/
theorem value_fl64_error (x : ℚ) (k : Int) (hk : -1021 ≤ k) (hk' : k ≤ 1023) (hx : |x| < 2 ^ k) :
    |value (fl64 x) - x| ≤ 2 ^ (k - 54) := by
  have hx' : |x| ≤ maxFinite := hx.le.trans (pow_le_maxFinite k hk')
  rw [value_fl64 x hx']
  by_cases h : x = 0
  · simp only [h, if_true, sub_zero, abs_zero]
    positivity
  · have hn : 0 < x.num.natAbs := Int.natAbs_pos.mpr (Rat.num_ne_zero.mpr h)
    have hf := abs_eq_fraction x
    have he := rounded_error _ _ hn x.den_pos k hk (by rwa [← hf])
    rw [← hf] at he
    rw [if_neg h]
    split
    · rename_i hneg
      rw [abs_of_neg hneg] at he
      rwa [← abs_neg, show -(-rounded x.num.natAbs x.den - x) = rounded x.num.natAbs x.den - -x by ring]
    · rename_i hneg
      rwa [abs_of_nonneg (not_lt.mp hneg)] at he

/-- A number of at most 53 significant bits is its own nearest value. -/
theorem value_fl64_exact (x : ℚ) (m : Int) (e : Int) (hx : |x| ≤ maxFinite) (he : -1074 ≤ e)
    (hm : m.natAbs ≤ 2 ^ 53) (h : x = m * 2 ^ e) : value (fl64 x) = x := by
  rw [value_fl64 x hx]
  by_cases h0 : x = 0
  · simp [h0]
  · have hn : 0 < x.num.natAbs := Int.natAbs_pos.mpr (Rat.num_ne_zero.mpr h0)
    have hf := abs_eq_fraction x
    have hr := rounded_exact _ _ m.natAbs e hn x.den_pos he hm (by
      rw [← hf, h, abs_mul, abs_of_pos (by positivity : (0 : ℚ) < 2 ^ e), Nat.cast_natAbs, Int.cast_abs])
    rw [if_neg h0, hr, ← hf]
    split
    · rename_i hneg; rw [abs_of_neg hneg, neg_neg]
    · rename_i hneg; exact abs_of_nonneg (not_lt.mp hneg)

theorem rounded_nonneg (n d : Nat) : 0 ≤ rounded n d := by unfold rounded; positivity

/-- Rounding to binary64 is monotone. -/
theorem value_fl64_mono (x y : ℚ) (hx : |x| ≤ maxFinite) (hy : |y| ≤ maxFinite) (h : x ≤ y) :
    value (fl64 x) ≤ value (fl64 y) := by
  have pos : ∀ x y : ℚ, |x| ≤ maxFinite → |y| ≤ maxFinite → 0 ≤ x → x ≤ y →
      value (fl64 x) ≤ value (fl64 y) := by
    intro x y hx hy h0 h
    rw [value_fl64 x hx, value_fl64 y hy]
    obtain rfl | h0' := h0.eq_or_lt
    · simp only [if_true]
      split
      · exact le_refl _
      · rw [if_neg (not_lt.mpr h)]; exact rounded_nonneg _ _
    · have hy0 := h0'.trans_le h
      have hf := abs_eq_fraction x
      have hf' := abs_eq_fraction y
      rw [abs_of_pos h0'] at hf
      rw [abs_of_pos hy0] at hf'
      simp only [h0'.ne', hy0.ne', not_lt.mpr h0, not_lt.mpr hy0.le, if_false]
      exact rounded_mono _ _ _ _ (Int.natAbs_pos.mpr (Rat.num_ne_zero.mpr h0'.ne')) x.den_pos
        (Int.natAbs_pos.mpr (Rat.num_ne_zero.mpr hy0.ne')) y.den_pos (by rwa [← hf, ← hf'])
  have z := value_fl64_zero
  rcases le_or_gt 0 x with h0 | h0
  · exact pos x y hx hy h0 h
  · rcases le_or_gt 0 y with h1 | h1
    · have a := pos 0 (-x) (by simp [maxFinite_pos.le]) (by rwa [abs_neg]) le_rfl (by linarith)
      have b := pos 0 y (by simp [maxFinite_pos.le]) hy le_rfl h1
      rw [value_fl64_neg x hx] at a
      linarith
    · have a := pos (-y) (-x) (by rwa [abs_neg]) (by rwa [abs_neg]) (by linarith) (by linarith)
      rw [value_fl64_neg x hx, value_fl64_neg y hy] at a
      linarith

/-- Rounding does not leave a range whose bounds are powers of two. -/
theorem abs_value_fl64_le (x : ℚ) (k : Int) (hk : -1021 ≤ k) (hk' : k ≤ 1023) (hx : |x| ≤ 2 ^ k) :
    |value (fl64 x)| ≤ 2 ^ k := by
  have p : (2 : ℚ) ^ k ≤ maxFinite := pow_le_maxFinite k hk'
  have pk : (0 : ℚ) < 2 ^ k := by positivity
  have hp : |(2 : ℚ) ^ k| ≤ maxFinite := by rwa [abs_of_pos pk]
  have ex : value (fl64 (2 ^ k)) = 2 ^ k := value_fl64_exact _ 1 k hp (by omega) (by norm_num) (by simp)
  have hxx := hx.trans p
  obtain ⟨lo, hi⟩ := abs_le.mp hx
  rw [abs_le]
  constructor
  · have := value_fl64_mono (-2 ^ k) x (by rwa [abs_neg]) hxx lo
    rwa [value_fl64_neg _ hp, ex] at this
  · have := value_fl64_mono x (2 ^ k) hxx hp hi
    rwa [ex] at this

/-- A zero is what has the value zero. -/
theorem value_eq_zero (a : F64) : value a = 0 ↔ isZero a = true := by
  rw [value_eq, isZero, decide_eq_true_eq, ← magnitudeValue_eq_zero]
  split <;> simp

/-- A finite value is a whole number of at most 53 bits in units of a power of two. -/
theorem value_eq_significand (a : F64) (ha : isFinite a = true) :
    ∃ (m : Int) (e : Int), value a = m * 2 ^ e ∧ m.natAbs ≤ 2 ^ 53 - 1 ∧ -1074 ≤ e ∧ e ≤ 971 := by
  have ha : magnitude a < infinityBits := by simpa [isFinite] using ha
  unfold infinityBits at ha
  have key : ∃ (m : Nat) (e : Int), magnitudeValue (magnitude a) = m * 2 ^ e ∧ m ≤ 2 ^ 53 - 1 ∧ -1074 ≤ e ∧ e ≤ 971 := by
    refine ⟨_, _, rfl, ?_, ?_, ?_⟩
    · split <;> omega
    · omega
    · omega
  obtain ⟨m, e, h, hm, h1, h2⟩ := key
  rw [value_eq, h]
  cases sign a
  · exact ⟨m, e, by simp, by simpa using hm, h1, h2⟩
  · exact ⟨-m, e, by simp, by simpa using hm, h1, h2⟩

/-- No finite value is larger than the largest. -/
theorem abs_value_le_maxFinite (a : F64) (ha : isFinite a = true) : |value a| ≤ maxFinite := by
  obtain ⟨m, e, h, hm, -, he⟩ := value_eq_significand a ha
  have hm' : |(m : ℚ)| ≤ 2 ^ 53 - 1 := by
    rw [← Int.cast_abs, ← Nat.cast_natAbs]
    calc ((m.natAbs : Nat) : ℚ) ≤ ((2 ^ 53 - 1 : Nat) : ℚ) := by exact_mod_cast hm
      _ = _ := by push_cast; norm_num
  rw [h, abs_mul, abs_of_pos (by positivity : (0 : ℚ) < 2 ^ e)]
  exact mul_le_mul hm' (zpow_le_zpow_right₀ (by norm_num) he) (by positivity) (by norm_num)

/-- Rounding does not change a value. -/
theorem value_fl64_value (a : F64) (ha : isFinite a = true) : value (fl64 (value a)) = value a := by
  obtain ⟨m, e, h, hm, he, -⟩ := value_eq_significand a ha
  exact value_fl64_exact _ m e (abs_value_le_maxFinite a ha) he (by omega) h

/-- A finite value is no NaN and not infinite. -/
theorem finite_cases (a : F64) (ha : isFinite a = true) : isNaN a = false ∧ isInfinite a = false := by
  simp only [isFinite, isNaN, isInfinite, decide_eq_true_eq, decide_eq_false_iff_not] at ha ⊢
  omega

/-- A product of finite values is the exact product, rounded once. -/
theorem mul_finite (a b : F64) (ha : isFinite a = true) (hb : isFinite b = true) :
    mul a b = fl64 (value a * value b) := by
  obtain ⟨n1, i1⟩ := finite_cases a ha
  obtain ⟨n2, i2⟩ := finite_cases b hb
  simp [mul, n1, n2, i1, i2]

/-- A quotient of finite values is the exact quotient, rounded once, where the divisor is not zero. -/
theorem div_finite (a b : F64) (ha : isFinite a = true) (hb : isFinite b = true) (h : value b ≠ 0) :
    div a b = fl64 (value a / value b) := by
  obtain ⟨n1, i1⟩ := finite_cases a ha
  obtain ⟨n2, i2⟩ := finite_cases b hb
  have hz : isZero b = false := by
    rw [Bool.eq_false_iff]
    exact fun hz => h ((value_eq_zero b).mpr hz)
  simp [div, n1, n2, i1, i2, hz]

/-- A sum of finite values is the exact sum, rounded once. -/
theorem add_finite (a b : F64) (ha : isFinite a = true) (hb : isFinite b = true) :
    add a b = fl64 (value a + value b) := by
  obtain ⟨n1, i1⟩ := finite_cases a ha
  obtain ⟨n2, i2⟩ := finite_cases b hb
  simp [add, n1, n2, i1, i2]

end Sys2Proof.Machine.Binary64
end

