-- ==== Sys2Proof/Laws/State.lean ====
section
/-! SUPPORT. What each shared operation leaves in each field of State: one lemma a field and operation, true by
rfl, so that no proof unfolds a record update. -/

namespace Sys2Proof.Machine

/-- Results, progress and records are events of the trace. -/
@[simp] theorem State.report_eq_log (s : State) (r : OpResult) : s.report r = s.log (.result r) := rfl
@[simp] theorem State.progress_eq_log (s : State) (n : Nat) : s.progress n = s.log (.progress n) := rfl
@[simp] theorem State.emit_eq_log (s : State) (r : SampleRecord) : s.emit r = s.log (.emit r) := rfl

/-! `log` adds one event. -/

@[simp] theorem State.log_devState (s : State) (e : Event) : (s.log e).devState = s.devState := rfl
@[simp] theorem State.log_profile (s : State) (e : Event) : (s.log e).profile = s.profile := rfl
@[simp] theorem State.log_profileWritten (s : State) (e : Event) : (s.log e).profileWritten = s.profileWritten := rfl
@[simp] theorem State.log_phase (s : State) (e : Event) : (s.log e).phase = s.phase := rfl
@[simp] theorem State.log_wait (s : State) (e : Event) : (s.log e).wait = s.wait := rfl
@[simp] theorem State.log_rb (s : State) (e : Event) : (s.log e).rb = s.rb := rfl
@[simp] theorem State.log_u24 (s : State) (e : Event) : (s.log e).u24 = s.u24 := rfl
@[simp] theorem State.log_raw (s : State) (e : Event) : (s.log e).raw = s.raw := rfl
@[simp] theorem State.log_q (s : State) (e : Event) : (s.log e).q = s.q := rfl
@[simp] theorem State.log_p (s : State) (e : Event) : (s.log e).p = s.p := rfl
@[simp] theorem State.log_v (s : State) (e : Event) : (s.log e).v = s.v := rfl
@[simp] theorem State.log_params (s : State) (e : Event) : (s.log e).params = s.params := rfl
@[simp] theorem State.log_trace (s : State) (e : Event) : (s.log e).trace = s.trace ++ [e] := rfl
@[simp] theorem State.log_program (s : State) (e : Event) : (s.log e).program = s.program := rfl
@[simp] theorem State.log_env (s : State) (e : Event) : (s.log e).env = s.env := rfl

/-! `sleep` adds its event and raises the clock's floor. -/

@[simp] theorem State.sleep_devState (s : State) (d : ℚ) : (s.sleep d).devState = s.devState := rfl
@[simp] theorem State.sleep_profile (s : State) (d : ℚ) : (s.sleep d).profile = s.profile := rfl
@[simp] theorem State.sleep_profileWritten (s : State) (d : ℚ) : (s.sleep d).profileWritten = s.profileWritten := rfl
@[simp] theorem State.sleep_phase (s : State) (d : ℚ) : (s.sleep d).phase = s.phase := rfl
@[simp] theorem State.sleep_wait (s : State) (d : ℚ) : (s.sleep d).wait = s.wait := rfl
@[simp] theorem State.sleep_rb (s : State) (d : ℚ) : (s.sleep d).rb = s.rb := rfl
@[simp] theorem State.sleep_u24 (s : State) (d : ℚ) : (s.sleep d).u24 = s.u24 := rfl
@[simp] theorem State.sleep_raw (s : State) (d : ℚ) : (s.sleep d).raw = s.raw := rfl
@[simp] theorem State.sleep_q (s : State) (d : ℚ) : (s.sleep d).q = s.q := rfl
@[simp] theorem State.sleep_p (s : State) (d : ℚ) : (s.sleep d).p = s.p := rfl
@[simp] theorem State.sleep_v (s : State) (d : ℚ) : (s.sleep d).v = s.v := rfl
@[simp] theorem State.sleep_params (s : State) (d : ℚ) : (s.sleep d).params = s.params := rfl
@[simp] theorem State.sleep_trace (s : State) (d : ℚ) : (s.sleep d).trace = s.trace ++ [.sleep d] := rfl
@[simp] theorem State.sleep_program (s : State) (d : ℚ) : (s.sleep d).program = s.program := rfl
@[simp] theorem State.sleep_env (s : State) (d : ℚ) : (s.sleep d).env = { s.env with clockFloor := s.env.clockFloor + d } := rfl

/-! `discard` clears the transient bookkeeping. -/

@[simp] theorem State.discard_devState (s : State) : (s.discard).devState = s.devState := rfl
@[simp] theorem State.discard_profile (s : State) : (s.discard).profile = s.profile := rfl
@[simp] theorem State.discard_profileWritten (s : State) : (s.discard).profileWritten = s.profileWritten := rfl
@[simp] theorem State.discard_phase (s : State) : (s.discard).phase = s.phase := rfl
@[simp] theorem State.discard_wait (s : State) : (s.discard).wait = .cleared := rfl
@[simp] theorem State.discard_rb (s : State) : (s.discard).rb = .cleared := rfl
@[simp] theorem State.discard_u24 (s : State) : (s.discard).u24 = 0 := rfl
@[simp] theorem State.discard_raw (s : State) : (s.discard).raw = 0 := rfl
@[simp] theorem State.discard_q (s : State) : (s.discard).q = .cleared := rfl
@[simp] theorem State.discard_p (s : State) : (s.discard).p = .cleared := rfl
@[simp] theorem State.discard_v (s : State) : (s.discard).v = .cleared := rfl
@[simp] theorem State.discard_params (s : State) : (s.discard).params = s.params := rfl
@[simp] theorem State.discard_trace (s : State) : (s.discard).trace = s.trace := rfl
@[simp] theorem State.discard_program (s : State) : (s.discard).program = s.program := rfl
@[simp] theorem State.discard_env (s : State) : (s.discard).env = s.env := rfl

/-! `finish` also goes to IDLE and adds the result. -/

@[simp] theorem State.finish_devState (s : State) (r : OpResult) : (s.finish r).devState = s.devState := rfl
@[simp] theorem State.finish_profile (s : State) (r : OpResult) : (s.finish r).profile = s.profile := rfl
@[simp] theorem State.finish_profileWritten (s : State) (r : OpResult) : (s.finish r).profileWritten = s.profileWritten := rfl
@[simp] theorem State.finish_phase (s : State) (r : OpResult) : (s.finish r).phase = .idle := rfl
@[simp] theorem State.finish_wait (s : State) (r : OpResult) : (s.finish r).wait = .cleared := rfl
@[simp] theorem State.finish_rb (s : State) (r : OpResult) : (s.finish r).rb = .cleared := rfl
@[simp] theorem State.finish_u24 (s : State) (r : OpResult) : (s.finish r).u24 = 0 := rfl
@[simp] theorem State.finish_raw (s : State) (r : OpResult) : (s.finish r).raw = 0 := rfl
@[simp] theorem State.finish_q (s : State) (r : OpResult) : (s.finish r).q = .cleared := rfl
@[simp] theorem State.finish_p (s : State) (r : OpResult) : (s.finish r).p = .cleared := rfl
@[simp] theorem State.finish_v (s : State) (r : OpResult) : (s.finish r).v = .cleared := rfl
@[simp] theorem State.finish_params (s : State) (r : OpResult) : (s.finish r).params = s.params := rfl
@[simp] theorem State.finish_trace (s : State) (r : OpResult) : (s.finish r).trace = s.trace ++ [.result r] := rfl
@[simp] theorem State.finish_program (s : State) (r : OpResult) : (s.finish r).program = s.program := rfl
@[simp] theorem State.finish_env (s : State) (r : OpResult) : (s.finish r).env = s.env := rfl

/-! `raise` also writes DeviceState. -/

@[simp] theorem State.raise_devState (s : State) (d : DeviceState) (e : Err) : (s.raise d e).devState = d := rfl
@[simp] theorem State.raise_profile (s : State) (d : DeviceState) (e : Err) : (s.raise d e).profile = s.profile := rfl
@[simp] theorem State.raise_profileWritten (s : State) (d : DeviceState) (e : Err) : (s.raise d e).profileWritten = s.profileWritten := rfl
@[simp] theorem State.raise_phase (s : State) (d : DeviceState) (e : Err) : (s.raise d e).phase = .idle := rfl
@[simp] theorem State.raise_wait (s : State) (d : DeviceState) (e : Err) : (s.raise d e).wait = .cleared := rfl
@[simp] theorem State.raise_rb (s : State) (d : DeviceState) (e : Err) : (s.raise d e).rb = .cleared := rfl
@[simp] theorem State.raise_u24 (s : State) (d : DeviceState) (e : Err) : (s.raise d e).u24 = 0 := rfl
@[simp] theorem State.raise_raw (s : State) (d : DeviceState) (e : Err) : (s.raise d e).raw = 0 := rfl
@[simp] theorem State.raise_q (s : State) (d : DeviceState) (e : Err) : (s.raise d e).q = .cleared := rfl
@[simp] theorem State.raise_p (s : State) (d : DeviceState) (e : Err) : (s.raise d e).p = .cleared := rfl
@[simp] theorem State.raise_v (s : State) (d : DeviceState) (e : Err) : (s.raise d e).v = .cleared := rfl
@[simp] theorem State.raise_params (s : State) (d : DeviceState) (e : Err) : (s.raise d e).params = s.params := rfl
@[simp] theorem State.raise_trace (s : State) (d : DeviceState) (e : Err) : (s.raise d e).trace = s.trace ++ [.result (.err e)] := rfl
@[simp] theorem State.raise_program (s : State) (d : DeviceState) (e : Err) : (s.raise d e).program = s.program := rfl
@[simp] theorem State.raise_env (s : State) (d : DeviceState) (e : Err) : (s.raise d e).env = s.env := rfl

/-! `complete` also writes DeviceState. -/

@[simp] theorem State.complete_devState (s : State) (d : DeviceState) (x : OkValue) : (s.complete d x).devState = d := rfl
@[simp] theorem State.complete_profile (s : State) (d : DeviceState) (x : OkValue) : (s.complete d x).profile = s.profile := rfl
@[simp] theorem State.complete_profileWritten (s : State) (d : DeviceState) (x : OkValue) : (s.complete d x).profileWritten = s.profileWritten := rfl
@[simp] theorem State.complete_phase (s : State) (d : DeviceState) (x : OkValue) : (s.complete d x).phase = .idle := rfl
@[simp] theorem State.complete_wait (s : State) (d : DeviceState) (x : OkValue) : (s.complete d x).wait = .cleared := rfl
@[simp] theorem State.complete_rb (s : State) (d : DeviceState) (x : OkValue) : (s.complete d x).rb = .cleared := rfl
@[simp] theorem State.complete_u24 (s : State) (d : DeviceState) (x : OkValue) : (s.complete d x).u24 = 0 := rfl
@[simp] theorem State.complete_raw (s : State) (d : DeviceState) (x : OkValue) : (s.complete d x).raw = 0 := rfl
@[simp] theorem State.complete_q (s : State) (d : DeviceState) (x : OkValue) : (s.complete d x).q = .cleared := rfl
@[simp] theorem State.complete_p (s : State) (d : DeviceState) (x : OkValue) : (s.complete d x).p = .cleared := rfl
@[simp] theorem State.complete_v (s : State) (d : DeviceState) (x : OkValue) : (s.complete d x).v = .cleared := rfl
@[simp] theorem State.complete_params (s : State) (d : DeviceState) (x : OkValue) : (s.complete d x).params = s.params := rfl
@[simp] theorem State.complete_trace (s : State) (d : DeviceState) (x : OkValue) : (s.complete d x).trace = s.trace ++ [.result (.ok x)] := rfl
@[simp] theorem State.complete_program (s : State) (d : DeviceState) (x : OkValue) : (s.complete d x).program = s.program := rfl
@[simp] theorem State.complete_env (s : State) (d : DeviceState) (x : OkValue) : (s.complete d x).env = s.env := rfl

/-! `readLevel` draws a level. -/

@[simp] theorem State.readLevel_devState (s : State) : (s.readLevel.1).devState = s.devState := rfl
@[simp] theorem State.readLevel_profile (s : State) : (s.readLevel.1).profile = s.profile := rfl
@[simp] theorem State.readLevel_profileWritten (s : State) : (s.readLevel.1).profileWritten = s.profileWritten := rfl
@[simp] theorem State.readLevel_phase (s : State) : (s.readLevel.1).phase = s.phase := rfl
@[simp] theorem State.readLevel_wait (s : State) : (s.readLevel.1).wait = s.wait := rfl
@[simp] theorem State.readLevel_rb (s : State) : (s.readLevel.1).rb = s.rb := rfl
@[simp] theorem State.readLevel_u24 (s : State) : (s.readLevel.1).u24 = s.u24 := rfl
@[simp] theorem State.readLevel_raw (s : State) : (s.readLevel.1).raw = s.raw := rfl
@[simp] theorem State.readLevel_q (s : State) : (s.readLevel.1).q = s.q := rfl
@[simp] theorem State.readLevel_p (s : State) : (s.readLevel.1).p = s.p := rfl
@[simp] theorem State.readLevel_v (s : State) : (s.readLevel.1).v = s.v := rfl
@[simp] theorem State.readLevel_params (s : State) : (s.readLevel.1).params = s.params := rfl
@[simp] theorem State.readLevel_trace (s : State) : (s.readLevel.1).trace = s.trace ++ [.level s.env.drawLevel.1] := rfl
@[simp] theorem State.readLevel_program (s : State) : (s.readLevel.1).program = s.program := rfl
@[simp] theorem State.readLevel_env (s : State) : (s.readLevel.1).env = s.env.drawLevel.2 := rfl

/-! `now` reads the clock. -/

@[simp] theorem State.now_devState (s : State) : (s.now.1).devState = s.devState := rfl
@[simp] theorem State.now_profile (s : State) : (s.now.1).profile = s.profile := rfl
@[simp] theorem State.now_profileWritten (s : State) : (s.now.1).profileWritten = s.profileWritten := rfl
@[simp] theorem State.now_phase (s : State) : (s.now.1).phase = s.phase := rfl
@[simp] theorem State.now_wait (s : State) : (s.now.1).wait = s.wait := rfl
@[simp] theorem State.now_rb (s : State) : (s.now.1).rb = s.rb := rfl
@[simp] theorem State.now_u24 (s : State) : (s.now.1).u24 = s.u24 := rfl
@[simp] theorem State.now_raw (s : State) : (s.now.1).raw = s.raw := rfl
@[simp] theorem State.now_q (s : State) : (s.now.1).q = s.q := rfl
@[simp] theorem State.now_p (s : State) : (s.now.1).p = s.p := rfl
@[simp] theorem State.now_v (s : State) : (s.now.1).v = s.v := rfl
@[simp] theorem State.now_params (s : State) : (s.now.1).params = s.params := rfl
@[simp] theorem State.now_trace (s : State) : (s.now.1).trace = s.trace ++ [.clock s.env.drawClock.1] := rfl
@[simp] theorem State.now_program (s : State) : (s.now.1).program = s.program := rfl
@[simp] theorem State.now_env (s : State) : (s.now.1).env = s.env.drawClock.2 := rfl

/-- The values the two reading primitives return. -/
@[simp] theorem State.readLevel_value (s : State) : s.readLevel.2 = s.env.drawLevel.1 := rfl
@[simp] theorem State.now_value (s : State) : s.now.2 = s.env.drawClock.1 := rfl

/-- Discarding twice is discarding once. -/
@[simp] theorem State.discard_discard (s : State) : s.discard.discard = s.discard := rfl

/-- After the end of an operation there is nothing left to discard. -/
@[simp] theorem State.finish_discard (s : State) (r : OpResult) : (s.finish r).discard = s.finish r := rfl
@[simp] theorem State.raise_discard (s : State) (d : DeviceState) (e : Err) : (s.raise d e).discard = s.raise d e := rfl
@[simp] theorem State.complete_discard (s : State) (d : DeviceState) (x : OkValue) :
    (s.complete d x).discard = s.complete d x := rfl

/-- Reading one byte of four after writing one. -/
theorem Quad.get_set (x : Quad) (i j : Fin 4) (b : Byte) :
    (x.set i b).get j = if j = i then b else x.get j := by
  fin_cases i <;> fin_cases j <;> rfl

/-- Two Quads with equal bytes are equal. -/
theorem Quad.ext_get (x y : Quad) (h : ∀ i, x.get i = y.get i) : x = y := by
  have h0 := h 0
  have h1 := h 1
  have h2 := h 2
  have h3 := h 3
  cases x
  cases y
  simp only [Quad.get] at h0 h1 h2 h3
  simp [h0, h1, h2, h3]

end Sys2Proof.Machine
end

