-- ==== Sys2Proof/Laws/Ops.lean ====
section
/-! SUPPORT. One lemma for each shared operation that says what it can do: the environment's draws, transfers,
sending in a phase, encoder calls, the end of an operation. -/

namespace Sys2Proof.Machine

/-- A level is low or high. -/
theorem level_low_or_high (l : Level) : l = .low ∨ l = .high := by cases l <;> simp

/-- A bus draw takes the next listed answer. -/
theorem Env.drawBus_cons (v : Env) (a : BusAnswer) (rest : List BusAnswer) (h : v.bus = a :: rest) :
    v.drawBus = (a, { v with bus := rest, draws := v.draws + 1 }) := by
  simp [Env.drawBus, h]

/-- A bus draw changes only the bus list and the count of draws. -/
@[simp] theorem Env.drawBus_line (v : Env) : v.drawBus.2.line = v.line := by
  unfold Env.drawBus; split <;> rfl
@[simp] theorem Env.drawBus_clock (v : Env) : v.drawBus.2.clock = v.clock := by
  unfold Env.drawBus; split <;> rfl
@[simp] theorem Env.drawBus_clockFloor (v : Env) : v.drawBus.2.clockFloor = v.clockFloor := by
  unfold Env.drawBus; split <;> rfl

/-- A level draw takes the next listed level. -/
theorem Env.drawLevel_cons (v : Env) (l : Level) (rest : List Level) (h : v.line = l :: rest) :
    v.drawLevel = (l, { v with line := rest, draws := v.draws + 1 }) := by
  simp [Env.drawLevel, h]

/-- A level draw changes only the line's list and the count of draws. -/
@[simp] theorem Env.drawLevel_bus (v : Env) : v.drawLevel.2.bus = v.bus := by
  unfold Env.drawLevel; split <;> rfl
@[simp] theorem Env.drawLevel_clock (v : Env) : v.drawLevel.2.clock = v.clock := by
  unfold Env.drawLevel; split <;> rfl
@[simp] theorem Env.drawLevel_clockFloor (v : Env) : v.drawLevel.2.clockFloor = v.clockFloor := by
  unfold Env.drawLevel; split <;> rfl

/-- A clock draw changes only the clock's list, its floor and the count of draws. -/
@[simp] theorem Env.drawClock_bus (v : Env) : v.drawClock.2.bus = v.bus := by
  simp only [Env.drawClock, Env.drawReading]; split <;> rfl
@[simp] theorem Env.drawClock_line (v : Env) : v.drawClock.2.line = v.line := by
  simp only [Env.drawClock, Env.drawReading]; split <;> rfl

/-- The floor becomes the reading (60_exceptions R251). -/
@[simp] theorem Env.drawClock_clockFloor (v : Env) : v.drawClock.2.clockFloor = v.drawClock.1 := rfl

/-- No reading is below the floor (60_exceptions R251). -/
theorem Env.clockFloor_le_drawClock (v : Env) : v.clockFloor ≤ v.drawClock.1 := le_max_right _ _

/-- A clock draw takes the next listed reading, lifted to the floor. -/
theorem Env.drawClock_cons (v : Env) (t : ℚ) (rest : List ℚ) (h : v.clock = t :: rest) :
    v.drawClock = (max t v.clockFloor,
      { v with clock := rest, draws := v.draws + 1, clockFloor := max t v.clockFloor }) := by
  simp [Env.drawClock, Env.drawReading, h]

/-- A transfer is the bus's answer and one event (20_memory R55). -/
theorem State.transfer_eq (s : State) (out : Frame) :
    s.transfer out =
      match s.busAnswer out with
      | .response bytes => (s.afterTransfer out bytes, some bytes)
      | .failure => ({ s with env := s.env.drawBus.2, trace := s.trace ++ [.xferFail out] }, none) := by
  simp only [State.transfer, State.busAnswer]
  split
  · rename_i h
    simp [h, State.afterTransfer, State.log]
  · rename_i h
    simp [h, State.log]

/-- A transfer either completes with a response of the frame's length or is a bus error, never both. -/
theorem State.responds_or_busError (s : State) (out : Frame) :
    (∃ response, s.responds out response ∧ s.busErrorEvent out = none) ∨
      ∃ e, s.busErrorEvent out = some e ∧ ∀ response, ¬ s.responds out response := by
  unfold State.responds State.busErrorEvent
  cases h : s.busAnswer out with
  | failure => exact .inr ⟨_, rfl, by simp⟩
  | response bytes =>
    by_cases hl : bytes.length = out.length
    · exact .inl ⟨bytes, ⟨rfl, hl⟩, by simp [hl]⟩
    · refine .inr ⟨_, by simp [hl]; rfl, ?_⟩
      rintro response ⟨h1, h2⟩
      cases h1
      exact hl h2

/-- Sending where the transfer completes (40_commands R105). -/
theorem State.send_responds (s : State) (out response : Frame) (h : s.responds out response) :
    s.send out = (s.afterTransfer out response, some response) := by
  simp [State.send, State.transfer_eq, h.1, h.2]

/-- Sending where the transfer is a bus error (40_commands R105). -/
theorem State.send_busError (s : State) (out : Frame) (e : Event) (h : s.busErrorEvent out = some e) :
    s.send out = ({ s with env := s.env.drawBus.2, trace := s.trace ++ [e] }, none) := by
  unfold State.busErrorEvent at h
  simp only [State.send, State.transfer_eq]
  cases hb : s.busAnswer out with
  | failure =>
    simp only [hb, Option.some.injEq] at h
    subst h
    rfl
  | response bytes =>
    simp only [hb] at h
    split at h
    · cases h
    · rename_i hl
      cases h
      simp [hl, State.afterTransfer]

/-- A command sent in its phase goes on with the response. -/
theorem State.sendThen_responds (s : State) (i : Instr) (k : State → Frame → State) (response : Frame)
    (h : s.responds (encode i) response) :
    s.sendThen i k = k (s.afterTransfer (encode i) response) response := by
  simp [State.sendThen, s.send_responds _ _ h]

/-- A command sent in its phase ends in BusError (60_exceptions R236). -/
theorem State.sendThen_busError (s : State) (i : Instr) (k : State → Frame → State) (e : Event)
    (h : s.busErrorEvent (encode i) = some e) :
    s.sendThen i k = ({ s with env := s.env.drawBus.2, trace := s.trace ++ [e] } : State).raise .faulted
      (.busError s.phase s.phase.register (encode i)) := by
  simp [State.sendThen, s.send_busError _ _ h]

/-- Everything sending in a phase can do: it goes on with a response of the frame's length, or it raises
BusError after one event. -/
theorem State.sendThen_cases (s : State) (i : Instr) (k : State → Frame → State) :
    (∃ response, s.responds (encode i) response ∧
        s.sendThen i k = k (s.afterTransfer (encode i) response) response) ∨
      ∃ e, s.busErrorEvent (encode i) = some e ∧
        s.sendThen i k = ({ s with env := s.env.drawBus.2, trace := s.trace ++ [e] } : State).raise .faulted
          (.busError s.phase s.phase.register (encode i)) := by
  obtain ⟨response, h, -⟩ | ⟨e, h, -⟩ := s.responds_or_busError (encode i)
  · exact .inl ⟨response, h, s.sendThen_responds i k response h⟩
  · exact .inr ⟨e, h, s.sendThen_busError i k e h⟩

/-- The event of a bus error is a transfer of the frame. -/
theorem State.busErrorEvent_cases (s : State) (out : Frame) (e : Event) (h : s.busErrorEvent out = some e) :
    e = .xferFail out ∨ ∃ bytes, bytes.length ≠ out.length ∧ e = .xfer out bytes := by
  unfold State.busErrorEvent at h
  split at h
  · exact .inl (by simpa using h.symm)
  · rename_i bytes _
    split at h
    · cases h
    · rename_i hl
      exact .inr ⟨bytes, hl, by simpa using h.symm⟩

/-- Everything an encoder call can do: one result more in the trace, nothing else (40_commands R103). -/
theorem State.codecCall_cases (s : State) (i : Instr) :
    ∃ r : OpResult, s.codecCall i = { s with trace := s.trace ++ [.result r] } := by
  unfold State.codecCall
  cases operandError i with
  | none => exact ⟨_, rfl⟩
  | some e => exact ⟨_, rfl⟩

/-- The encoder call of a well-formed command returns its frame. -/
theorem State.codecCall_wellFormed (s : State) (i : Instr) (h : i.wellFormed = true) :
    s.codecCall i = { s with trace := s.trace ++ [.result (.ok (.frame (encode i)))] } := by
  have hn : operandError i = none := by
    cases i <;> simp_all [Instr.wellFormed, operandError, checkRegister, checkValue]
  simp [State.codecCall, hn, State.log]

/-- The monitor over two lists of events is the monitor over one after the other. -/
theorem Monitor.run_append (m : Monitor) (a b : List Event) :
    m.run (a ++ b) = (m.run a).bind fun n => n.run b := by
  induction a generalizing m with
  | nil => rfl
  | cons e rest ih =>
    simp only [List.cons_append, Monitor.run]
    cases m.next e with
    | none => rfl
    | some n => exact ih n

/-- What the trace's checks say of each event. -/
@[simp] theorem frameAllowed_xfer (out r : Frame) : (Event.xfer out r).frameAllowed = sequencerFrame out := rfl
@[simp] theorem frameAllowed_xferFail (out : Frame) : (Event.xferFail out).frameAllowed = sequencerFrame out := rfl
@[simp] theorem frameAllowed_level (l : Level) : (Event.level l).frameAllowed = true := rfl
@[simp] theorem frameAllowed_clock (t : ℚ) : (Event.clock t).frameAllowed = true := rfl
@[simp] theorem frameAllowed_sleep (d : ℚ) : (Event.sleep d).frameAllowed = true := rfl
@[simp] theorem frameAllowed_progress (n : Nat) : (Event.progress n).frameAllowed = true := rfl
@[simp] theorem frameAllowed_emit (r : SampleRecord) : (Event.emit r).frameAllowed = true := rfl
@[simp] theorem frameAllowed_result (r : OpResult) : (Event.result r).frameAllowed = true := rfl
@[simp] theorem recordFits_xfer (c : Params) (out r : Frame) : (Event.xfer out r).recordFits c = true := rfl
@[simp] theorem recordFits_xferFail (c : Params) (out : Frame) : (Event.xferFail out).recordFits c = true := rfl
@[simp] theorem recordFits_level (c : Params) (l : Level) : (Event.level l).recordFits c = true := rfl
@[simp] theorem recordFits_clock (c : Params) (t : ℚ) : (Event.clock t).recordFits c = true := rfl
@[simp] theorem recordFits_sleep (c : Params) (d : ℚ) : (Event.sleep d).recordFits c = true := rfl
@[simp] theorem recordFits_progress (c : Params) (n : Nat) : (Event.progress n).recordFits c = true := rfl
@[simp] theorem recordFits_emit (c : Params) (r : SampleRecord) : (Event.emit r).recordFits c = r.fits c := rfl
@[simp] theorem recordFits_result (c : Params) (r : OpResult) : (Event.result r).recordFits c = true := rfl

/-- The event of a bus error passes the checks its frame passes. -/
theorem State.busErrorEvent_frameAllowed (s : State) (out : Frame) (e : Event) (h : s.busErrorEvent out = some e) :
    e.frameAllowed = sequencerFrame out := by
  obtain rfl | ⟨bytes, -, rfl⟩ := s.busErrorEvent_cases out e h <;> rfl

theorem State.busErrorEvent_recordFits (s : State) (c : Params) (out : Frame) (e : Event)
    (h : s.busErrorEvent out = some e) : e.recordFits c = true := by
  obtain rfl | ⟨bytes, -, rfl⟩ := s.busErrorEvent_cases out e h <;> rfl

/-- A transfer that is a bus error leaves the monitor as a failed transfer does. -/
theorem Monitor.next_busError (m : Monitor) (s : State) (out : Frame) (e : Event)
    (h : s.busErrorEvent out = some e) (ha : m.admits out = true) : m.next e = some (m.failed out) := by
  obtain rfl | ⟨bytes, hl, rfl⟩ := s.busErrorEvent_cases out e h
  · simp [Monitor.next, ha]
  · simp [Monitor.next, ha, hl]

/-- A transfer that completes moves the monitor on by its frame. -/
theorem Monitor.next_responds (m : Monitor) (s : State) (out response : Frame) (h : s.responds out response)
    (ha : m.admits out = true) : m.next (.xfer out response) = some (m.completed out) := by
  simp [Monitor.next, ha, h.2]

end Sys2Proof.Machine
end

