-- ==== Sys2Proof/Laws/PerInstr.lean ====
section
/-! SUPPORT. Statements for all commands, one lemma a constructor. Family `FrameLength`: the frame of a
well-formed command is as long as its command byte says (spec/30_encoding R86). -/

namespace Sys2Proof.Laws.FrameLength

/-- The command byte of the frame sets the frame's length. -/
def Statement (i : Instr) : Prop :=
  i.wellFormed = true → ∃ b rest, encode i = b :: rest ∧ frameLength b = some (rest.length + 1)

/-- The four command bytes of CB-REG with base 0x20. -/
theorem readByte_length (r : Int) (h : isRegister r = true) : frameLength (commandByte 0x20 r) = some 2 := by
  simp only [isRegister, Bool.and_eq_true, decide_eq_true_eq] at h
  obtain ⟨h0, h3⟩ := h
  interval_cases r <;> rfl

/-- The four command bytes of CB-REG with base 0x40. -/
theorem writeByte_length (r : Int) (h : isRegister r = true) : frameLength (commandByte 0x40 r) = some 2 := by
  simp only [isRegister, Bool.and_eq_true, decide_eq_true_eq] at h
  obtain ⟨h0, h3⟩ := h
  interval_cases r <;> rfl

theorem powerdown : Statement .powerdown := fun _ => ⟨_, _, rfl, rfl⟩

theorem reset : Statement .reset := fun _ => ⟨_, _, rfl, rfl⟩

theorem start : Statement .start := fun _ => ⟨_, _, rfl, rfl⟩

theorem rdata : Statement .rdata := fun _ => ⟨_, _, rfl, rfl⟩

theorem rreg (r : Int) : Statement (.rreg r) := fun h => ⟨_, _, rfl, readByte_length r h⟩

theorem wreg (r v : Int) : Statement (.wreg r v) := fun h =>
  ⟨_, _, rfl, writeByte_length r (by simp only [Instr.wellFormed, Bool.and_eq_true] at h; exact h.1)⟩

end Sys2Proof.Laws.FrameLength
end

