-- ==== Sys2Proof/Laws/Step.lean ====
section
/-! SUPPORT. What one step does in each phase, and the cases of a step, for the proofs about every step. -/

namespace Sys2Proof.Machine

/-- The command bytes of the register commands, for the four indices. -/
theorem decodeFrame_rreg (i : Fin 4) : decodeFrame (encode (.rreg (i.val : Int))) = some (.rreg (i.val : Int)) := by
  fin_cases i <;> rfl

theorem decodeFrame_wreg (i : Fin 4) (b : Byte) :
    decodeFrame (encode (.wreg (i.val : Int) (b.toNat : Int))) = some (.wreg (i.val : Int) (b.toNat : Int)) := by
  have hb : BitVec.ofInt 8 (b.toNat : Int) = b := by simp
  fin_cases i <;> simp [encode, hb] <;> rfl

/-- In a phase that sends a command, the step executes it. -/
theorem step_sending (s : State) (i : Instr) (h : s.phase ≠ .idle) (hc : s.command = some i)
    (hd : decodeFrame (encode i) = some i) : step s = exec i s := by
  have hf : fetch s = .command i s := by
    unfold fetch
    split
    · contradiction
    · contradiction
    · contradiction
    · simp [hc, fetchFrame, hd]
  simp [step, hf]

/-- In a phase other than IDLE that sends no command, the step is the phase's own rule. -/
theorem step_silent (s : State) (h : s.phase ≠ .idle) (hc : s.command = none) : step s = .next (runPhase s) := by
  have hf : fetch s = .none := by
    unfold fetch
    split
    · contradiction
    · contradiction
    · contradiction
    · simp [hc]
  simp [step, hf]

theorem step_initReset (s : State) (h : s.phase = .initReset) : step s = .next (phaseReset s) := by
  rw [step_sending s .reset (by simp [h]) (by simp [State.command, h]) rfl]
  simp [exec, execReset, h]

theorem step_initProbe (s : State) (h : s.phase = .initProbe) : step s = .next (phaseProbe s) := by
  rw [step_sending s (.rreg 0) (by simp [h]) (by simp [State.command, h]) rfl]
  simp [exec, execRreg, h]

theorem step_initWrite (s : State) (i : Fin 4) (h : s.phase = .initWrite i) : step s = .next (phaseWrite i s) := by
  rw [step_sending s (.wreg (i.val : Int) ((s.profile.get i).toNat : Int)) (by simp [h])
    (by simp only [State.command, h]) (decodeFrame_wreg i _)]
  simp [exec, execWreg, h]

theorem step_initVerify (s : State) (i : Fin 4) (h : s.phase = .initVerify i) : step s = .next (phaseVerify i s) := by
  rw [step_sending s (.rreg (i.val : Int)) (by simp [h]) (by simp only [State.command, h]) (decodeFrame_rreg i)]
  simp [exec, execRreg, h]

theorem step_acqTrigger (s : State) (h : s.phase = .acqTrigger) : step s = .next (phaseTrigger s) := by
  rw [step_sending s .start (by simp [h]) (by simp [State.command, h]) rfl]
  simp [exec, execStart, h]

theorem step_acqRead (s : State) (h : s.phase = .acqRead) : step s = .next (phaseRead s) := by
  rw [step_sending s .rdata (by simp [h]) (by simp [State.command, h]) rfl]
  simp [exec, execRdata, h]

theorem step_initSettle (s : State) (h : s.phase = .initSettle) : step s = .next (phaseSettle s) := by
  rw [step_silent s (by simp [h]) (by simp [State.command, h])]
  simp [runPhase, h]

theorem step_initCheck (s : State) (h : s.phase = .initCheck) : step s = .next (phaseCheck s) := by
  rw [step_silent s (by simp [h]) (by simp [State.command, h])]
  simp [runPhase, h]

theorem step_waitPoll (s : State) (h : s.phase = .waitPoll) : step s = .next (phasePoll s) := by
  rw [step_silent s (by simp [h]) (by simp [State.command, h])]
  simp [runPhase, h]

theorem step_waitSleep (s : State) (h : s.phase = .waitSleep) : step s = .next (phaseSleep s) := by
  rw [step_silent s (by simp [h]) (by simp [State.command, h])]
  simp [runPhase, h]

theorem step_acqSync (s : State) (h : s.phase = .acqSync) : step s = .next (phaseSync s) := by
  rw [step_silent s (by simp [h]) (by simp [State.command, h])]
  simp [runPhase, h]

theorem step_acqConvert (s : State) (h : s.phase = .acqConvert) : step s = .next (phaseConvert s) := by
  rw [step_silent s (by simp [h]) (by simp [State.command, h])]
  simp [runPhase, h]

theorem step_acqEmit (s : State) (h : s.phase = .acqEmit) : step s = .next (phaseEmit s) := by
  rw [step_silent s (by simp [h]) (by simp [State.command, h])]
  simp [runPhase, h]

/-- The state in which a bus error ends an operation: the transfer's event, then error entry with Faulted
(60_exceptions R236). -/
def State.busFault (s : State) (i : Instr) (e : Event) : State :=
  ({ s with env := s.env.drawBus.2, trace := s.trace ++ [e] } : State).raise .faulted
    (.busError s.phase s.phase.register (encode i))

/-- Everything INIT_RESET can do. -/
theorem phaseReset_cases (s : State) :
    (∃ r, s.responds (encode .reset) r ∧
        phaseReset s = { s.afterTransfer (encode .reset) r with phase := .initSettle }) ∨
      ∃ e, s.busErrorEvent (encode .reset) = some e ∧ phaseReset s = s.busFault .reset e :=
  s.sendThen_cases .reset _

/-- Everything INIT_PROBE can do. -/
theorem phaseProbe_cases (s : State) :
    (∃ r, s.responds (encode (.rreg 0)) r ∧
        ((deviceSilent (decodeRegisterResponse r) = true ∧
            phaseProbe s = (s.afterTransfer (encode (.rreg 0)) r).raise .uninitialized
              (.deviceUnresponsive .initProbe 0 (decodeRegisterResponse r))) ∨
          (deviceSilent (decodeRegisterResponse r) = false ∧
            phaseProbe s = { s.afterTransfer (encode (.rreg 0)) r with phase := .initWrite 0 }))) ∨
      ∃ e, s.busErrorEvent (encode (.rreg 0)) = some e ∧ phaseProbe s = s.busFault (.rreg 0) e := by
  unfold phaseProbe
  obtain ⟨r, hr, e⟩ | h := s.sendThen_cases (.rreg 0) fun t response =>
    let c := decodeRegisterResponse response
    if deviceSilent c then t.raise .uninitialized (.deviceUnresponsive .initProbe 0 c)
    else { t with phase := .initWrite 0 }
  · refine .inl ⟨r, hr, ?_⟩
    cases hd : deviceSilent (decodeRegisterResponse r) with
    | true => exact .inl ⟨rfl, by rw [e]; simp [hd]⟩
    | false => exact .inr ⟨rfl, by rw [e]; simp [hd]⟩
  · exact .inr h

/-- The phase after INIT_WRITE(i). -/
def Phase.afterWrite (i : Fin 4) : Phase :=
  match nextIndex i with
  | some j => .initWrite j
  | none => .initVerify 0

/-- The phase after INIT_VERIFY(i). -/
def Phase.afterVerify (i : Fin 4) : Phase :=
  match nextIndex i with
  | some j => .initVerify j
  | none => .initCheck

/-- The write of index `i` that INIT_WRITE(i) sends. -/
def State.writeCommand (s : State) (i : Fin 4) : Instr := .wreg (i.val : Int) ((s.profile.get i).toNat : Int)

/-- Everything INIT_WRITE(i) can do. -/
theorem phaseWrite_cases (i : Fin 4) (s : State) :
    (∃ r, s.responds (encode (s.writeCommand i)) r ∧
        phaseWrite i s = { s with
          env := { s.env.drawBus.2 with clockFloor := s.env.clockFloor + s.params.writeSettle }
          trace := s.trace ++ [.xfer (encode (s.writeCommand i)) r, .sleep s.params.writeSettle]
          phase := Phase.afterWrite i }) ∨
      ∃ e, s.busErrorEvent (encode (s.writeCommand i)) = some e ∧
        phaseWrite i s = s.busFault (s.writeCommand i) e := by
  obtain ⟨r, hr, e⟩ | h := s.sendThen_cases (s.writeCommand i) fun t _ =>
    { t.sleep t.params.writeSettle with phase := Phase.afterWrite i }
  · refine .inl ⟨r, hr, e.trans ?_⟩
    simp [State.sleep, State.log, State.afterTransfer]
  · exact .inr h

/-- Everything INIT_VERIFY(i) can do. -/
theorem phaseVerify_cases (i : Fin 4) (s : State) :
    (∃ r, s.responds (encode (.rreg (i.val : Int))) r ∧
        phaseVerify i s = { s.afterTransfer (encode (.rreg (i.val : Int))) r with
          rb := s.rb.set i (decodeRegisterResponse r)
          phase := Phase.afterVerify i }) ∨
      ∃ e, s.busErrorEvent (encode (.rreg (i.val : Int))) = some e ∧
        phaseVerify i s = s.busFault (.rreg (i.val : Int)) e :=
  s.sendThen_cases (.rreg (i.val : Int)) _

/-- Everything ACQ_TRIGGER can do. -/
theorem phaseTrigger_cases (s : State) :
    (s.devState ≠ .configured ∧
        phaseTrigger s = s.raise s.devState (.notConfigured .acqTrigger s.devState)) ∨
      (s.devState = .configured ∧ ∃ r, s.responds (encode .start) r ∧
        phaseTrigger s = { s.afterTransfer (encode .start) r with
          devState := .conversionPending, phase := .acqSync }) ∨
      (s.devState = .configured ∧ ∃ e, s.busErrorEvent (encode .start) = some e ∧
        phaseTrigger s = s.busFault .start e) := by
  by_cases h : s.devState = .configured
  · simp only [phaseTrigger, h, if_true]
    obtain hr | he := s.sendThen_cases .start fun t _ =>
      { t with devState := .conversionPending, phase := .acqSync }
    · exact .inr (.inl ⟨trivial, hr⟩)
    · exact .inr (.inr ⟨trivial, he⟩)
  · exact .inl ⟨h, by simp [phaseTrigger, h]⟩

/-- Everything ACQ_READ can do. -/
theorem phaseRead_cases (s : State) :
    (∃ r, s.responds (encode .rdata) r ∧
        phaseRead s = { s.afterTransfer (encode .rdata) r with
          u24 := responseCode r
          raw := signExtend (responseCode r)
          devState := .sampleReady
          phase := .acqConvert }) ∨
      ∃ e, s.busErrorEvent (encode .rdata) = some e ∧ phaseRead s = s.busFault .rdata e :=
  s.sendThen_cases .rdata _

/-- Everything INIT_CHECK can do. -/
theorem phaseCheck_cases (s : State) :
    (mismatches s.profile s.rb = [] ∧ phaseCheck s = s.complete .configured .done) ∨
      (mismatches s.profile s.rb ≠ [] ∧
        phaseCheck s = s.raise .faulted (.configurationMismatch .initCheck (mismatches s.profile s.rb))) := by
  unfold phaseCheck
  split
  · exact .inl ⟨‹_›, rfl⟩
  · rename_i h
    exact .inr ⟨h, rfl⟩

/-- The events of a high poll up to its clock reading, `n` counting it (43_sequencer R192 to R194). -/
def pollEvents (period n : Nat) (now : ℚ) : List Event :=
  [.level .high] ++ (if progressDue period n then [.progress n] else []) ++ [.clock now]

/-- Everything WAIT_POLL can do: a low poll, for the host or for a cycle; a high poll within the budget; a high
poll over it. -/
theorem phasePoll_cases (s : State) :
    (s.env.drawLevel.1 = .low ∧ s.wait.caller = .host ∧
        phasePoll s = ({ s with env := s.env.drawLevel.2, trace := s.trace ++ [.level .low] } : State).complete
          s.devState (.ready s.wait.polls)) ∨
      (s.env.drawLevel.1 = .low ∧ s.wait.caller = .acquire ∧
        phasePoll s = { s with
          env := s.env.drawLevel.2, trace := s.trace ++ [.level .low], wait := .cleared, phase := .acqRead }) ∨
      (s.env.drawLevel.1 = .high ∧ s.env.drawLevel.2.drawClock.1 - s.wait.t0 ≤ s.wait.timeout ∧
        phasePoll s = { s with
          wait := { s.wait with polls := s.wait.polls + 1 }
          env := s.env.drawLevel.2.drawClock.2
          trace := s.trace ++ pollEvents s.params.progressPeriod (s.wait.polls + 1) s.env.drawLevel.2.drawClock.1
          phase := .waitSleep }) ∨
      (s.env.drawLevel.1 = .high ∧ s.wait.timeout < s.env.drawLevel.2.drawClock.1 - s.wait.t0 ∧
        phasePoll s = ({ s with
          env := s.env.drawLevel.2.drawClock.2
          trace := s.trace ++ pollEvents s.params.progressPeriod (s.wait.polls + 1) s.env.drawLevel.2.drawClock.1 } : State).raise
            (if s.wait.caller = .host then s.devState else .faulted)
            (.drdyTimeout .waitPoll (s.wait.polls + 1) (s.env.drawLevel.2.drawClock.1 - s.wait.t0))) := by
  obtain hl | hl := level_low_or_high s.env.drawLevel.1
  · cases hc : s.wait.caller with
    | host => exact .inl ⟨hl, rfl, by simp [phasePoll, hl, dataReady, waitReadyLow, hc, State.readLevel, State.log]⟩
    | acquire =>
      exact .inr (.inl ⟨hl, rfl, by simp [phasePoll, hl, dataReady, waitReadyLow, hc, State.readLevel, State.log]⟩)
  · obtain hb | hb := le_or_gt (s.env.drawLevel.2.drawClock.1 - s.wait.t0) s.wait.timeout
    · refine .inr (.inr (.inl ⟨hl, hb, ?_⟩))
      cases hm : progressDue s.params.progressPeriod (s.wait.polls + 1) <;>
        simp [phasePoll, hl, dataReady, checkBudget, countPoll, hm, budgetExceeded, not_lt.mpr hb, pollEvents,
          State.now, State.readLevel, State.log]
    · refine .inr (.inr (.inr ⟨hl, hb, ?_⟩))
      cases hc : s.wait.caller <;> cases hm : progressDue s.params.progressPeriod (s.wait.polls + 1) <;>
        simp [phasePoll, hl, dataReady, checkBudget, countPoll, hm, budgetExceeded, hb, pollEvents, waitTimeout, hc,
          State.now, State.readLevel, State.log, State.raise, State.finish, State.discard]

/-- Everything the entry of a wait can do. -/
theorem enterWait_cases (caller : WaitCaller) (d b : ℚ) (s : State) :
    (0 < d ∧ enterWait caller d b s = { s with
        env := s.env.drawClock.2
        trace := s.trace ++ [.clock s.env.drawClock.1]
        wait := { pollInterval := d, timeout := b, t0 := s.env.drawClock.1, polls := 0, caller := caller }
        phase := .waitPoll }) ∨
      (¬ 0 < d ∧ enterWait caller d b s = s.finish (.err (.badParameter .pollInterval))) := by
  by_cases h : 0 < d
  · exact .inl ⟨h, by simp [enterWait, pollIntervalError, h, State.now, State.log]⟩
  · exact .inr ⟨h, by simp [enterWait, pollIntervalError, h]⟩

/-- A command that the phase does not send is an encoder call: one result more, nothing else (40_commands R103). -/
theorem exec_unsent (s : State) (i : Instr) (h : s.command ≠ some i) : exec i s = .next (s.codecCall i) := by
  cases i with
  | powerdown => rfl
  | reset =>
    have : s.phase ≠ .initReset := fun e => h (by simp [State.command, e])
    simp [exec, execReset, this]
  | start =>
    have : s.phase ≠ .acqTrigger := fun e => h (by simp [State.command, e])
    simp [exec, execStart, this]
  | rdata =>
    have : s.phase ≠ .acqRead := fun e => h (by simp [State.command, e])
    simp [exec, execRdata, this]
  | rreg r =>
    simp only [exec, execRreg]
    split
    · rename_i e
      rw [if_neg (fun e' => h (by simp [State.command, e, e']))]
    · rename_i i e
      rw [if_neg (fun e' => h (by simp [State.command, e, e']))]
    · rfl
  | wreg r v =>
    simp only [exec, execWreg]
    split
    · rename_i i e
      rw [if_neg (fun e' => h (by simp [State.command, e, e'.1, e'.2]))]
    · rfl

/-- A step in IDLE: the block waits; or a command line is no frame; or a command is an encoder call; or a host
operation starts. -/
theorem step_idle_cases (s : State) (h : s.phase = .idle) :
    (s.program = [] ∧ step s = .next s) ∨
      (∃ f rest, s.program = .command f :: rest ∧ decodeFrame f = none ∧ step s = .refused (.notACommand f)) ∨
      (∃ i op rest, s.program = op :: rest ∧ (op = .encodeCommand i ∨ ∃ f, op = .command f) ∧
        step s = .next (({ s with program := rest } : State).codecCall i)) ∨
      ∃ op rest, s.program = op :: rest ∧ (∀ i, op ≠ .encodeCommand i) ∧ (∀ f, op ≠ .command f) ∧
        step s = .next (startOp op { s with program := rest }) := by
  have hu : ∀ (rest : List HostOp) (i : Instr), ({ s with program := rest } : State).command ≠ some i := by
    intro rest i
    simp [State.command, h]
  cases hp : s.program with
  | nil => exact .inl ⟨rfl, by simp [step, fetch, h, hp, runPhase, phaseIdle]⟩
  | cons op rest =>
    right
    cases op with
    | command f =>
      cases hd : decodeFrame f with
      | none => exact .inl ⟨f, rest, rfl, hd, by simp [step, fetch, h, hp, fetchFrame, hd]⟩
      | some i =>
        refine .inr (.inl ⟨i, _, rest, rfl, .inr ⟨f, rfl⟩, ?_⟩)
        have hf : fetch s = .command i { s with program := rest } := by simp [fetch, h, hp, fetchFrame, hd]
        simp only [step, hf]
        exact exec_unsent _ i (hu rest i)
    | encodeCommand i =>
      refine .inr (.inl ⟨i, _, rest, rfl, .inl rfl, ?_⟩)
      have hf : fetch s = .command i { s with program := rest } := by simp [fetch, h, hp]
      simp only [step, hf]
      exact exec_unsent _ i (hu rest i)
    | _ => exact .inr (.inr ⟨_, rest, rfl, by simp, by simp, by simp [step, fetch, h, hp, runPhase, phaseIdle]⟩)

/-- Everything the entry of a host operation other than a command can do: it reports a result and writes no
state; or it is `construct`, `initialize`, `wait_ready` or `acquire` under a good configuration. -/
theorem startOp_cases (op : HostOp) (s : State) :
    (∃ r, startOp op s = s.report r) ∨
      (op = .construct ∧ startOp op s = opConstruct s) ∨
      (∃ p0 p1 p2 p3, op = .initialise p0 p1 p2 p3 ∧ startOp op s =
        { s with profile := profileBytes p0 p1 p2 p3, profileWritten := true, phase := .initReset }) ∨
      (∃ d b, op = .waitReady d b ∧ startOp op s = enterWait .host d b s) ∨
      (op = .acquire ∧ startOp op s = { s with phase := .acqTrigger }) ∨
      (∃ i, op = .encodeCommand i ∧ startOp op s = s.codecCall i) ∨
      (∃ f, op = .command f ∧ startOp op s = s) := by
  unfold startOp
  cases hc : configurationError s.params with
  | some e =>
    cases op with
    | encodeCommand i => exact .inr (.inr (.inr (.inr (.inr (.inl ⟨i, rfl, rfl⟩)))))
    | command f => exact .inr (.inr (.inr (.inr (.inr (.inr ⟨f, rfl, rfl⟩)))))
    | _ => exact .inl ⟨_, rfl⟩
  | none =>
    cases op with
    | construct => exact .inr (.inl ⟨rfl, rfl⟩)
    | initialise p0 p1 p2 p3 =>
      simp only [runOp, opInitialise]
      cases profileError p0 p1 p2 p3 with
      | some e => exact .inl ⟨_, rfl⟩
      | none => exact .inr (.inr (.inl ⟨p0, p1, p2, p3, rfl, rfl⟩))
    | waitReady d b => exact .inr (.inr (.inr (.inl ⟨d, b, rfl, rfl⟩)))
    | acquire => exact .inr (.inr (.inr (.inr (.inl ⟨rfl, rfl⟩))))
    | encodeCommand i => exact .inr (.inr (.inr (.inr (.inr (.inl ⟨i, rfl, rfl⟩)))))
    | command f => exact .inr (.inr (.inr (.inr (.inr (.inr ⟨f, rfl, rfl⟩)))))
    | _ => exact .inl ⟨_, rfl⟩

/-- Everything a step that answers a next state can do, by the phase it starts in: the step's inversion. -/
inductive StepTo (s : State) : State → Prop
  | wait : s.phase = .idle → s.program = [] → StepTo s s
  | call (i : Instr) (op : HostOp) (rest : List HostOp) : s.phase = .idle → s.program = op :: rest →
      (op = .encodeCommand i ∨ ∃ f, op = .command f) → StepTo s (({ s with program := rest } : State).codecCall i)
  | report (op : HostOp) (rest : List HostOp) (r : OpResult) : s.phase = .idle → s.program = op :: rest →
      StepTo s (({ s with program := rest } : State).report r)
  | construct (rest : List HostOp) : s.phase = .idle → s.program = .construct :: rest →
      StepTo s (opConstruct { s with program := rest })
  | initialise (p0 p1 p2 p3 : Int) (rest : List HostOp) : s.phase = .idle →
      s.program = .initialise p0 p1 p2 p3 :: rest →
      StepTo s { s with
        program := rest, profile := profileBytes p0 p1 p2 p3, profileWritten := true, phase := .initReset }
  | waitReady (d b : ℚ) (rest : List HostOp) : s.phase = .idle → s.program = .waitReady d b :: rest →
      StepTo s (enterWait .host d b { s with program := rest })
  | acquire (rest : List HostOp) : s.phase = .idle → s.program = .acquire :: rest →
      StepTo s { s with program := rest, phase := .acqTrigger }
  | reset : s.phase = .initReset → StepTo s (phaseReset s)
  | settle : s.phase = .initSettle → StepTo s (phaseSettle s)
  | probe : s.phase = .initProbe → StepTo s (phaseProbe s)
  | write (i : Fin 4) : s.phase = .initWrite i → StepTo s (phaseWrite i s)
  | verify (i : Fin 4) : s.phase = .initVerify i → StepTo s (phaseVerify i s)
  | check : s.phase = .initCheck → StepTo s (phaseCheck s)
  | poll : s.phase = .waitPoll → StepTo s (phasePoll s)
  | sleep : s.phase = .waitSleep → StepTo s (phaseSleep s)
  | trigger : s.phase = .acqTrigger → StepTo s (phaseTrigger s)
  | sync : s.phase = .acqSync → StepTo s (phaseSync s)
  | read : s.phase = .acqRead → StepTo s (phaseRead s)
  | convert : s.phase = .acqConvert → StepTo s (phaseConvert s)
  | emit : s.phase = .acqEmit → StepTo s (phaseEmit s)

/-- A next state of a step is one of the inversion's. -/
theorem step_inversion {s t : State} (hstep : step s = .next t) : StepTo s t := by
  have key : ∀ {u : State}, step s = .next u → StepTo s u → StepTo s t := by
    intro u e hu
    rw [e] at hstep
    cases hstep
    exact hu
  cases h : s.phase with
  | idle =>
    obtain ⟨hp, e⟩ | ⟨f, rest, -, -, e⟩ | ⟨i, op, rest, hp, ho, e⟩ | ⟨op, rest, hp, h1, h2, e⟩ := step_idle_cases s h
    · exact key e (.wait h hp)
    · rw [e] at hstep
      cases hstep
    · exact key e (.call i op rest h hp ho)
    · refine key e ?_
      obtain ⟨r, e'⟩ | ⟨rfl, e'⟩ | ⟨p0, p1, p2, p3, rfl, e'⟩ | ⟨d, b, rfl, e'⟩ | ⟨rfl, e'⟩ | ⟨i, ho, -⟩ | ⟨f, ho, -⟩ :=
        startOp_cases op { s with program := rest }
      · rw [e']; exact .report op rest r h hp
      · rw [e']; exact .construct rest h hp
      · rw [e']; exact .initialise p0 p1 p2 p3 rest h hp
      · rw [e']; exact .waitReady d b rest h hp
      · rw [e']; exact .acquire rest h hp
      · exact absurd ho (h1 i)
      · exact absurd ho (h2 f)
  | initReset => exact key (step_initReset s h) (.reset h)
  | initSettle => exact key (step_initSettle s h) (.settle h)
  | initProbe => exact key (step_initProbe s h) (.probe h)
  | initWrite i => exact key (step_initWrite s i h) (.write i h)
  | initVerify i => exact key (step_initVerify s i h) (.verify i h)
  | initCheck => exact key (step_initCheck s h) (.check h)
  | waitPoll => exact key (step_waitPoll s h) (.poll h)
  | waitSleep => exact key (step_waitSleep s h) (.sleep h)
  | acqTrigger => exact key (step_acqTrigger s h) (.trigger h)
  | acqSync => exact key (step_acqSync s h) (.sync h)
  | acqRead => exact key (step_acqRead s h) (.read h)
  | acqConvert => exact key (step_acqConvert s h) (.convert h)
  | acqEmit => exact key (step_acqEmit s h) (.emit h)

/-- One step of a run. -/
theorem run_next (k : Nat) {s t : State} (h : step s = .next t) : Sys2Proof.core.run (k + 1) s = Sys2Proof.core.run k t := by
  simp only [Host.Core.run]
  rw [show Sys2Proof.core.step s = .next t from h]

/-- A run of steps after a run of steps. -/
theorem run_add (j k : Nat) {s t : State} (h : Sys2Proof.core.run j s = .next t) :
    Sys2Proof.core.run (j + k) s = Sys2Proof.core.run k t := by
  induction j generalizing s with
  | zero => cases h; rw [Nat.zero_add]
  | succ j ih =>
    rw [Nat.succ_add]
    simp only [Host.Core.run] at h ⊢
    revert h
    cases Sys2Proof.core.step s with
    | next u => exact fun h => ih h
    | fault r => nofun
    | refused r => nofun

end Sys2Proof.Machine
end

