-- ==== Sys2Proof/Tests/Slice0.lean ====
section
/-! SUPPORT. Tests of the model against the spec's own vectors (spec/95_test_vectors), the smoke test of the
well-formedness checks, and for each statement with hypotheses a witness that meets them. -/

namespace Sys2Proof.Tests

open Sys2Proof.Machine

/-! ### The state the tests start from -/

/-- The reference parameters of spec/95_test_vectors with a budget of 3 ms (vectors L2-W1, L3-4). -/
def testParams : Params :=
  { vref := .finite (2048 / 1000), offset := .finite (224 / 100000), pollInterval := 1, drdyTimeout := 3,
    progressPeriod := 1000, resetSettle := 100, writeSettle := 1, gainSetting := 7, voltArith := .binary64, transportCanFail := true }

/-- The block in a phase, with a program and the environment's answers; the clock starts at 0. -/
def start (phase : Phase) (program : List HostOp) (bus : List BusAnswer) (line : List Level) : State :=
  { State.reset with
    params := testParams
    phase := phase
    program := program
    env := { bus := bus, line := line, clock := [], clockFloor := 0, draws := 0 } }

/-- A wait of the host or of a cycle, poll interval 1 and budget 3, entered at 0 (vector L2-W1). -/
def waiting (phase : Phase) (caller : WaitCaller) (polls : Nat) (line : List Level) (clock : List ℚ) (floor : ℚ := 0) :
    State :=
  { State.reset with
    params := testParams
    phase := phase
    wait := { pollInterval := 1, timeout := 3, t0 := 0, polls := polls, caller := caller }
    env := { bus := [], line := line, clock := clock, clockFloor := floor, draws := 0 } }

/-- The state a step leads to, itself where it leads to none. -/
def after (s : State) : State :=
  match step s with
  | .next t => t
  | .fault _ => s
  | .refused _ => s

/-! ### Well-formedness: an ill-formed command for each check (40_commands R104) -/

theorem test_illformed_register_high : (Instr.rreg 4).wellFormed = false := by decide
theorem test_illformed_register_low : (Instr.rreg (-1)).wellFormed = false := by decide
theorem test_illformed_write_register : (Instr.wreg 7 0).wellFormed = false := by decide
theorem test_illformed_value_high : (Instr.wreg 2 256).wellFormed = false := by decide
theorem test_illformed_value_low : (Instr.wreg 2 (-1)).wellFormed = false := by decide
theorem test_wellformed_bounds : (Instr.wreg 3 255).wellFormed = true ∧ (Instr.wreg 0 0).wellFormed = true := by decide

/-! ### Decoding words written out from the encoding rules (30_encoding R70 to R80) -/

theorem test_decode_powerdown : decodeFrame [0b00000010] = some .powerdown := by decide
theorem test_decode_reset : decodeFrame [0b00000110] = some .reset := by decide
theorem test_decode_start : decodeFrame [0b00001000] = some .start := by decide
theorem test_decode_rdata : decodeFrame [0b00010000, 0, 0, 0] = some .rdata := by decide
theorem test_decode_rreg : decodeFrame [0b00101100, 0] = some (.rreg 3) := by decide
/-- L2-E7 read back. -/
theorem test_decode_wreg : decodeFrame [0b01000100, 0xC4] = some (.wreg 1 0xC4) := by decide
/-- The dummy byte of a register read is 0x00 (R83). -/
theorem test_decode_dummy : decodeFrame [0x20, 0x01] = none := by decide
/-- L2-C4: bits 1:0 of a CB-REG byte are 00. -/
theorem test_classify_low_bits : [0x21, 0x23, 0x41, 0x4E].map classify = List.replicate 4 .notACommand := by decide
/-- L2-C5: the data sheet's aliases are not admitted. -/
theorem test_classify_aliases :
    [0x07, 0x09, 0x03, 0x11, 0x00, 0xFF].map classify = List.replicate 6 .notACommand := by decide
/-- L2-C6: the upper nibble. -/
theorem test_classify_upper : [0x30, 0x50, 0x60].map classify = List.replicate 3 .notACommand := by decide
/-- R86: the frame's length. -/
theorem test_frame_length :
    [0x02, 0x06, 0x08, 0x10, 0x2C, 0x4C, 0x11].map frameLength =
      [some 1, some 1, some 1, some 4, some 2, some 2, none] := by decide
/-- The word of opcode-table row WREG with r = 1: the register field is bits 3:2, the value byte is zero. -/
theorem test_table_word : decodeTableWord 16 0x0044 = some (.wreg 1 0) := by decide
/-- A row whose operand bytes the table does not give. -/
theorem test_table_word_short : decodeTableWord 8 0x10 = some .rdata := by decide

/-! ### Encoders (vectors L2-E) -/

/-- L2-E1 to L2-E4. -/
theorem test_encode_fixed :
    encode .reset = [0x06] ∧ encode .start = [0x08] ∧ encode .powerdown = [0x02] ∧
      encode .rdata = [0x10, 0x00, 0x00, 0x00] := by decide
/-- L2-E5. -/
theorem test_encode_rreg : encode (.rreg 2) = [0x28, 0x00] := by decide
/-- L2-E7, L2-E8. -/
theorem test_encode_wreg : encode (.wreg 1 0xC4) = [0x44, 0xC4] ∧ encode (.wreg 3 0xFF) = [0x4C, 0xFF] := by decide
/-- L2-E9 to L2-E12: the register is checked before the value. -/
theorem test_operand_errors :
    operandError (.rreg 4) = some (.badRegister 4) ∧ operandError (.wreg (-1) 0) = some (.badRegister (-1)) ∧
      operandError (.wreg 2 256) = some (.badValue 256) ∧ operandError (.wreg 7 300) = some (.badRegister 7) := by
  decide

/-! ### Responses and samples (vectors L2-R, L2-S) -/

/-- L2-R1, L2-R2. -/
theorem test_register_response :
    decodeRegisterResponse [0x00, 0x04] = 0x04 ∧ decodeRegisterResponse [0xAA, 0xFF] = 0xFF := by decide
/-- L2-R3, L2-R4. -/
theorem test_data_response :
    decodeDataResponse [0xFF, 0x80, 0x00, 0x00] = -8388608 ∧
      decodeDataResponse [0x00, 0x7F, 0xFF, 0xFF] = 8388607 := by decide
/-- L2-S5, L2-S8, L2-S9, L2-S12, L2-S13. -/
theorem test_samples :
    decodeSample 0x80 0x00 0x01 = -8388607 ∧ decodeSample 0x12 0x34 0x56 = 1193046 ∧
      decodeSample 0xED 0xCB 0xAA = -1193046 ∧ decodeSample 0x00 0x80 0x00 = 32768 ∧
      decodeSample 0xFF 0x7F 0xFF = -32769 := by decide
/-- L2-S14, L2-S15. -/
theorem test_bad_length :
    decodeSampleList [0x12, 0x34] = .err (.badLength 2) ∧
      decodeSampleList [0x01, 0x02, 0x03, 0x04] = .err (.badLength 4) := by decide

/-! ### Voltages (vectors L2-V), bits taken from the hex floats of the table -/

/-- 42_voltage_scaling: VREF64 = 0x1.0624dd2f1a9fcp+1 and OFF64 = 0x1.2599ed7c6fbd2p-9. -/
theorem test_constants :
    vref64 testParams = 0x400_0624DD2F1A9FC#64 ∧ off64 testParams = 0x3F6_2599ED7C6FBD2#64 := by decide +kernel
/-- L2-V2: 0x1.25a21ea35935fp-9. -/
theorem test_voltage_one : rawToVoltage testParams 1 = .binary64 0x3F6_25A21EA35935F#64 := by decide +kernel
/-- L2-V3: 0x1.2591bc5586445p-9. -/
theorem test_voltage_minus_one : rawToVoltage testParams (-1) = .binary64 0x3F6_2591BC5586445#64 := by decide +kernel
/-- L2-V5: 0x1.066e419e30015p+1. -/
theorem test_voltage_top : rawToVoltage testParams 8388607 = .binary64 0x400_066E419E30015#64 := by decide +kernel
/-- L2-V6: -0x1.05db76b3bb83dp+1. -/
theorem test_voltage_bottom :
    rawToVoltage testParams (-8388608) = .binary64 0xC00_05DB76B3BB83D#64 := by decide +kernel
/-- L2-V12: 0x1.4f8b588e368f0p-7, which is not the decimal 0.01024. -/
theorem test_voltage_rounds : rawToVoltage testParams 32768 = .binary64 0x3F8_4F8B588E368F0#64 := by decide +kernel
/-- L1-3: with offset 0, RAW = 0 gives +0.0. -/
theorem test_voltage_zero :
    rawToVoltage { testParams with offset := .finite 0 } 0 = .binary64 0 := by decide +kernel
/-- L1-4: with offset 0, the largest code gives 0x1.0624db22d0e56p+1. -/
theorem test_voltage_below_reference :
    rawToVoltage { testParams with offset := .finite 0 } 8388607 = .binary64 0x400_0624DB22D0E56#64 := by
  decide +kernel
/-- 42_voltage_scaling R161: Q = +0 gives P = +0, under a negative VREF too. -/
theorem test_zero_product :
    stageScale { testParams with vref := .finite (-2048 / 1000) } (stageFraction testParams 0) = .binary64 0 := by
  decide +kernel
/-- 42_voltage_scaling R161: Q = -1 gives P = -VREF64, -0x1.0624dd2f1a9fcp+1. -/
theorem test_scale_bottom :
    stageScale testParams (stageFraction testParams (-8388608)) = .binary64 0xC00_0624DD2F1A9FC#64 := by decide +kernel
/-- 42_voltage_scaling R170, corner check of L2-V: the exact voltage of RAW = 1. -/
theorem test_voltage_exact :
    rawToVoltage { testParams with voltArith := .exact } 1 = .exact (2048 / 1000 / 8388608 + 224 / 100000) := by
  decide +kernel
/-- 42_voltage_scaling R170: under `exact` a finite VREF past binary64's range is configured, and V* of RAW = 2^22 is
VREF / 2 (with OFFSET = 0). -/
theorem test_exact_beyond_binary64 :
    (after { start .idle [.rawToVoltage 4194304] [] [] with
      params := { testParams with voltArith := .exact, vref := .finite (2 ^ 1024), offset := .finite 0 } }).trace =
      [.result (.ok (.voltage (.exact (2 ^ 1023))))] := by decide +kernel

/-! ### Single steps -/

/-- The configuration of the tests is one that 00_scope R7 to R14 allow. -/
theorem test_params_valid : testParams.valid = true := by decide +kernel
theorem test_params_configured : configurationError testParams = none := by decide +kernel
/-- L2-Q2: `acquire()` after Faulted raises NotConfigured and sends nothing. -/
theorem test_not_configured :
    (after { start .acqTrigger [] [] [] with devState := .faulted }).trace =
      [.result (.err (.notConfigured .acqTrigger .faulted))] := by decide +kernel
/-- L2-Q3: a START transfer that fails. -/
theorem test_start_fails :
    (after { start .acqTrigger [] [.failure] [] with devState := .configured }).trace =
        [.xferFail [0x08], .result (.err (.busError .acqTrigger none [0x08]))] ∧
      (after { start .acqTrigger [] [.failure] [] with devState := .configured }).devState = .faulted := by
  decide +kernel
/-- L2-Q4: an RDATA response of three bytes. -/
theorem test_rdata_short :
    (after { start .acqRead [] [.response [0, 1, 2]] [] with devState := .conversionPending }).trace =
      [.xfer [0x10, 0, 0, 0] [0, 1, 2], .result (.err (.busError .acqRead none [0x10, 0, 0, 0]))] := by decide +kernel
/-- L2-Q5: `initialize((0x01,0x02,0x03,0x100))`. -/
theorem test_bad_profile :
    (after (start .idle [.initialise 1 2 3 256] [] [])).trace = [.result (.err (.badValue 256))] ∧
      (after (start .idle [.initialise 1 2 3 256] [] [])).profileWritten = false := by decide +kernel
/-- L2-Q7, L3-2: the probe reads 0xFF. -/
theorem test_probe_silent :
    (after (start .initProbe [] [.response [0xFF, 0xFF]] [])).trace =
      [.xfer [0x20, 0x00] [0xFF, 0xFF], .result (.err (.deviceUnresponsive .initProbe 0 0xFF))] := by decide +kernel
/-- L2-Q8: readbacks that differ at indices 1 and 3 are listed together, ascending. -/
theorem test_mismatch :
    (after { start .initCheck [] [] [] with
        profile := { b0 := 1, b1 := 4, b2 := 0x10, b3 := 0 }, rb := { b0 := 1, b1 := 5, b2 := 0x10, b3 := 9 } }).trace =
      [.result (.err (.configurationMismatch .initCheck [(1, 4, 5), (3, 0, 9)]))] := by decide +kernel
/-- L3-1 row 8: index 2 of the profile (0x01, 0x04, 0x10, 0x00). -/
theorem test_write_phase :
    (after { start (.initWrite 2) [] [.response [0, 0]] [] with
        profile := { b0 := 1, b1 := 4, b2 := 0x10, b3 := 0 } }).trace = [.xfer [0x48, 0x10] [0, 0], .sleep 1] := by
  decide +kernel
/-- L2-Q9: `get_state()` of a new block is the code 0. -/
theorem test_get_state :
    (after (start .idle [.getState] [] [])).trace = [.result (.ok (.deviceState .uninitialized))] ∧
      DeviceState.uninitialized.code = 0 := by decide +kernel
/-- L2-W7: a poll interval of 0. -/
theorem test_bad_interval :
    (after (start .idle [.waitReady 0 10] [] [])).trace = [.result (.err (.badParameter .pollInterval))] := by
  decide +kernel
/-- L2-W1: the fifth high poll at t = 4 is past the budget of 3. -/
theorem test_timeout :
    (after (waiting .waitPoll .host 4 [.high] [4])).trace =
      [.level .high, .clock 4, .result (.err (.drdyTimeout .waitPoll 5 4))] := by decide +kernel
/-- L2-W2: at the fourth high poll t = 3, which is not past the budget. -/
theorem test_not_before :
    (after (waiting .waitPoll .host 3 [.high] [3])).phase = .waitSleep := by decide +kernel
/-- L2-W5: the progress event comes right after the 1000th high poll, before its clock reading. -/
theorem test_progress :
    (after (waiting .waitPoll .host 999 [.high] [2])).trace = [.level .high, .progress 1000, .clock 2] := by
  decide +kernel
/-- 93_implementation_defined I6: another progress period than the reference one. -/
theorem test_progress_period :
    (after { waiting .waitPoll .host 3 [.high] [3] with params := { testParams with progressPeriod := 4 } }).trace =
      [.level .high, .progress 4, .clock 3] := by decide +kernel
/-- 92_eei_decisions D13: a budget of 0 is a valid configuration. -/
theorem test_zero_budget : ({ testParams with drdyTimeout := 0 } : Params).valid = true := by decide +kernel
/-- L3-3 row 10: the response 00 FF FF FE. -/
theorem test_read :
    (after { start .acqRead [] [.response [0x00, 0xFF, 0xFF, 0xFE]] [] with devState := .conversionPending }).raw.toInt = -2 := by
  decide +kernel
/-- L3-3 rows 12 and 13: the record's fields, in order. -/
theorem test_emit :
    (after { start .acqEmit [] [] [] with
        devState := .sampleReady, raw := BitVec.ofInt 32 (-2), v := .binary64 0x3F6_25898B2E9CCB7#64,
        env := { bus := [], line := [], clock := [1002], clockFloor := 1000, draws := 0 } }).trace =
      [.clock 1002, .emit ⟨1002, -2, .binary64 0x3F6_25898B2E9CCB7#64, 7⟩,
        .result (.ok (.sampled ⟨1002, -2, .binary64 0x3F6_25898B2E9CCB7#64, 7⟩))] := by decide +kernel
/-- 30_encoding R82: a command line that is no frame is refused by name. -/
theorem test_refused : step (start .idle [.command [0x07]] [] []) = .refused (.notACommand [0x07]) := rfl
/-- The first step after reset with a table word runs that row's command. -/
theorem test_fetch_word :
    step (State.reset.withFetchWord 8 0x06) = exec .reset State.reset := rfl

/-! ### The command syntax (30_encoding R87, R88) -/

theorem test_parse_wreg :
    parseCommand ["WREG".toList, "CONF1".toList, "0xC4".toList] = some (.wreg 1 0xC4) := by decide
theorem test_parse_rreg : parseCommand ["RREG".toList, "3".toList] = some (.rreg 3) := by decide
/-- R88: `INIT` of L3-1 stands for the fifteen rows of its table (log 26). -/
theorem test_expand_init :
    (expandInit testParams { b0 := 1, b1 := 4, b2 := 0x10, b3 := 0 }).length = 15 := by decide

/-! ### Witnesses: for each statement with hypotheses, a state and operands that meet them together -/

/-- The step answers a next state. -/
def answers (s : State) : Bool :=
  match step s with
  | .next _ => true
  | .fault _ => false
  | .refused _ => false

theorem step_after (s : State) (h : answers s = true) : step s = .next (after s) := by
  unfold answers at h
  unfold after
  split at h <;> simp_all

/-- INIT_CHECK of a verified profile of zeros, before it was ever configured. -/
def verified : State := { start .initCheck [] [] [] with profileWritten := true }

/-- ACQ_EMIT of the code 1. -/
def emitting : State :=
  { start .acqEmit [] [] [] with devState := .sampleReady, raw := 1, v := rawToVoltage testParams 1 }

/-- ACQ_READ with a response at hand. -/
def reading : State :=
  { start .acqRead [] [.response [0xFF, 0x80, 0x00, 0x00]] [] with devState := .conversionPending }

/-- ACQ_TRIGGER of a configured block. -/
def triggering : State := { start .acqTrigger [] [.response [0]] [] with devState := .configured }

theorem test_witness_EncoderTable : (Instr.rreg 3).wellFormed = true ∧ (Instr.wreg 3 255).wellFormed = true := by decide
theorem test_witness_DecodeOfEncode :
    Instr.powerdown.wellFormed = true ∧ Instr.reset.wellFormed = true ∧ Instr.start.wellFormed = true ∧
      Instr.rdata.wellFormed = true ∧ (Instr.rreg 0).wellFormed = true ∧ (Instr.wreg 3 255).wellFormed = true := by decide
theorem test_witness_EncodeOfDecode : decodeFrame [0x4C, 0xFF] = some (.wreg 3 255) := by decide
theorem test_witness_StepRuns_command :
    (start .idle [.command [0x44, 0xC4]] [] []).phase = .idle ∧
      (start .idle [.command [0x44, 0xC4]] [] []).program = .command [0x44, 0xC4] :: [] ∧
      decodeFrame [0x44, 0xC4] = some (.wreg 1 0xC4) := ⟨rfl, rfl, by decide⟩
theorem test_witness_StepRuns_call :
    (start .idle [.encodeCommand (.rreg 4)] [] []).phase = .idle ∧
      (start .idle [.encodeCommand (.rreg 4)] [] []).program = .encodeCommand (.rreg 4) :: [] := ⟨rfl, rfl⟩
theorem test_witness_StepRuns_sending :
    (start (.initWrite 3) [] [] []).command = some (.wreg 3 0) ∧ (start .acqRead [] [] []).command = some .rdata :=
  ⟨rfl, rfl⟩
theorem test_witness_StepRuns_refused :
    (start .idle [.command [0x21, 0]] [] []).program = .command [0x21, 0] :: [] ∧ decodeFrame [0x21, 0] = none :=
  ⟨rfl, by decide⟩
theorem test_witness_EncoderCall :
    (Instr.wreg 3 255).wellFormed = true ∧ (start .idle [] [] []).command ≠ some (.wreg 3 255) ∧
      (start (.initWrite 3) [] [] []).command ≠ some (.wreg 3 255) := by decide
theorem test_witness_OperandErrors_register : ¬(0 ≤ (4 : Int) ∧ (4 : Int) ≤ 3) ∧ ¬(0 ≤ (-1 : Int) ∧ (-1 : Int) ≤ 3) := by
  decide
theorem test_witness_OperandErrors_value :
    (0 ≤ (3 : Int) ∧ (3 : Int) ≤ 3) ∧ ¬(0 ≤ (256 : Int) ∧ (256 : Int) ≤ 255) ∧ ¬(0 ≤ (-1 : Int) ∧ (-1 : Int) ≤ 255) := by
  decide
/-- L2-R5, L2-R6. -/
theorem test_witness_Send_errors :
    (start .initProbe [] [.response [0]] []).busErrorEvent [0x20, 0] = some (.xfer [0x20, 0] [0]) ∧
      (start .acqTrigger [] [.failure] []).busErrorEvent [0x08] = some (.xferFail [0x08]) := by decide
theorem test_witness_Send_responds : (start .initProbe [] [.response [0xAA, 0]] []).responds [0x20, 0] [0xAA, 0] :=
  ⟨rfl, rfl⟩
theorem test_witness_Send_cannotFail :
    let s := { start .initProbe [] [.response [0]] [] with params := { testParams with transportCanFail := false } }
    s.params.transportCanFail = false ∧ s.busErrorEvent [0x20, 0] = some (.xfer [0x20, 0] [0]) := by decide
theorem test_witness_BusError_reset :
    (start .initReset [] [.failure] []).sends .reset ∧
      (start .initReset [] [.failure] []).busErrorEvent (encode .reset) = some (.xferFail [0x06]) :=
  ⟨⟨rfl, by decide⟩, by decide⟩
theorem test_witness_BusError_start :
    ({ triggering with env := { triggering.env with bus := [.failure] } } : State).sends .start ∧
      ({ triggering with env := { triggering.env with bus := [.failure] } } : State).busErrorEvent (encode .start) =
        some (.xferFail [0x08]) := ⟨⟨rfl, fun _ => rfl⟩, by decide⟩
theorem test_witness_BusError_wreg :
    (start (.initWrite 3) [] [.response []] []).sends (.wreg 3 0) ∧
      (start (.initWrite 3) [] [.response []] []).busErrorEvent (encode (.wreg 3 0)) = some (.xfer [0x4C, 0] []) :=
  ⟨⟨rfl, by decide⟩, by decide⟩
theorem test_witness_CommandFrame_call :
    exec (.rreg 2) (start .idle [] [] []) = .next ((start .idle [] [] []).codecCall (.rreg 2)) ∧
      (start .idle [] [] []).command ≠ some (.rreg 2) := ⟨rfl, by decide⟩
theorem test_witness_CommandFrame_sent :
    exec .rdata reading = .next (phaseRead reading) ∧ (phaseRead reading).phase ≠ .idle ∧
      reading.command = some .rdata := ⟨rfl, by decide, rfl⟩
theorem test_witness_CommandFrame_ended :
    exec .start (start .acqTrigger [] [] []) = .next (phaseTrigger (start .acqTrigger [] [] [])) ∧
      (start .acqTrigger [] [] []).command = some .start ∧
      (phaseTrigger (start .acqTrigger [] [] [])).phase = .idle := ⟨rfl, rfl, by decide⟩
theorem test_witness_InitialiseEntry_good :
    let s := start .idle [.initialise 0 255 1 2] [] []
    s.phase = .idle ∧ s.program = .initialise 0 255 1 2 :: [] ∧ configurationError s.params = none ∧
      ∀ x ∈ ([0, 255, 1, 2] : List Int), 0 ≤ x ∧ x ≤ 255 := ⟨rfl, rfl, test_params_configured, by decide⟩
theorem test_witness_InitialiseEntry_bad :
    let s := start .idle [.initialise 0 255 256 (-1)] [] []
    s.phase = .idle ∧ s.program = .initialise 0 255 256 (-1) :: [] ∧ configurationError s.params = none ∧
      ([0, 255, 256, -1] : List Int) = [0, 255] ++ 256 :: [-1] ∧ (∀ y ∈ ([0, 255] : List Int), 0 ≤ y ∧ y ≤ 255) ∧
      ¬(0 ≤ (256 : Int) ∧ (256 : Int) ≤ 255) := ⟨rfl, rfl, test_params_configured, rfl, by decide, by decide⟩
theorem test_witness_ResetPhase :
    (start .initReset [] [.response [0]] []).phase = .initReset ∧
      (start .initReset [] [.response [0]] []).responds [0x06] [0] := ⟨rfl, rfl, rfl⟩
theorem test_witness_SettlePhase : (start .initSettle [] [] []).phase = .initSettle := rfl
theorem test_witness_ProbePhase_silent :
    (start .initProbe [] [.response [0xFF, 0xFF]] []).phase = .initProbe ∧
      (start .initProbe [] [.response [0xFF, 0xFF]] []).responds [0x20, 0x00] [0xFF, 0xFF] := ⟨rfl, rfl, rfl⟩
theorem test_witness_ProbePhase_alive :
    (start .initProbe [] [.response [0xFF, 0xFE]] []).responds [0x20, 0x00] [0xFF, 0xFE] ∧ (0xFE : Byte) ≠ 0xFF :=
  ⟨⟨rfl, rfl⟩, by decide⟩
theorem test_witness_WritePhase (i : Fin 4) :
    (start (.initWrite i) [] [.response [0, 0]] []).phase = .initWrite i ∧
      (start (.initWrite i) [] [.response [0, 0]] []).responds
        [0x40 ||| (BitVec.ofNat 8 i.val <<< 2), (start (.initWrite i) [] [.response [0, 0]] []).profile.get i] [0, 0] :=
  ⟨rfl, rfl, rfl⟩
theorem test_witness_VerifyPhase (i : Fin 4) :
    (start (.initVerify i) [] [.response [0, 9]] []).phase = .initVerify i ∧
      (start (.initVerify i) [] [.response [0, 9]] []).responds [0x20 ||| (BitVec.ofNat 8 i.val <<< 2), 0x00] [0, 9] :=
  ⟨rfl, rfl, rfl⟩
theorem test_witness_CheckPhase_equal : verified.phase = .initCheck ∧ ∀ i, verified.rb.get i = verified.profile.get i :=
  ⟨rfl, by decide⟩
theorem test_witness_CheckPhase_differs :
    ({ verified with rb := { b0 := 0, b1 := 0, b2 := 0, b3 := 1 } } : State).phase = .initCheck ∧
      ∃ i, ({ verified with rb := { b0 := 0, b1 := 0, b2 := 0, b3 := 1 } } : State).rb.get i ≠ verified.profile.get i :=
  ⟨rfl, by decide⟩
/-- The echoing transport of L3-1. -/
theorem test_witness_InitialiseEcho :
    let s := start .idle [.initialise 1 4 0x10 0]
      [.response [0], .response [0, 0], .response [0, 0], .response [0, 0], .response [0, 0], .response [0, 0],
        .response [0, 1], .response [0, 4], .response [0, 0x10], .response [0, 0]] []
    let p : Quad := { b0 := 1, b1 := 4, b2 := 0x10, b3 := 0 }
    s.phase = .idle ∧ configurationError s.params = none ∧
      s.program = .initialise p.b0.toNat p.b1.toNat p.b2.toNat p.b3.toNat :: [] ∧
      s.env.bus = [.response [0], .response [0, 0], .response [0, 0], .response [0, 0], .response [0, 0],
        .response [0, 0], .response [0, p.b0], .response [0, p.b1], .response [0, p.b2], .response [0, p.b3]] ++ [] ∧
      (0 : Byte) ≠ 0xFF := ⟨rfl, test_params_configured, rfl, rfl, by decide⟩
/-- The readbacks of L3-5. -/
theorem test_witness_InitialiseMismatch :
    let s := { start (.initVerify 0) [] [.response [0, 1], .response [0, 4], .response [0, 0x11], .response [0, 0]] [] with
      profile := { b0 := 1, b1 := 4, b2 := 0x10, b3 := 0 } }
    let v : Quad := { b0 := 1, b1 := 4, b2 := 0x11, b3 := 0 }
    s.phase = .initVerify 0 ∧
      s.env.bus = [.response [0, v.b0], .response [0, v.b1], .response [0, v.b2], .response [0, v.b3]] ++ [] ∧
      v ≠ s.profile := ⟨rfl, rfl, by decide⟩
theorem test_witness_WaitEntry :
    let s := start .idle [.waitReady 1 3] [] []
    s.phase = .idle ∧ s.program = .waitReady 1 3 :: [] ∧ configurationError s.params = none ∧ (0 : ℚ) < 1 :=
  ⟨rfl, rfl, test_params_configured, by norm_num⟩
theorem test_witness_WaitEntry_refused :
    let s := start .idle [.waitReady 0 3] [] []
    s.phase = .idle ∧ s.program = .waitReady 0 3 :: [] ∧ configurationError s.params = none ∧ ¬(0 : ℚ) < 0 :=
  ⟨rfl, rfl, test_params_configured, by norm_num⟩
theorem test_witness_LowPoll :
    (waiting .waitPoll .host 4 [.low] []).env.drawLevel.1 = .low ∧ (waiting .waitPoll .host 4 [.low] []).wait.caller = .host ∧
      (waiting .waitPoll .acquire 4 [.low] []).env.drawLevel.1 = .low ∧
      (waiting .waitPoll .acquire 4 [.low] []).wait.caller = .acquire ∧
      (waiting .waitPoll .acquire 4 [.low] []).phase = .waitPoll := ⟨rfl, rfl, rfl, rfl, rfl⟩
/-- L2-W2: exactly at the budget. -/
theorem test_witness_HighPollWithinBudget :
    let s := waiting .waitPoll .host 3 [.high] [3]
    s.phase = .waitPoll ∧ s.env.drawLevel.1 = .high ∧ s.env.drawLevel.2.drawClock.1 - s.wait.t0 ≤ s.wait.timeout := by
  decide +kernel
theorem test_witness_HighPollOverBudget :
    let s := waiting .waitPoll .acquire 4 [.high] [4]
    s.phase = .waitPoll ∧ s.env.drawLevel.1 = .high ∧ s.wait.timeout < s.env.drawLevel.2.drawClock.1 - s.wait.t0 := by
  decide +kernel
theorem test_witness_SleepPhase : (waiting .waitSleep .host 1 [] []).phase = .waitSleep := rfl
theorem test_witness_ClockReadings :
    (waiting .waitPoll .host 0 [] [3] 3).env.clock = 3 :: [] ∧ (waiting .waitPoll .host 0 [] [3] 3).env.clockFloor ≤ 3 :=
  ⟨rfl, le_refl _⟩
/-- L2-W1, the fifth poll. -/
theorem test_witness_TimeoutBounds :
    let s := waiting .waitPoll .host 4 [.high] [4] 4
    s.waitFits = true ∧ s.phase = .waitPoll ∧ step s = .next (after s) ∧
      (after s).trace = [.level .high, .clock 4] ++ [.result (.err (.drdyTimeout .waitPoll 5 4))] ∧
      (after s).phase = .idle :=
  ⟨by decide +kernel, rfl, step_after _ (by decide +kernel), by decide +kernel, by decide +kernel⟩
/-- L2-W1: the limit is floor(3 / 1) + 2 = 5 polls. -/
theorem test_witness_WaitTerminates :
    let s := waiting .waitPoll .host 0 (List.replicate 5 .high) []
    s.phase = .waitPoll ∧ s.wait.polls = 0 ∧ 0 < s.wait.pollInterval ∧ 0 ≤ s.wait.timeout ∧
      s.wait.t0 ≤ s.env.clockFloor ∧
      s.env.line = List.replicate (⌊s.wait.timeout / s.wait.pollInterval⌋.toNat + 2) Level.high ++ [] := by decide +kernel
/-- L2-Q1. -/
theorem test_witness_TriggerPhase_call :
    let s := start .idle [.acquire] [] []
    s.phase = .idle ∧ s.program = .acquire :: [] ∧ configurationError s.params = none ∧ s.devState ≠ .configured :=
  ⟨rfl, rfl, test_params_configured, by decide⟩
theorem test_witness_TriggerPhase_refused :
    (start .acqTrigger [] [] []).phase = .acqTrigger ∧ (start .acqTrigger [] [] []).devState ≠ .configured := by decide
theorem test_witness_TriggerPhase_sent :
    triggering.phase = .acqTrigger ∧ triggering.devState = .configured ∧ triggering.responds [0x08] [0] :=
  ⟨rfl, rfl, rfl, rfl⟩
theorem test_witness_SyncPhase :
    (start .acqSync [] [] []).phase = .acqSync ∧ 0 < (start .acqSync [] [] []).params.pollInterval := by decide +kernel
theorem test_witness_ReadPhase :
    reading.phase = .acqRead ∧ reading.responds [0x10, 0x00, 0x00, 0x00] [0xFF, 0x80, 0x00, 0x00] := ⟨rfl, rfl, rfl⟩
theorem test_witness_ConvertPhase : (start .acqConvert [] [] []).phase = .acqConvert := rfl
theorem test_witness_EmitPhase : emitting.phase = .acqEmit := rfl
/-- One high poll, then low; the clock moves by the sleeps alone. -/
theorem test_witness_AcquireCycle :
    let s := { start .idle [.acquire] [] [] with
      devState := .configured
      env := ⟨[.response [0], .response [0, 0xFF, 0xFF, 0xFE]], [.high, .low], [0, 0, 0], 0, 0⟩ }
    s.phase = .idle ∧ s.devState = .configured ∧ configurationError s.params = none ∧ s.program = .acquire :: [] ∧
      s.env.bus = .response [0] :: .response [0, 0xFF, 0xFF, 0xFE] :: [] ∧
      s.env.line = List.replicate 1 Level.high ++ Level.low :: [] ∧
      s.env.clock = List.replicate (1 + 2) s.env.clockFloor ++ [] ∧
      (1 = 0 ∨ (((1 : Nat) : ℚ) - 1) * s.params.pollInterval ≤ s.params.drdyTimeout) :=
  ⟨rfl, rfl, test_params_configured, rfl, rfl, rfl, rfl, .inr (by decide +kernel)⟩
theorem test_witness_CycleEndsOnlySo :
    reading.inCycle = true ∧ reading.params.valid = true ∧ step reading = .next (after reading) :=
  ⟨rfl, test_params_valid, step_after _ (by decide +kernel)⟩
theorem test_witness_ConstructAndReset :
    let s := start .idle [.construct] [] []
    s.phase = .idle ∧ s.program = .construct :: [] ∧ configurationError s.params = none := ⟨rfl, rfl, test_params_configured⟩
theorem test_witness_PureCalls_getState :
    let s := start .idle [.getState] [] []
    s.phase = .idle ∧ configurationError s.params = none ∧ s.program = .getState :: [] := ⟨rfl, test_params_configured, rfl⟩
theorem test_witness_PureCalls_decoders :
    (start .idle [.decodeRegisterResponse 0xAA 0xFF] [] []).program = .decodeRegisterResponse 0xAA 0xFF :: [] ∧
      (start .idle [.decodeDataResponse 0xFF 0x80 0 0] [] []).program = .decodeDataResponse 0xFF 0x80 0 0 :: [] ∧
      (start .idle [.decodeSample [0x80, 0, 0]] [] []).program = .decodeSample [0x80, 0, 0] :: [] := ⟨rfl, rfl, rfl⟩
theorem test_witness_PureCalls_voltage :
    let s := start .idle [.rawToVoltage 8388607] [] []
    s.phase = .idle ∧ configurationError s.params = none ∧ s.program = .rawToVoltage 8388607 :: [] :=
  ⟨rfl, test_params_configured, rfl⟩
theorem test_witness_BadLength :
    (start .idle [.decodeSample [0x12, 0x34]] [] []).phase = .idle ∧
      (start .idle [.decodeSample [0x12, 0x34]] [] []).program = .decodeSample [0x12, 0x34] :: [] ∧
      ([0x12, 0x34] : List Byte).length ≠ 3 := ⟨rfl, rfl, by decide⟩
theorem test_witness_NonFinite_vref :
    let s := { start .idle [.acquire] [] [] with params := { testParams with vref := .nonFinite } }
    s.phase = .idle ∧ s.program = .acquire :: [] ∧ HostOp.acquire.needsConfiguration = true ∧
      s.params.vref.isFinite s.params.voltArith = false := ⟨rfl, rfl, rfl, rfl⟩
/-- A constant that rounds to an infinity in binary64, and is finite in exact arithmetic. -/
theorem test_witness_NonFinite_overflow :
    (ConfiguredValue.finite (2 ^ 1024)).isFinite .binary64 = false ∧
      (ConfiguredValue.finite (2 ^ 1024)).isFinite .exact = true := by decide +kernel
theorem test_witness_NonFinite_offset :
    let s := { start .idle [.rawToVoltage 0] [] [] with params := { testParams with offset := .nonFinite } }
    s.program = .rawToVoltage 0 :: [] ∧ (HostOp.rawToVoltage 0).needsConfiguration = true ∧
      s.params.vref.isFinite s.params.voltArith = true ∧ s.params.offset.isFinite s.params.voltArith = false := ⟨rfl, rfl, by decide +kernel, rfl⟩
theorem test_witness_NonFinite_interval :
    let s := { start .idle [.getState] [] [] with params := { testParams with pollInterval := 0 } }
    s.program = .getState :: [] ∧ HostOp.getState.needsConfiguration = true ∧
      s.params.vref.isFinite s.params.voltArith = true ∧ s.params.offset.isFinite s.params.voltArith = true ∧ ¬ 0 < s.params.pollInterval :=
  ⟨rfl, rfl, by decide +kernel, by decide +kernel, by decide +kernel⟩
theorem test_witness_SampleStages :
    (0x800000 : Code24).getLsbD 23 = true ∧ (0x7FFFFF : Code24).getLsbD 23 = false ∧
      assemble 0x80 0 0 = (0x800000 : Code24) ∧ assemble 0x7F 0xFF 0xFF = (0x7FFFFF : Code24) := by decide
theorem test_witness_SignExtension :
    isRawSample (-8388608) = true ∧ isRawSample 8388607 = true ∧
      (signExtend 0x800000).toInt = (signExtend 0x800000).toInt := by decide
theorem test_witness_Fraction :
    isRawSample (-8388608) = true ∧ isRawSample 0 = true ∧ testParams.voltArith = .binary64 := by decide
/-- The hypotheses of the rounding clause, with a negative VREF and with OFFSET = 0 for its last corner. -/
theorem test_witness_Fraction_rounding :
    let c := { testParams with vref := .finite (-2048 / 1000), offset := .finite 0 }
    c.voltArith = .binary64 ∧ c.vref = .finite (-2048 / 1000) ∧ c.offset = .finite 0 ∧
      c.vref.isFinite .binary64 = true ∧ c.offset.isFinite .binary64 = true ∧ isRawSample (-8388608) = true ∧ isRawSample 0 = true :=
  ⟨rfl, rfl, rfl, by decide +kernel, by decide +kernel, rfl, rfl⟩
theorem test_witness_Voltages :
    testParams.voltArith = .binary64 ∧ testParams.vref = .finite (2048 / 1000) ∧
      testParams.offset = .finite (224 / 100000) ∧ |(2048 / 1000 : ℚ)| < 2 ^ 1000 ∧ |(224 / 100000 : ℚ)| < 2 ^ 1000 ∧
      (0 : ℚ) < 2048 / 1000 ∧ isRawSample (-8388608) = true ∧ isRawSample 8388607 = true ∧ (-8388608 : Int) ≤ 8388607 ∧ (8388606 : Int) < 8388607 := by
  decide +kernel
theorem test_witness_ExactArithmetic :
    let c := { testParams with voltArith := .exact }
    let s := { start .idle [.rawToVoltage 1] [] [] with params := c }
    c.voltArith = .exact ∧ c.vref = .finite (2048 / 1000) ∧ c.offset = .finite (224 / 100000) ∧ s.params = c ∧
      0 < c.pollInterval ∧ s.phase = .idle ∧ s.program = .rawToVoltage 1 :: [] :=
  ⟨rfl, rfl, rfl, rfl, by decide +kernel, rfl, rfl⟩
theorem test_witness_TraceGrows : step emitting = .next (after emitting) := step_after _ (by decide +kernel)
theorem test_witness_ProfileWriters :
    let s := start .idle [.initialise 0 255 1 2] [] []
    step s = .next (after s) ∧ (after s).profile ≠ s.profile ∧ (after s).profileWritten ≠ s.profileWritten :=
  ⟨step_after _ (by decide +kernel), by decide +kernel, by decide +kernel⟩
theorem test_witness_DeviceStateWriters_configured :
    step verified = .next (after verified) ∧ (after verified).devState ≠ verified.devState ∧
      (after verified).devState = .configured := ⟨step_after _ (by decide +kernel), by decide +kernel, by decide +kernel⟩
theorem test_witness_DeviceStateWriters_pending :
    step triggering = .next (after triggering) ∧ (after triggering).devState ≠ triggering.devState ∧
      (after triggering).devState = .conversionPending :=
  ⟨step_after _ (by decide +kernel), by decide +kernel, by decide +kernel⟩
theorem test_witness_DeviceStateWriters_ready :
    step reading = .next (after reading) ∧ (after reading).devState ≠ reading.devState ∧
      (after reading).devState = .sampleReady := ⟨step_after _ (by decide +kernel), by decide +kernel, by decide +kernel⟩
theorem test_witness_DeviceStateWriters_faulted :
    let s := waiting .waitPoll .acquire 4 [.high] [4]
    step s = .next (after s) ∧ (after s).devState ≠ s.devState ∧ (after s).devState = .faulted :=
  ⟨step_after _ (by decide +kernel), by decide +kernel, by decide +kernel⟩
theorem test_witness_DeviceStateWriters_uninitialized :
    let s := { start .initProbe [] [.response [0, 0xFF]] [] with devState := .configured }
    step s = .next (after s) ∧ (after s).devState ≠ s.devState ∧ (after s).devState = .uninitialized :=
  ⟨step_after _ (by decide +kernel), by decide +kernel, by decide +kernel⟩
theorem test_witness_ConfiguredOnlyAfterVerify :
    verified.coherent = true ∧ step verified = .next (after verified) ∧ (after verified).devState = .configured ∧
      verified.devState.settled = true ∧ verified.devState ≠ .configured :=
  ⟨by decide +kernel, step_after _ (by decide +kernel), by decide +kernel, rfl, by decide⟩
theorem test_witness_OneResult :
    verified.phase ≠ .idle ∧ step verified = .next (after verified) ∧ (after verified).phase = .idle ∧
      reading.phase ≠ .idle ∧ step reading = .next (after reading) ∧ (after reading).phase ≠ .idle :=
  ⟨by decide, step_after _ (by decide +kernel), by decide +kernel, by decide, step_after _ (by decide +kernel),
    by decide +kernel⟩
/-- An operation that ends in the step that takes it; and no operation at all. -/
theorem test_witness_OneResult_idle :
    let s := start .idle [.getState] [] []
    step s = .next (after s) ∧ s.program ≠ [] ∧ (after s).phase = .idle ∧
      step (start .idle [] [] []) = .next (after (start .idle [] [] [])) ∧ (start .idle [] [] []).phase = .idle ∧
      (start .idle [] [] []).program = [] :=
  ⟨step_after _ (by decide +kernel), by decide, by decide +kernel, step_after _ (by decide +kernel), rfl, rfl⟩
theorem test_witness_StepKeepsCoherence :
    emitting.coherent = true ∧ step emitting = .next (after emitting) := ⟨by decide +kernel, step_after _ (by decide +kernel)⟩
theorem test_witness_StepKeepsFramesAllowed :
    ({ reading with trace := [.xfer [0x08] [0]] } : State).framesAllowed = true ∧
      step reading = .next (after reading) := ⟨by decide, step_after _ (by decide +kernel)⟩
/-- A read after START and a low poll; a settle open after RESET. -/
theorem test_witness_StepKeepsHazards :
    reading.params.valid = true ∧
      ({ reading with trace := [.xfer [0x08] [0], .clock 0, .level .low] } : State).hazardInvariant = true ∧
      ({ start .initSettle [] [] [] with trace := [.xfer [0x06] [0]] } : State).hazardInvariant = true ∧
      answers { reading with trace := [.xfer [0x08] [0], .clock 0, .level .low] } = true :=
  ⟨test_params_valid, by decide +kernel, by decide +kernel, by decide +kernel⟩
theorem test_witness_StepKeepsRecords :
    emitting.latchesFit = true ∧ emitting.recordsFit = true ∧ step emitting = .next (after emitting) :=
  ⟨by decide +kernel, by decide +kernel, step_after _ (by decide +kernel)⟩
theorem test_witness_StepKeepsWaitCount :
    (waiting .waitSleep .host 4 [] [] 3).waitFits = true ∧
      step (waiting .waitSleep .host 4 [] [] 3) = .next (after (waiting .waitSleep .host 4 [] [] 3)) :=
  ⟨by decide +kernel, step_after _ (by decide +kernel)⟩

end Sys2Proof.Tests
end

section
/-! PROOF. Rules of the state's operations that the proofs about every step share: the two outcomes of a
sending phase, and the fields that no phase writes. -/

namespace Sys2Proof.Machine

/-- A transfer that completes adds its event. -/
@[simp] theorem State.afterTransfer_trace (s : State) (out r : Frame) :
    (s.afterTransfer out r).trace = s.trace ++ [.xfer out r] := rfl

/-- A bus fault adds the transfer's event and the operation's result (60_exceptions R236). -/
@[simp] theorem State.busFault_trace (s : State) (i : Instr) (e : Event) :
    (s.busFault i e).trace =
      s.trace ++ [e, .result (.err (.busError s.phase s.phase.register (encode i)))] := by
  simp [State.busFault]

/-- To show a property of the state after a sending phase, show it where the phase goes on with a response and
where a bus fault ends the operation. -/
theorem State.sendThen_induction {P : State → Prop} {s : State} {i : Instr} {andThen : State → Frame → State}
    (response : ∀ r, P (andThen (s.afterTransfer (encode i) r) r)) (busFault : ∀ e, P (s.busFault i e)) :
    P (s.sendThen i andThen) := by
  obtain ⟨r, -, h⟩ | ⟨e, -, h⟩ := s.sendThen_cases i andThen
  · exact h ▸ response r
  · exact h ▸ busFault e

/-! ### The fields that no phase writes -/

/-- `t` has the events, the parameters and the PROFILE of `s`, and perhaps more events (10_state R38, R39). -/
structure State.Extends (s t : State) : Prop where
  trace : s.trace <+: t.trace
  params : t.params = s.params
  profile : t.profile = s.profile
  profileWritten : t.profileWritten = s.profileWritten

theorem State.Extends.refl (s : State) : s.Extends s := ⟨by simp, rfl, rfl, rfl⟩

theorem State.extends_codecCall (s : State) (rest : List HostOp) (i : Instr) :
    s.Extends (({ s with program := rest } : State).codecCall i) := by
  obtain ⟨r, h⟩ := ({ s with program := rest } : State).codecCall_cases i
  rw [h]
  exact ⟨by simp, rfl, rfl, rfl⟩

/-- A sending phase extends the state where its rule for a response does. -/
theorem State.extends_sendThen {s : State} {i : Instr} {andThen : State → Frame → State}
    (h : ∀ (t : State) (r : Frame), t.Extends (andThen t r)) : s.Extends (s.sendThen i andThen) := by
  refine sendThen_induction (fun r => ?_) fun e => ⟨by simp, rfl, rfl, rfl⟩
  obtain ⟨htrace, hparams, hprofile, hwritten⟩ := h (s.afterTransfer (encode i) r) r
  have hsent : s.trace <+: (s.afterTransfer (encode i) r).trace := by simp
  exact ⟨hsent.trans htrace, hparams, hprofile, hwritten⟩

theorem extends_phaseProbe (s : State) : s.Extends (phaseProbe s) := by
  refine State.extends_sendThen fun t r => ?_
  dsimp only
  split
  · exact ⟨by simp, rfl, rfl, rfl⟩
  · exact ⟨by simp, rfl, rfl, rfl⟩

theorem extends_phaseTrigger (s : State) : s.Extends (phaseTrigger s) := by
  unfold phaseTrigger
  split
  · exact State.extends_sendThen fun t r => ⟨by simp, rfl, rfl, rfl⟩
  · exact ⟨by simp, rfl, rfl, rfl⟩

theorem extends_phaseCheck (s : State) : s.Extends (phaseCheck s) := by
  obtain ⟨-, h⟩ | ⟨-, h⟩ := phaseCheck_cases s <;> rw [h] <;> exact ⟨by simp, rfl, rfl, rfl⟩

theorem extends_phasePoll (s : State) : s.Extends (phasePoll s) := by
  obtain ⟨-, -, h⟩ | ⟨-, -, h⟩ | ⟨-, -, h⟩ | ⟨-, -, h⟩ := phasePoll_cases s <;> rw [h] <;>
    exact ⟨by simp, rfl, rfl, rfl⟩

theorem extends_enterWait (caller : WaitCaller) (d b : ℚ) (s : State) (rest : List HostOp) :
    s.Extends (enterWait caller d b { s with program := rest }) := by
  obtain ⟨-, h⟩ | ⟨-, h⟩ := enterWait_cases caller d b { s with program := rest } <;> rw [h] <;>
    exact ⟨by simp, rfl, rfl, rfl⟩

/-- Every step extends the state but the entries of `construct` and of `initialize`, which write PROFILE. -/
theorem StepTo.extends_or_writesProfile {s t : State} (h : StepTo s t) :
    s.Extends t ∨
      (∃ rest, s.phase = .idle ∧ s.program = .construct :: rest ∧ t = opConstruct { s with program := rest }) ∨
      ∃ p0 p1 p2 p3 rest, s.phase = .idle ∧ s.program = .initialise p0 p1 p2 p3 :: rest ∧ t = { s with
        program := rest, profile := profileBytes p0 p1 p2 p3, profileWritten := true, phase := .initReset } := by
  cases h with
  | construct rest hi hp => exact .inr (.inl ⟨rest, hi, hp, rfl⟩)
  | initialise p0 p1 p2 p3 rest hi hp => exact .inr (.inr ⟨p0, p1, p2, p3, rest, hi, hp, rfl⟩)
  | wait => exact .inl (.refl s)
  | call i op rest => exact .inl (s.extends_codecCall rest i)
  | report op rest r => exact .inl ⟨by simp, rfl, rfl, rfl⟩
  | waitReady d b rest => exact .inl (extends_enterWait .host d b s rest)
  | acquire rest => exact .inl ⟨by simp, rfl, rfl, rfl⟩
  | reset => exact .inl (State.extends_sendThen fun t r => ⟨by simp, rfl, rfl, rfl⟩)
  | settle => exact .inl ⟨by simp [phaseSettle], rfl, rfl, rfl⟩
  | probe => exact .inl (extends_phaseProbe s)
  | write i => exact .inl (State.extends_sendThen fun t r => ⟨by simp, rfl, rfl, rfl⟩)
  | verify i => exact .inl (State.extends_sendThen fun t r => ⟨by simp, rfl, rfl, rfl⟩)
  | check => exact .inl (extends_phaseCheck s)
  | poll => exact .inl (extends_phasePoll s)
  | sleep => exact .inl ⟨by simp [phaseSleep], rfl, rfl, rfl⟩
  | trigger => exact .inl (extends_phaseTrigger s)
  | sync => exact .inl (extends_enterWait .acquire _ _ s s.program)
  | read => exact .inl (State.extends_sendThen fun t r => ⟨by simp, rfl, rfl, rfl⟩)
  | convert => exact .inl ⟨by simp [phaseConvert], rfl, rfl, rfl⟩
  | emit => exact .inl ⟨by simp [phaseEmit], rfl, rfl, rfl⟩

/-- Every step keeps the events so far and the parameters. -/
theorem StepTo.trace_and_params {s t : State} (h : StepTo s t) : s.trace <+: t.trace ∧ t.params = s.params := by
  obtain hext | ⟨rest, -, -, rfl⟩ | ⟨p0, p1, p2, p3, rest, -, -, rfl⟩ := h.extends_or_writesProfile
  · exact ⟨hext.trace, hext.params⟩
  · exact ⟨by simp [opConstruct], rfl⟩
  · exact ⟨by simp, rfl⟩

/-- Settles O50: no operation writes a parameter or takes back an event. -/
theorem traceGrowsAndParametersStay : Obligations.TraceGrowsAndParametersStay := by
  intro s t h
  obtain ⟨⟨events, htrace⟩, hparams⟩ := (step_inversion h).trace_and_params
  exact ⟨⟨events, htrace.symm⟩, hparams⟩

/-- Settles O51: a step that does not extend the state is the entry of `construct` or of `initialize`. -/
theorem profileWriters : Obligations.ProfileWriters := by
  intro s t h hne
  obtain hext | ⟨rest, hi, hp, rfl⟩ | ⟨p0, p1, p2, p3, rest, hi, hp, rfl⟩ :=
    (step_inversion h).extends_or_writesProfile
  · exact absurd hext.profileWritten (hne.resolve_left (not_not_intro hext.profile))
  · exact ⟨hi, _, rest, hp, .inl ⟨rfl, rfl⟩⟩
  · exact ⟨hi, _, rest, hp, .inr ⟨p0, p1, p2, p3, rfl, rfl, rfl⟩⟩

end Sys2Proof.Machine
end

section
/-! PROOF. DeviceState agrees with the phase and transient bookkeeping with its life: what coherence says in each
group of phases, and that every step keeps it (10_state R36 to R38, R42, R45, 43_sequencer R210 to R215). -/

namespace Sys2Proof.Machine

/-! ### What coherence says, by phase -/

theorem coherent_idle_iff {s : State} (h : s.phase = .idle) :
    s.coherent = true ↔ s.params.valid = true ∧ s.devState.settled = true ∧ s.discard = s := by
  simp [State.coherent, State.devStateFits, State.bookkeepingFits, h, Phase.initialising, and_assoc]

theorem coherent_initialising_iff {s : State} (h : s.phase.initialising = true) :
    s.coherent = true ↔ s.params.valid = true ∧ s.devState.settled = true ∧ s.profileWritten = true := by
  have hbusy : s.phase ≠ .idle := fun hi => by simp [hi, Phase.initialising] at h
  have hfits : s.devStateFits = s.devState.settled := by
    unfold State.devStateFits
    cases hp : s.phase <;> simp_all [Phase.initialising]
  simp [State.coherent, State.bookkeepingFits, hfits, hbusy, h, and_assoc]

theorem coherent_acqTrigger_iff {s : State} (h : s.phase = .acqTrigger) :
    s.coherent = true ↔ s.params.valid = true ∧ s.devState.settled = true := by
  simp [State.coherent, State.devStateFits, State.bookkeepingFits, h, Phase.initialising]

theorem coherent_pending_iff {s : State} (h : s.phase = .acqSync ∨ s.phase = .acqRead) :
    s.coherent = true ↔ s.params.valid = true ∧ s.devState = .conversionPending := by
  obtain h | h := h <;> simp [State.coherent, State.devStateFits, State.bookkeepingFits, h, Phase.initialising]

theorem coherent_ready_iff {s : State} (h : s.phase = .acqConvert ∨ s.phase = .acqEmit) :
    s.coherent = true ↔ s.params.valid = true ∧ s.devState = .sampleReady := by
  obtain h | h := h <;> simp [State.coherent, State.devStateFits, State.bookkeepingFits, h, Phase.initialising]

theorem coherent_hostWait_iff {s : State} (h : s.phase = .waitPoll ∨ s.phase = .waitSleep)
    (hc : s.wait.caller = .host) :
    s.coherent = true ↔ s.params.valid = true ∧ s.devState.settled = true := by
  obtain h | h := h <;> simp [State.coherent, State.devStateFits, State.bookkeepingFits, h, hc, Phase.initialising]

theorem coherent_cycleWait_iff {s : State} (h : s.phase = .waitPoll ∨ s.phase = .waitSleep)
    (hc : s.wait.caller = .acquire) :
    s.coherent = true ↔ s.params.valid = true ∧ s.devState = .conversionPending := by
  obtain h | h := h <;> simp [State.coherent, State.devStateFits, State.bookkeepingFits, h, hc, Phase.initialising]

theorem valid_of_coherent {s : State} (h : s.coherent = true) : s.params.valid = true := by
  simp only [State.coherent, Bool.and_eq_true] at h
  exact h.1.1

/-- A valid configuration has a positive poll interval (00_scope R10). -/
theorem Params.pollInterval_pos {c : Params} (h : c.valid = true) : 0 < c.pollInterval := by
  have herr : configurationError c = none := by simp_all [Params.valid]
  unfold configurationError pollIntervalError at herr
  split_ifs at herr
  assumption

/-! ### How a step ends or goes on -/

/-- The end of an operation is coherent where DeviceState is a lasting value. -/
theorem coherent_finish {s : State} (r : OpResult) (hv : s.params.valid = true) (hd : s.devState.settled = true) :
    (s.finish r).coherent = true :=
  (coherent_idle_iff rfl).mpr ⟨hv, hd, rfl⟩

theorem coherent_raise {s : State} {d : DeviceState} (e : Err) (hv : s.params.valid = true)
    (hd : d.settled = true) : (s.raise d e).coherent = true :=
  coherent_finish _ hv hd

theorem coherent_complete {s : State} {d : DeviceState} (x : OkValue) (hv : s.params.valid = true)
    (hd : d.settled = true) : (s.complete d x).coherent = true :=
  coherent_finish _ hv hd

/-- A sending phase is coherent after it where its rule for a response is: a bus fault always is. -/
theorem coherent_sendThen {s : State} {i : Instr} {andThen : State → Frame → State} (hv : s.params.valid = true)
    (h : ∀ r, (andThen (s.afterTransfer (encode i) r) r).coherent = true) :
    (s.sendThen i andThen).coherent = true :=
  State.sendThen_induction (P := fun t => t.coherent = true) h fun _ => coherent_raise _ hv rfl

/-- A step in IDLE that only takes an operation off the program and adds events keeps coherence. -/
theorem coherent_idle_of_events {s : State} (hi : s.phase = .idle) (hs : s.coherent = true) (rest : List HostOp)
    (events : List Event) : ({ s with program := rest, trace := events } : State).coherent = true := by
  obtain ⟨hv, hd, hdiscard⟩ := (coherent_idle_iff hi).mp hs
  have hkeep : ({ s.discard with program := rest, trace := events } : State) =
      { s with program := rest, trace := events } := by rw [hdiscard]
  exact (coherent_idle_iff (s := { s with program := rest, trace := events }) hi).mpr ⟨hv, hd, hkeep⟩

theorem coherent_codecCall {s : State} (hi : s.phase = .idle) (hs : s.coherent = true) (rest : List HostOp)
    (i : Instr) : (({ s with program := rest } : State).codecCall i).coherent = true := by
  obtain ⟨r, h⟩ := ({ s with program := rest } : State).codecCall_cases i
  rw [h]
  exact coherent_idle_of_events hi hs rest _

theorem initialising_afterWrite (i : Fin 4) : (Phase.afterWrite i).initialising = true := by
  fin_cases i <;> rfl

theorem initialising_afterVerify (i : Fin 4) : (Phase.afterVerify i).initialising = true := by
  fin_cases i <;> rfl

/-! ### Each phase keeps coherence -/

theorem coherent_hostEnterWait {s : State} (d b : ℚ) (hv : s.params.valid = true)
    (hd : s.devState.settled = true) : (enterWait .host d b s).coherent = true := by
  obtain ⟨-, h⟩ | ⟨-, h⟩ := enterWait_cases .host d b s
  · rw [h]
    exact (coherent_hostWait_iff (.inl rfl) rfl).mpr ⟨hv, hd⟩
  · rw [h]
    exact coherent_finish _ hv hd

/-- The wait of a cycle always starts, since a valid configuration has a positive poll interval. -/
theorem coherent_phaseSync {s : State} (hv : s.params.valid = true) (hd : s.devState = .conversionPending) :
    (phaseSync s).coherent = true := by
  obtain ⟨-, h⟩ | ⟨hneg, -⟩ := enterWait_cases .acquire s.params.pollInterval s.params.drdyTimeout s
  · rw [phaseSync, h]
    exact (coherent_cycleWait_iff (.inl rfl) rfl).mpr ⟨hv, hd⟩
  · exact absurd (Params.pollInterval_pos hv) hneg

theorem coherent_phaseProbe {s : State} (hv : s.params.valid = true) (hd : s.devState.settled = true)
    (hw : s.profileWritten = true) : (phaseProbe s).coherent = true := by
  refine coherent_sendThen hv fun r => ?_
  dsimp only
  split
  · exact coherent_raise _ hv rfl
  · exact (coherent_initialising_iff rfl).mpr ⟨hv, hd, hw⟩

theorem coherent_phaseCheck {s : State} (hv : s.params.valid = true) : (phaseCheck s).coherent = true := by
  obtain ⟨-, h⟩ | ⟨-, h⟩ := phaseCheck_cases s
  · exact h ▸ coherent_complete _ hv rfl
  · exact h ▸ coherent_raise _ hv rfl

theorem coherent_phaseTrigger {s : State} (hv : s.params.valid = true) (hd : s.devState.settled = true) :
    (phaseTrigger s).coherent = true := by
  unfold phaseTrigger
  split
  · exact coherent_sendThen hv fun r => (coherent_pending_iff (.inl rfl)).mpr ⟨hv, rfl⟩
  · exact coherent_raise _ hv hd

/-- A wait that goes on for the same caller keeps coherence. -/
theorem coherent_wait_of_wait {s t : State} (hp : s.phase = .waitPoll ∨ s.phase = .waitSleep)
    (hs : s.coherent = true) (ht : t.phase = .waitPoll ∨ t.phase = .waitSleep)
    (hc : t.wait.caller = s.wait.caller) (hparams : t.params = s.params) (hd : t.devState = s.devState) :
    t.coherent = true := by
  cases h : s.wait.caller with
  | host =>
    rw [coherent_hostWait_iff ht (hc.trans h), hparams, hd]
    exact (coherent_hostWait_iff hp h).mp hs
  | acquire =>
    rw [coherent_cycleWait_iff ht (hc.trans h), hparams, hd]
    exact (coherent_cycleWait_iff hp h).mp hs

theorem coherent_phasePoll {s : State} (hp : s.phase = .waitPoll) (hs : s.coherent = true) :
    (phasePoll s).coherent = true := by
  have hv := valid_of_coherent hs
  obtain ⟨-, hc, h⟩ | ⟨-, hc, h⟩ | ⟨-, -, h⟩ | ⟨-, -, h⟩ := phasePoll_cases s
  · rw [h]
    exact coherent_complete _ hv ((coherent_hostWait_iff (.inl hp) hc).mp hs).2
  · rw [h]
    exact (coherent_pending_iff (.inr rfl)).mpr ((coherent_cycleWait_iff (.inl hp) hc).mp hs)
  · rw [h]
    exact coherent_wait_of_wait (.inl hp) hs (.inr rfl) rfl rfl rfl
  · rw [h]
    refine coherent_raise _ hv ?_
    split
    · rename_i hc
      exact ((coherent_hostWait_iff (.inl hp) hc).mp hs).2
    · rfl

/-- Every step keeps coherence. -/
theorem StepTo.coherent {s t : State} (h : StepTo s t) (hs : s.coherent = true) : t.coherent = true := by
  have hv := valid_of_coherent hs
  have idle (hp : s.phase = .idle) : s.devState.settled = true := ((coherent_idle_iff hp).mp hs).2.1
  have init (hp : s.phase.initialising = true) := ((coherent_initialising_iff hp).mp hs).2
  cases h with
  | wait => exact hs
  | call i op rest hp => exact coherent_codecCall hp hs rest i
  | report op rest r hp => exact coherent_idle_of_events hp hs rest _
  | construct rest hp => exact coherent_complete _ hv rfl
  | initialise p0 p1 p2 p3 rest hp => exact (coherent_initialising_iff rfl).mpr ⟨hv, idle hp, rfl⟩
  | waitReady d b rest hp => exact coherent_hostEnterWait d b hv (idle hp)
  | acquire rest hp => exact (coherent_acqTrigger_iff rfl).mpr ⟨hv, idle hp⟩
  | reset hp =>
    exact coherent_sendThen hv fun r => (coherent_initialising_iff rfl).mpr ⟨hv, init (by rw [hp]; rfl)⟩
  | settle hp => exact (coherent_initialising_iff rfl).mpr ⟨hv, init (by rw [hp]; rfl)⟩
  | probe hp =>
    obtain ⟨hd, hw⟩ := init (by rw [hp]; rfl)
    exact coherent_phaseProbe hv hd hw
  | write i hp =>
    exact coherent_sendThen hv fun r =>
      (coherent_initialising_iff (initialising_afterWrite i)).mpr ⟨hv, init (by rw [hp]; rfl)⟩
  | verify i hp =>
    exact coherent_sendThen hv fun r =>
      (coherent_initialising_iff (initialising_afterVerify i)).mpr ⟨hv, init (by rw [hp]; rfl)⟩
  | check => exact coherent_phaseCheck hv
  | poll hp => exact coherent_phasePoll hp hs
  | sleep hp => exact coherent_wait_of_wait (.inr hp) hs (.inl rfl) rfl rfl rfl
  | trigger hp => exact coherent_phaseTrigger hv ((coherent_acqTrigger_iff hp).mp hs).2
  | sync hp => exact coherent_phaseSync hv ((coherent_pending_iff (.inl hp)).mp hs).2
  | read => exact coherent_sendThen hv fun r => (coherent_ready_iff (.inl rfl)).mpr ⟨hv, rfl⟩
  | convert hp => exact (coherent_ready_iff (.inr rfl)).mpr ((coherent_ready_iff (.inl hp)).mp hs)
  | emit => exact coherent_complete _ hv rfl

/-- Settles O56, by the cases of a step: each phase's rule leads from what coherence says of it to what coherence
says of the next phase. -/
theorem stepKeepsCoherence : Obligations.StepKeepsCoherence :=
  fun _ _ hs h => (step_inversion h).coherent hs

end Sys2Proof.Machine
end

section
/-! PROOF. The writers of DeviceState (10_state R37). -/

namespace Sys2Proof.Machine

/-- The rules of the table of 10_state R37: where a step from `s` may write the DeviceState. -/
def State.mayWrite (s : State) : DeviceState → Prop
  | .uninitialized => (∃ rest, s.phase = .idle ∧ s.program = .construct :: rest) ∨ s.phase = .initProbe
  | .configured => s.phase = .initCheck ∨ s.phase = .acqEmit
  | .conversionPending => s.phase = .acqTrigger ∧ s.devState = .configured
  | .sampleReady => s.phase = .acqRead
  | .faulted => s.phase = .initCheck ∨ (s.phase = .waitPoll ∧ s.wait.caller = .acquire) ∨ s.command ≠ none

/-- A sending phase writes DeviceState as its rule for a response does, or Faulted. -/
theorem State.writes_sendThen {s : State} {i : Instr} {andThen : State → Frame → State} (hc : s.command ≠ none)
    (h : ∀ r, (andThen (s.afterTransfer (encode i) r) r).devState = s.devState ∨
      s.mayWrite (andThen (s.afterTransfer (encode i) r) r).devState) :
    (s.sendThen i andThen).devState = s.devState ∨ s.mayWrite (s.sendThen i andThen).devState :=
  State.sendThen_induction (P := fun t => t.devState = s.devState ∨ s.mayWrite t.devState) h
    fun _ => .inr (.inr (.inr hc))

theorem enterWait_devState (caller : WaitCaller) (d b : ℚ) (s : State) :
    (enterWait caller d b s).devState = s.devState := by
  obtain ⟨-, h⟩ | ⟨-, h⟩ := enterWait_cases caller d b s
  · exact h ▸ rfl
  · exact h ▸ rfl

theorem writes_phaseProbe {s : State} (hp : s.phase = .initProbe) :
    (phaseProbe s).devState = s.devState ∨ s.mayWrite (phaseProbe s).devState := by
  refine State.writes_sendThen (by simp [State.command, hp]) fun r => ?_
  dsimp only
  split
  · exact .inr (.inr hp)
  · exact .inl rfl

theorem writes_phaseCheck {s : State} (hp : s.phase = .initCheck) : s.mayWrite (phaseCheck s).devState := by
  obtain ⟨-, h⟩ | ⟨-, h⟩ := phaseCheck_cases s
  · rw [h]
    exact .inl hp
  · rw [h]
    exact .inl hp

theorem writes_phasePoll {s : State} (hp : s.phase = .waitPoll) :
    (phasePoll s).devState = s.devState ∨ s.mayWrite (phasePoll s).devState := by
  obtain ⟨-, -, h⟩ | ⟨-, -, h⟩ | ⟨-, -, h⟩ | ⟨-, -, h⟩ := phasePoll_cases s
  · exact .inl (h ▸ rfl)
  · exact .inl (h ▸ rfl)
  · exact .inl (h ▸ rfl)
  · rw [h, State.raise_devState]
    cases hc : s.wait.caller with
    | host => exact .inl rfl
    | acquire => exact .inr (.inr (.inl ⟨hp, hc⟩))

theorem writes_phaseTrigger {s : State} (hp : s.phase = .acqTrigger) :
    (phaseTrigger s).devState = s.devState ∨ s.mayWrite (phaseTrigger s).devState := by
  unfold phaseTrigger
  split
  · rename_i hd
    exact State.writes_sendThen (by simp [State.command, hp]) fun r => .inr ⟨hp, hd⟩
  · exact .inl rfl

/-- Every step leaves DeviceState or writes a value that the table lets it write. -/
theorem StepTo.writes {s t : State} (h : StepTo s t) : t.devState = s.devState ∨ s.mayWrite t.devState := by
  cases h with
  | wait => exact .inl rfl
  | call i op rest =>
    obtain ⟨r, h⟩ := ({ s with program := rest } : State).codecCall_cases i
    exact .inl (h ▸ rfl)
  | report => exact .inl rfl
  | construct rest hi hp => exact .inr (.inl ⟨rest, hi, hp⟩)
  | initialise => exact .inl rfl
  | waitReady d b rest => exact .inl (enterWait_devState .host d b _)
  | acquire => exact .inl rfl
  | reset hp => exact State.writes_sendThen (by simp [State.command, hp]) fun r => .inl rfl
  | settle => exact .inl rfl
  | probe hp => exact writes_phaseProbe hp
  | write i hp => exact State.writes_sendThen (by simp [State.command, hp]) fun r => .inl rfl
  | verify i hp => exact State.writes_sendThen (by simp [State.command, hp]) fun r => .inl rfl
  | check hp => exact .inr (writes_phaseCheck hp)
  | poll hp => exact writes_phasePoll hp
  | sleep => exact .inl rfl
  | trigger hp => exact writes_phaseTrigger hp
  | sync => exact .inl (enterWait_devState .acquire _ _ s)
  | read hp => exact State.writes_sendThen (by simp [State.command, hp]) fun r => .inr hp
  | convert => exact .inl rfl
  | emit hp => exact .inr (.inr hp)

/-- Settles O52: a DeviceState that changed was written, and the table names the writer of each value. -/
theorem deviceStateWriters : Obligations.DeviceStateWriters := by
  intro s t h hne
  have hw : s.mayWrite t.devState := (step_inversion h).writes.resolve_left hne
  refine ⟨?_, ?_, ?_, ?_, ?_⟩ <;> (intro e; rwa [e] at hw)

end Sys2Proof.Machine
end

section
/-! PROOF. What a step fetches: the decoded command line, the encoder call, the phase's own command, or a host
operation that is no command (10_state R34, R44, 20_memory R60). -/

namespace Sys2Proof.Machine

/-- The command a phase sends is the one its frame decodes to (30_encoding R82). -/
theorem State.command_decodes {s : State} {i : Instr} (h : s.command = some i) :
    decodeFrame (encode i) = some i := by
  unfold State.command at h
  split at h
  all_goals cases h
  case h_1 => rfl
  case h_2 => rfl
  case h_3 j _ => exact decodeFrame_wreg j _
  case h_4 j _ => exact decodeFrame_rreg j
  case h_5 => rfl
  case h_6 => rfl

/-- IDLE sends no command. -/
theorem State.phase_ne_idle_of_command {s : State} {i : Instr} (h : s.command = some i) : s.phase ≠ .idle := by
  intro hi
  simp [State.command, hi] at h

theorem fetch_commandLine {s : State} {f : Frame} {rest : List HostOp} (hi : s.phase = .idle)
    (hp : s.program = .command f :: rest) : fetch s = fetchFrame f { s with program := rest } := by
  simp [fetch, hi, hp]

/-- Settles O6: a fetched command is executed in the state without its line. -/
theorem stepRunsTheDecodedCommand : Obligations.StepRunsTheDecodedCommand := by
  refine ⟨fun s f i rest hi hp hd => ?_, fun s i rest hi hp => ?_, fun s i hc => ?_, fun s f rest hi hp hd => ?_⟩
  · simp [step, fetch_commandLine hi hp, fetchFrame, hd]
  · simp [step, fetch, hi, hp]
  · exact step_sending s i (State.phase_ne_idle_of_command hc) hc (State.command_decodes hc)
  · simp [step, fetch_commandLine hi hp, fetchFrame, hd]

/-- In IDLE a host operation that is no command is run by the step that takes it, where the configuration is good
or the operation reads none (42_voltage_scaling R168). -/
theorem step_runOp {s : State} {op : HostOp} {rest : List HostOp} (hi : s.phase = .idle)
    (hp : s.program = op :: rest) (hencode : ∀ i, op ≠ .encodeCommand i) (hline : ∀ f, op ≠ .command f)
    (hc : configurationError s.params = none ∨ op.needsConfiguration = false) :
    step s = .next (runOp op { s with program := rest }) := by
  have hstart : startOp op { s with program := rest } = runOp op { s with program := rest } := by
    unfold startOp
    obtain hc | hc := hc
    · simp [hc]
    · cases configurationError s.params <;> simp [hc]
  rw [← hstart]
  cases op with
  | encodeCommand i => exact absurd rfl (hencode i)
  | command f => exact absurd rfl (hline f)
  | _ => simp [step, fetch, hi, hp, runPhase, phaseIdle]

/-- Settles O39: each pure call is run in its first step, where it reports its result. -/
theorem pureCalls : Obligations.PureCalls := by
  intro s rest x b0 b1 b2 hi
  refine ⟨fun hc hp => ?_, fun hp => ?_, fun hp => ?_, fun hp => ?_, fun raw hc hp => ?_⟩
  · exact step_runOp hi hp (by simp) (by simp) (.inl hc)
  · exact step_runOp hi hp (by simp) (by simp) (.inr rfl)
  · exact step_runOp hi hp (by simp) (by simp) (.inr rfl)
  · exact step_runOp hi hp (by simp) (by simp) (.inr rfl)
  · exact step_runOp hi hp (by simp) (by simp) (.inl hc)

end Sys2Proof.Machine
end

section
/-! PROOF. The codec: each class of command byte has its own bytes, and decoding a frame and encoding a well-formed
command are inverse to each other (30_encoding R70 to R86). -/

namespace Sys2Proof

/-! ### Command bytes -/

/-- The command byte of a class; NotACommand has none (30_encoding R80). -/
def CommandClass.byte : CommandClass → Option Byte
  | .powerdown => some 0x02
  | .reset => some 0x06
  | .start => some 0x08
  | .rdata => some 0x10
  | .rreg r => some (commandByte 0x20 (r.toNat : Int))
  | .wreg r => some (commandByte 0x40 (r.toNat : Int))
  | .notACommand => none

/-- The twelve command bytes (30_encoding R80). -/
def opcodeMap : List Byte := [0x02, 0x06, 0x08, 0x10, 0x20, 0x24, 0x28, 0x2C, 0x40, 0x44, 0x48, 0x4C]

theorem CommandClass.exists_byte_mem_opcodeMap {c : CommandClass} (h : c ≠ .notACommand) :
    ∃ y ∈ opcodeMap, c.byte = some y := by
  cases c with
  | rreg r => exact ⟨_, by revert r; decide, rfl⟩
  | wreg r => exact ⟨_, by revert r; decide, rfl⟩
  | notACommand => exact absurd rfl h
  | _ => exact ⟨_, by decide, rfl⟩

/-- A byte is its bits outside the register field together with that field (30_encoding R71, R76). -/
theorem commandByte_registerField (b : Byte) : commandByte (b &&& 0xF3) ((registerField b).toNat : Int) = b := by
  rw [commandByte, BitVec.ofInt_natCast, BitVec.ofNat_toNat, registerField]
  refine BitVec.eq_of_getLsbD_eq fun k hk => ?_
  interval_cases k <;> simp

/-- A command class is the class of its own byte and of no other (30_encoding R81, R82). -/
theorem classify_eq_iff {c : CommandClass} {y : Byte} (hy : c.byte = some y) (b : Byte) :
    classify b = c ↔ b = y := by
  constructor
  · intro h
    unfold classify at h
    split_ifs at h with h2 h6 h8 h10 hread hwrite
    all_goals subst h; cases hy
    · exact h2
    · exact h6
    · exact h8
    · exact h10
    · rw [← hread, commandByte_registerField]
    · rw [← hwrite, commandByte_registerField]
  · rintro rfl
    cases c with
    | rreg r => cases hy; revert r; decide
    | wreg r => cases hy; revert r; decide
    | notACommand => cases hy
    | _ => cases hy; rfl

/-- Settles O4: a byte of a command class is that class's byte, which stands in the opcode map. -/
theorem commandBytes : Obligations.CommandBytes := by
  refine ⟨rfl, rfl, rfl, rfl, rfl, rfl, rfl, rfl, rfl, rfl, rfl, rfl, fun b => ⟨fun hc hb => ?_, fun hb => ?_⟩⟩
  · have hclass : ∀ y ∈ opcodeMap, classify y ≠ .notACommand := by decide
    exact hclass b hb hc
  · by_contra hc
    obtain ⟨y, hmem, hy⟩ := CommandClass.exists_byte_mem_opcodeMap hc
    obtain rfl : b = y := (classify_eq_iff hy b).mp rfl
    exact hb hmem

/-! ### Operands -/

theorem isRegister_iff (r : Int) : isRegister r = true ↔ ∃ i : Fin 4, r = (i.val : Int) := by
  simp only [isRegister, Bool.and_eq_true, decide_eq_true_eq]
  constructor
  · rintro ⟨h0, h3⟩
    exact ⟨⟨r.toNat, by omega⟩, by simp [h0]⟩
  · rintro ⟨i, rfl⟩
    omega

theorem isByteValue_iff (v : Int) : isByteValue v = true ↔ ∃ b : Byte, v = (b.toNat : Int) := by
  simp only [isByteValue, Bool.and_eq_true, decide_eq_true_eq]
  constructor
  · rintro ⟨h0, h255⟩
    exact ⟨BitVec.ofInt 8 v, by simp; omega⟩
  · rintro ⟨b, rfl⟩
    omega

theorem wellFormed_rreg_iff (r : Int) : (Instr.rreg r).wellFormed = true ↔ ∃ i : Fin 4, r = (i.val : Int) :=
  isRegister_iff r

theorem wellFormed_wreg_iff (r v : Int) :
    (Instr.wreg r v).wellFormed = true ↔ (∃ i : Fin 4, r = (i.val : Int)) ∧ ∃ b : Byte, v = (b.toNat : Int) := by
  rw [← isRegister_iff, ← isByteValue_iff, ← Bool.and_eq_true_iff, Instr.wellFormed]

/-! ### Frames -/

/-- Decoding the frame of a well-formed command gives it back (30_encoding R72 to R77). -/
theorem decodeFrame_encode {i : Instr} (h : i.wellFormed = true) : decodeFrame (encode i) = some i := by
  cases i with
  | rreg r =>
    obtain ⟨j, rfl⟩ := (wellFormed_rreg_iff r).mp h
    exact Machine.decodeFrame_rreg j
  | wreg r v =>
    obtain ⟨⟨j, rfl⟩, b, rfl⟩ := (wellFormed_wreg_iff r v).mp h
    exact Machine.decodeFrame_wreg j b
  | _ => rfl

/-- The command byte of a well-formed command's frame says how long the frame is (30_encoding R86). -/
theorem frameLength_encode (i : Instr) : Laws.FrameLength.Statement i := by
  cases i with
  | powerdown => exact Laws.FrameLength.powerdown
  | reset => exact Laws.FrameLength.reset
  | start => exact Laws.FrameLength.start
  | rdata => exact Laws.FrameLength.rdata
  | rreg r => exact Laws.FrameLength.rreg r
  | wreg r v => exact Laws.FrameLength.wreg r v

/-- A frame that its command byte gives the right length is cut off the front of a byte sequence and decoded. -/
theorem decodeStream_append {b : Byte} {tail : Frame} (hlen : frameLength b = some (tail.length + 1))
    (rest : List Byte) :
    decodeStream (b :: tail ++ rest) = (decodeFrame (b :: tail)).map fun i => (i, rest) := by
  simp only [decodeStream, List.cons_append, hlen, List.take_succ_cons, List.take_left, List.drop_succ_cons,
    List.drop_left]
  cases decodeFrame (b :: tail) <;> rfl

/-- Settles O2: the command byte sets the frame's end, and the frame decodes to its command. -/
theorem decodeOfEncode : Obligations.DecodeOfEncode := by
  intro i rest h
  have hd := decodeFrame_encode h
  obtain ⟨b, tail, hframe, hlen⟩ := frameLength_encode i h
  refine ⟨hd, ?_⟩
  rw [hframe] at hd ⊢
  rw [decodeStream_append hlen, hd, Option.map_some]

theorem wellFormed_rreg_toNat (r : BitVec 2) : (Instr.rreg (r.toNat : Int)).wellFormed = true :=
  (wellFormed_rreg_iff _).mpr ⟨r.toFin, rfl⟩

theorem wellFormed_wreg_toNat (r : BitVec 2) (v : Byte) :
    (Instr.wreg (r.toNat : Int) (v.toNat : Int)).wellFormed = true :=
  (wellFormed_wreg_iff _ _).mpr ⟨⟨r.toFin, rfl⟩, v, rfl⟩

/-- Settles O3: the class of byte 0 fixes byte 0, and with it the bytes that may follow: none, dummies or a value. -/
theorem encodeOfDecode : Obligations.EncodeOfDecode := by
  intro f i h
  unfold decodeFrame at h
  split at h
  · cases h
  rename_i b _
  split at h
  case h_4 d1 d2 d3 hc =>
    obtain rfl := (classify_eq_iff rfl b).mp hc
    split_ifs at h with hdummy
    obtain ⟨rfl, rfl, rfl⟩ := hdummy
    cases h
    exact ⟨rfl, rfl⟩
  case h_5 r d hc =>
    obtain rfl := (classify_eq_iff rfl b).mp hc
    split_ifs at h with hdummy
    subst hdummy
    cases h
    exact ⟨wellFormed_rreg_toNat r, rfl⟩
  case h_6 r v hc =>
    obtain rfl := (classify_eq_iff rfl b).mp hc
    cases h
    exact ⟨wellFormed_wreg_toNat r v, by simp [encode]⟩
  case h_7 => cases h
  all_goals
    rename classify b = _ => hc
    obtain rfl := (classify_eq_iff rfl b).mp hc
    cases h
    exact ⟨rfl, rfl⟩

/-- Settles O5: each word is the frame of its command. -/
theorem writtenOutWords : Obligations.WrittenOutWords :=
  ⟨rfl, rfl, rfl, rfl, rfl, rfl⟩

end Sys2Proof
end

section
/-! PROOF. What the block puts on the bus: the frames of its phases' commands, never POWERDOWN (40_commands R102). -/

namespace Sys2Proof.Machine

/-- The frame of the command a phase sends is one the sequencer may send. -/
theorem State.sequencerFrame_of_command {s : State} {i : Instr} (h : s.command = some i) :
    sequencerFrame (encode i) = true := by
  unfold sequencerFrame
  rw [State.command_decodes h]
  cases i with
  | powerdown => unfold State.command at h; split at h <;> cases h
  | _ => rfl

/-- Events that are no transfers of other frames keep the frames allowed. -/
theorem framesAllowed_of_trace {s t : State} {events : List Event} (ht : t.trace = s.trace ++ events)
    (hs : s.framesAllowed = true) (he : events.all Event.frameAllowed = true) : t.framesAllowed = true := by
  rw [State.framesAllowed, ht, List.all_append, he, Bool.and_true]
  exact hs

/-- The end of an operation sends nothing. -/
theorem framesAllowed_finish (s : State) (r : OpResult) : (s.finish r).framesAllowed = s.framesAllowed := by
  simp [State.framesAllowed]

theorem framesAllowed_raise (s : State) (d : DeviceState) (e : Err) :
    (s.raise d e).framesAllowed = s.framesAllowed :=
  framesAllowed_finish { s with devState := d } _

theorem framesAllowed_complete (s : State) (d : DeviceState) (x : OkValue) :
    (s.complete d x).framesAllowed = s.framesAllowed :=
  framesAllowed_finish { s with devState := d } _

/-- A sending phase keeps the frames allowed where its rule for a response does. -/
theorem framesAllowed_sendThen {s : State} {i : Instr} {andThen : State → Frame → State} (hc : s.command = some i)
    (hs : s.framesAllowed = true)
    (h : ∀ (t : State) (r : Frame), t.framesAllowed = true → (andThen t r).framesAllowed = true) :
    (s.sendThen i andThen).framesAllowed = true := by
  have hframe := State.sequencerFrame_of_command hc
  obtain ⟨r, -, h'⟩ | ⟨e, hbus, h'⟩ := s.sendThen_cases i andThen
  · rw [h']
    exact h _ r (framesAllowed_of_trace (s.afterTransfer_trace _ r) hs (by simp [hframe]))
  · rw [h']
    have he : e.frameAllowed = true := (s.busErrorEvent_frameAllowed _ e hbus).trans hframe
    exact framesAllowed_of_trace (s.busFault_trace i e) hs (by simp [he])

theorem framesAllowed_phaseProbe {s : State} (hp : s.phase = .initProbe) (hs : s.framesAllowed = true) :
    (phaseProbe s).framesAllowed = true := by
  refine framesAllowed_sendThen (by simp [State.command, hp]) hs fun t r ht => ?_
  dsimp only
  split
  · rwa [framesAllowed_raise]
  · exact ht

theorem framesAllowed_phaseTrigger {s : State} (hp : s.phase = .acqTrigger) (hs : s.framesAllowed = true) :
    (phaseTrigger s).framesAllowed = true := by
  unfold phaseTrigger
  split
  · exact framesAllowed_sendThen (by simp [State.command, hp]) hs fun t r ht => ht
  · rwa [framesAllowed_raise]

theorem framesAllowed_phaseCheck {s : State} (hs : s.framesAllowed = true) :
    (phaseCheck s).framesAllowed = true := by
  obtain ⟨-, h⟩ | ⟨-, h⟩ := phaseCheck_cases s
  · rwa [h, framesAllowed_complete]
  · rwa [h, framesAllowed_raise]

/-- A high poll sends no frame. -/
theorem pollEvents_frameAllowed (period n : Nat) (now : ℚ) :
    (pollEvents period n now).all Event.frameAllowed = true := by
  cases h : progressDue period n <;> simp [pollEvents, h]

theorem framesAllowed_phasePoll {s : State} (hs : s.framesAllowed = true) : (phasePoll s).framesAllowed = true := by
  have hpoll := pollEvents_frameAllowed s.params.progressPeriod (s.wait.polls + 1) s.env.drawLevel.2.drawClock.1
  obtain ⟨-, -, h⟩ | ⟨-, -, h⟩ | ⟨-, -, h⟩ | ⟨-, -, h⟩ := phasePoll_cases s
  · rw [h, framesAllowed_complete]
    exact framesAllowed_of_trace rfl hs rfl
  · exact h ▸ framesAllowed_of_trace rfl hs rfl
  · exact h ▸ framesAllowed_of_trace rfl hs hpoll
  · rw [h, framesAllowed_raise]
    exact framesAllowed_of_trace rfl hs hpoll

theorem framesAllowed_enterWait {s : State} (caller : WaitCaller) (d b : ℚ) (hs : s.framesAllowed = true) :
    (enterWait caller d b s).framesAllowed = true := by
  obtain ⟨-, h⟩ | ⟨-, h⟩ := enterWait_cases caller d b s
  · exact h ▸ framesAllowed_of_trace rfl hs rfl
  · rwa [h, framesAllowed_finish]

/-- Every step keeps the frames allowed. -/
theorem StepTo.framesAllowed {s t : State} (h : StepTo s t) (hs : s.framesAllowed = true) :
    t.framesAllowed = true := by
  cases h with
  | wait => exact hs
  | call i op rest =>
    obtain ⟨r, h⟩ := ({ s with program := rest } : State).codecCall_cases i
    exact framesAllowed_of_trace (congrArg State.trace h) hs rfl
  | report => exact framesAllowed_of_trace rfl hs rfl
  | construct => exact (framesAllowed_complete ..).trans hs
  | initialise => exact hs
  | waitReady d b rest => exact framesAllowed_enterWait .host d b hs
  | acquire => exact hs
  | reset hp => exact framesAllowed_sendThen (by simp [State.command, hp]) hs fun t r ht => ht
  | settle => exact framesAllowed_of_trace rfl hs rfl
  | probe hp => exact framesAllowed_phaseProbe hp hs
  | write i hp =>
    exact framesAllowed_sendThen (by simp [State.command, hp]) hs fun t r ht => framesAllowed_of_trace rfl ht rfl
  | verify i hp => exact framesAllowed_sendThen (by simp [State.command, hp]) hs fun t r ht => ht
  | check => exact framesAllowed_phaseCheck hs
  | poll => exact framesAllowed_phasePoll hs
  | sleep => exact framesAllowed_of_trace rfl hs rfl
  | trigger hp => exact framesAllowed_phaseTrigger hp hs
  | sync => exact framesAllowed_enterWait .acquire _ _ hs
  | read hp => exact framesAllowed_sendThen (by simp [State.command, hp]) hs fun t r ht => ht
  | convert => exact hs
  | emit =>
    refine (framesAllowed_complete ..).trans ?_
    simpa [State.framesAllowed] using hs

/-- Settles O57: the only frames sent are those of the phases' own commands, none of which is POWERDOWN. -/
theorem stepKeepsFramesAllowed : Obligations.StepKeepsFramesAllowed :=
  fun _ _ hs h => (step_inversion h).framesAllowed hs

end Sys2Proof.Machine
end

section
/-! PROOF. What stops a step: a command line of the host that is no frame, and nothing else (30_encoding R82,
60_exceptions R230). -/

namespace Sys2Proof.Machine

/-- Every command has a meaning in every state. -/
theorem exec_answers (i : Instr) (s : State) : ∃ t, exec i s = .next t := by
  cases i with
  | powerdown => exact ⟨_, rfl⟩
  | reset => exact ⟨_, rfl⟩
  | start => exact ⟨_, rfl⟩
  | rdata => exact ⟨_, rfl⟩
  | rreg r => exact ⟨_, rfl⟩
  | wreg r v => exact ⟨_, rfl⟩

/-- Outside IDLE a step executes the phase's own command, which decodes, or runs the phase's rule. -/
theorem step_answers_of_not_idle {s : State} (h : s.phase ≠ .idle) : ∃ t, step s = .next t := by
  cases hc : s.command with
  | none => exact ⟨_, step_silent s h hc⟩
  | some i =>
    rw [step_sending s i h hc (State.command_decodes hc)]
    exact exec_answers i s

/-- Settles O49: outside IDLE every step answers, and in IDLE all but that of a command line that is no frame. -/
theorem onlyNonCommandsStop : Obligations.OnlyNonCommandsStop := by
  intro s
  by_cases hi : s.phase = .idle
  · obtain ⟨-, h⟩ | ⟨f, rest, hp, hd, h⟩ | ⟨i, op, rest, -, -, h⟩ | ⟨op, rest, -, -, -, h⟩ := step_idle_cases s hi
    · exact .inl ⟨_, h⟩
    · exact .inr ⟨f, rest, hi, hp, hd, h⟩
    · exact .inl ⟨_, h⟩
    · exact .inl ⟨_, h⟩
  · exact .inl (step_answers_of_not_idle hi)

end Sys2Proof.Machine
end

section
/-! PROOF. The encoder table: the frames of the well-formed commands, and no others (40_commands R121). -/

namespace Sys2Proof

/-- The frame of a register write holds the byte written (30_encoding R77). -/
theorem encode_wreg_toNat (r : Int) (v : Byte) : encode (.wreg r (v.toNat : Int)) = [commandByte 0x40 r, v] := by
  simp [encode]

/-- Settles O1: each row is an encoder's frame, and a well-formed command is the command of one of the rows. -/
theorem encoderTable : Obligations.EncoderTable := by
  refine ⟨rfl, rfl, rfl, rfl, rfl, rfl, rfl, rfl, fun v => ?_, fun i h => ?_⟩
  · exact ⟨encode_wreg_toNat 0 v, encode_wreg_toNat 1 v, encode_wreg_toNat 2 v, encode_wreg_toNat 3 v⟩
  · have hread : ∀ j : Fin 4, encode (.rreg (j.val : Int)) ∈
        ([[0x20, 0x00], [0x24, 0x00], [0x28, 0x00], [0x2C, 0x00]] : List Frame) := by decide
    have hwrite : ∀ j : Fin 4, commandByte 0x40 (j.val : Int) ∈ ([0x40, 0x44, 0x48, 0x4C] : List Byte) := by decide
    cases i with
    | rreg r =>
      obtain ⟨j, rfl⟩ := (wellFormed_rreg_iff r).mp h
      exact .inl (List.mem_append_right [[0x06], [0x08], [0x02], [0x10, 0x00, 0x00, 0x00]] (hread j))
    | wreg r v =>
      obtain ⟨⟨j, rfl⟩, b, rfl⟩ := (wellFormed_wreg_iff r v).mp h
      exact .inr ⟨b, by simpa [encode_wreg_toNat] using hwrite j⟩
    | _ => exact .inl (by decide)

end Sys2Proof
end

section
/-! PROOF. Commands outside their sending phases: calls of the encoders, with their operand checks
(40_commands R100 to R104, R120). -/

namespace Sys2Proof.Machine

/-- A phase sends only well-formed commands. -/
theorem State.wellFormed_of_command {s : State} {i : Instr} (h : s.command = some i) : i.wellFormed = true :=
  (encodeOfDecode _ _ (State.command_decodes h)).1

/-- Settles O7: a command that is not sent is a call of its encoder, and the operand checks accept it. -/
theorem encoderCallReturnsTheFrame : Obligations.EncoderCallReturnsTheFrame := by
  intro i s hwf hc
  rw [exec_unsent s i hc, s.codecCall_wellFormed i hwf]

/-- Settles O8: the frame of POWERDOWN is none that the sequencer may send. -/
theorem powerdownIsAnEncoderOnly : Obligations.PowerdownIsAnEncoderOnly := by
  intro s
  have hunsent : s.command ≠ some .powerdown := fun h =>
    absurd (State.sequencerFrame_of_command h) (by decide)
  exact ⟨hunsent, encoderCallReturnsTheFrame .powerdown s rfl hunsent⟩

/-- A command that an operand check refuses is ill-formed. -/
theorem not_wellFormed_of_operandError {i : Instr} {e : Err} (h : operandError i = some e) :
    i.wellFormed ≠ true := by
  intro hwf
  cases i with
  | rreg r => simp [operandError, checkRegister, show isRegister r = true from hwf] at h
  | wreg r v =>
    obtain ⟨hr, hv⟩ := Bool.and_eq_true_iff.mp hwf
    simp [operandError, checkRegister, checkValue, hr, hv] at h
  | _ => cases h

/-- A command that an operand check refuses is sent in no phase, and its error is reported (40_commands R104). -/
theorem exec_operandError {i : Instr} {e : Err} (s : State) (h : operandError i = some e) :
    exec i s = .next { s with trace := s.trace ++ [.result (.err e)] } := by
  rw [exec_unsent s i fun hc => not_wellFormed_of_operandError h (State.wellFormed_of_command hc)]
  simp [State.codecCall, h, State.log]

/-- Settles O9: the first operand check that refuses gives the error. -/
theorem operandErrors : Obligations.OperandErrors := by
  intro s r v
  refine ⟨fun hr => ?_, fun hr hv => ?_⟩
  · have hreg : checkRegister r = some (.badRegister r) := by simpa [checkRegister, isRegister] using hr
    exact ⟨exec_operandError s hreg, exec_operandError s (by simp [operandError, hreg])⟩
  · have hreg : checkRegister r = none := by simpa [checkRegister, isRegister] using hr
    have hval : checkValue v = some (.badValue v) := by simpa [checkValue, isByteValue] using hv
    exact exec_operandError s (by simp [operandError, hreg, hval])

end Sys2Proof.Machine
end

section
/-! PROOF. What sending a frame does (40_commands R105), and what every command leaves unchanged. -/

namespace Sys2Proof.Machine

/-- A transport that cannot fail answers every transfer (00_scope R18). -/
theorem State.busAnswer_of_cannotFail {s : State} (h : s.params.transportCanFail = false) (out : Frame) :
    ∃ bytes, s.busAnswer out = .response bytes := by
  unfold State.busAnswer
  rw [h]
  cases s.env.drawBus.1 with
  | response bytes => exact ⟨bytes, rfl⟩
  | failure => exact ⟨_, rfl⟩

/-- Where the transport cannot fail, a bus error is a response of another length. -/
theorem State.busErrorEvent_ne_xferFail {s : State} (h : s.params.transportCanFail = false) {out : Frame} {e : Event}
    (he : s.busErrorEvent out = some e) : e ≠ .xferFail out := by
  obtain ⟨bytes, hb⟩ := s.busAnswer_of_cannotFail h out
  rw [State.busErrorEvent, hb] at he
  rintro rfl
  simp at he

/-- Settles O10: a transfer completes or is a bus error, and `send` does one transfer. -/
theorem sendIsOneTransfer : Obligations.SendIsOneTransfer := by
  intro s out
  refine ⟨s.send_responds out, s.send_busError out, ?_, fun h e => State.busErrorEvent_ne_xferFail h⟩
  obtain ⟨r, hr, -⟩ | ⟨e, he, -⟩ := s.responds_or_busError out
  · exact .inl ⟨r, hr⟩
  · exact .inr ⟨e, he⟩

/-! ### Commands in their sending phases -/

/-- What a command does in the phase that sends it: that phase's rule. -/
inductive SentTo (s : State) : Instr → State → Prop
  | reset : SentTo s .reset (phaseReset s)
  | probe : SentTo s (.rreg 0) (phaseProbe s)
  | write (i : Fin 4) : SentTo s (s.writeCommand i) (phaseWrite i s)
  | verify (i : Fin 4) : SentTo s (.rreg (i.val : Int)) (phaseVerify i s)
  | trigger : SentTo s .start (phaseTrigger s)
  | read : SentTo s .rdata (phaseRead s)

/-- A command in its sending phase is executed by that phase's rule. -/
theorem exec_sent {s t : State} {i : Instr} (hc : s.command = some i) (h : exec i s = .next t) : SentTo s i t := by
  have hstep : step s = .next t := (stepRunsTheDecodedCommand.2.2.1 s i hc).trans h
  have key : ∀ {u : State}, step s = .next u → SentTo s i u → SentTo s i t := by
    intro u hu hsent
    cases hu.symm.trans hstep
    exact hsent
  unfold State.command at hc
  split at hc
  all_goals cases hc
  case h_1 hp => exact key (step_initReset s hp) .reset
  case h_2 hp => exact key (step_initProbe s hp) .probe
  case h_3 j hp => exact key (step_initWrite s j hp) (.write j)
  case h_4 j hp => exact key (step_initVerify s j hp) (.verify j)
  case h_5 hp => exact key (step_acqTrigger s hp) .trigger
  case h_6 hp => exact key (step_acqRead s hp) .read

/-! ### The frame of the six commands -/

/-- `t` has what the command `i` may not write, however it ends: the parameters, the program, PROFILE, the line's
and the clock's answers, and the clock's floor but for the settle of WREG (10_state R38, R39). -/
structure State.KeepsInputs (i : Instr) (s t : State) : Prop where
  params : t.params = s.params := by rfl
  program : t.program = s.program := by rfl
  profile : t.profile = s.profile := by rfl
  profileWritten : t.profileWritten = s.profileWritten := by rfl
  line : t.env.line = s.env.line := by rfl
  clock : t.env.clock = s.env.clock := by rfl
  clockFloor : (∀ r v, i ≠ .wreg r v) → t.env.clockFloor = s.env.clockFloor := by exact fun _ => rfl

/-- `t` has the bookkeeping that the command `i` may not write where the operation goes on (43_sequencer R181 to
R185, R210, R212). -/
structure State.KeepsTransients (i : Instr) (s t : State) : Prop where
  wait : t.wait = s.wait := by rfl
  voltage : t.q = s.q ∧ t.p = s.p ∧ t.v = s.v := by exact ⟨rfl, rfl, rfl⟩
  sample : i ≠ .rdata → t.u24 = s.u24 ∧ t.raw = s.raw := by exact fun _ => ⟨rfl, rfl⟩
  rb : (∀ r, i ≠ .rreg r) → t.rb = s.rb := by exact fun _ => rfl
  devState : i ≠ .start → i ≠ .rdata → t.devState = s.devState := by exact fun _ _ => rfl

/-- The frame of a command in its sending phase: the operation goes on with its bookkeeping, or ends without. -/
structure State.SentFrame (i : Instr) (s t : State) : Prop where
  inputs : s.KeepsInputs i t := by exact {}
  transients : (t.phase ≠ .idle ∧ s.KeepsTransients i t) ∨ (t.phase = .idle ∧ t.discard = t)

/-- Error entry has the frame of every command. -/
theorem State.sentFrame_raise (i : Instr) (s : State) (d : DeviceState) (e : Err) : s.SentFrame i (s.raise d e) where
  transients := .inr ⟨rfl, rfl⟩

/-- A transfer before a rule leaves the frame of the rule (20_memory R55). -/
theorem State.SentFrame.of_transfer {i : Instr} {s t : State} {events : List Event}
    (h : ({ s with env := s.env.drawBus.2, trace := events } : State).SentFrame i t) : s.SentFrame i t where
  inputs := { h.inputs with
    line := h.inputs.line.trans s.env.drawBus_line
    clock := h.inputs.clock.trans s.env.drawBus_clock
    clockFloor := fun hi => (h.inputs.clockFloor hi).trans s.env.drawBus_clockFloor }
  transients := h.transients.imp_left fun ⟨hp, hk⟩ => ⟨hp, { hk with }⟩

/-- A sending phase has the frame of its command where its rule for a response does. -/
theorem State.sentFrame_sendThen {s : State} {i : Instr} {andThen : State → Frame → State}
    (h : ∀ (t : State) (r : Frame), t.SentFrame i (andThen t r)) : s.SentFrame i (s.sendThen i andThen) :=
  State.sendThen_induction (fun r => (h _ r).of_transfer) fun _ => (State.sentFrame_raise i _ _ _).of_transfer

theorem Phase.afterWrite_ne_idle (i : Fin 4) : Phase.afterWrite i ≠ .idle := by
  intro h
  simpa [h, Phase.initialising] using initialising_afterWrite i

theorem Phase.afterVerify_ne_idle (i : Fin 4) : Phase.afterVerify i ≠ .idle := by
  intro h
  simpa [h, Phase.initialising] using initialising_afterVerify i

theorem sentFrame_phaseProbe (s : State) : s.SentFrame (.rreg 0) (phaseProbe s) := by
  refine State.sentFrame_sendThen fun t r => ?_
  dsimp only
  split
  · exact t.sentFrame_raise _ _ _
  · exact { transients := .inl ⟨by simp, {}⟩ }

theorem sentFrame_phaseTrigger (s : State) : s.SentFrame .start (phaseTrigger s) := by
  unfold phaseTrigger
  split
  · exact State.sentFrame_sendThen fun t r =>
      { transients := .inl ⟨by simp, { devState := fun hi => absurd rfl hi }⟩ }
  · exact s.sentFrame_raise _ _ _

/-- Every command has its frame in the phase that sends it. -/
theorem SentTo.sentFrame {s t : State} {i : Instr} (h : SentTo s i t) : s.SentFrame i t := by
  cases h with
  | reset => exact State.sentFrame_sendThen fun t r => { transients := .inl ⟨by simp, {}⟩ }
  | probe => exact sentFrame_phaseProbe s
  | write j =>
    exact State.sentFrame_sendThen fun t r =>
      { inputs := { clockFloor := fun hi => absurd rfl (hi _ _) }
        transients := .inl ⟨Phase.afterWrite_ne_idle j, {}⟩ }
  | verify j =>
    exact State.sentFrame_sendThen fun t r =>
      { transients := .inl ⟨Phase.afterVerify_ne_idle j, { rb := fun hi => absurd rfl (hi _) }⟩ }
  | trigger => exact sentFrame_phaseTrigger s
  | read =>
    exact State.sentFrame_sendThen fun t r =>
      { transients := .inl ⟨by simp,
          { sample := fun hi => absurd rfl hi, devState := fun _ hi => absurd rfl hi }⟩ }

/-- Settles O13: a command is sent by its phase's rule, which has its frame, or it is an encoder call. -/
theorem commandFrame : Obligations.CommandFrame := by
  intro i s t h
  by_cases hc : s.command = some i
  · obtain ⟨⟨hparams, hprogram, hprofile, hwritten, hline, hclock, hfloor⟩, htransients⟩ := (exec_sent hc h).sentFrame
    refine ⟨hparams, hprogram, hprofile, hwritten, hline, hclock, fun hn => absurd hc hn, fun hp => ?_,
      fun _ hp => ?_, hfloor⟩
    · obtain ⟨hwait, ⟨hq, hp, hv⟩, hsample, hrb, hdev⟩ := (htransients.resolve_right fun h => hp h.1).2
      exact ⟨hwait, hq, hp, hv, hsample, hrb, hdev⟩
    · exact (htransients.resolve_left fun h => h.1 hp).2
  · rw [exec_unsent s i hc] at h
    cases h
    obtain ⟨r, hcall⟩ := s.codecCall_cases i
    rw [hcall]
    exact ⟨rfl, rfl, rfl, rfl, rfl, rfl, fun _ => rfl,
      fun _ => ⟨rfl, rfl, rfl, rfl, fun _ => ⟨rfl, rfl⟩, fun _ => rfl, fun _ _ => rfl⟩,
      fun h => absurd h hc, fun _ => rfl⟩

end Sys2Proof.Machine
end

section
/-! PROOF. Stages S1 and S2 (41_sample_decode R140 to R145): S1 joins three bytes to a code, and S2 reads the code as a
two's complement number, which makes RAW its sign extension. -/

namespace Sys2Proof.Machine

/-! ### Stage S1 -/

theorem assemble_eq_append (b0 b1 b2 : Byte) : assemble b0 b1 b2 = b0 ++ b1 ++ b2 := by
  rw [← BitVec.setWidth_eq (b0 ++ b1 ++ b2), BitVec.setWidth_append_append_eq_shiftLeft_setWidth_or]
  rfl

/-- Appending a word moves the words before it up by its width. -/
theorem toNat_append_eq_add {m n : Nat} (x : BitVec m) (y : BitVec n) :
    (x ++ y).toNat = x.toNat * 2 ^ n + y.toNat := by
  rw [BitVec.toNat_append, ← Nat.shiftLeft_add_eq_or_of_lt y.isLt, Nat.shiftLeft_eq]

theorem toNat_assemble (b0 b1 b2 : Byte) :
    (assemble b0 b1 b2).toNat = b0.toNat * 65536 + b1.toNat * 256 + b2.toNat := by
  rw [assemble_eq_append, toNat_append_eq_add, toNat_append_eq_add]
  omega

/-! ### Stage S2 -/

/-- The bit-23 test reads the sign bit of the code. -/
theorem getLsbD_23_eq_msb (u : Code24) : u.getLsbD 23 = u.msb := rfl

theorem toInt_code_eq_ite (u : Code24) :
    u.toInt = if u.getLsbD 23 then (u.toNat : Int) - 16777216 else (u.toNat : Int) :=
  u.toInt_eq_msb_cond

theorem signExtendInt_eq_toInt (u : Code24) : signExtendInt u = u.toInt := (toInt_code_eq_ite u).symm

theorem signExtend_eq_signExtend (u : Code24) : signExtend u = u.signExtend 32 := by
  rw [signExtend, signExtendInt_eq_toInt]
  rfl

/-- RAW holds the two's complement value of the code. -/
@[simp] theorem toInt_signExtend (u : Code24) : (signExtend u).toInt = u.toInt := by
  rw [signExtend_eq_signExtend, BitVec.toInt_signExtend_of_le (by decide)]

/-- Extending a negative code by its sign puts eight ones above it. -/
theorem signExtend_eq_or_of_msb {u : Code24} (h : u.msb = true) :
    u.signExtend 32 = u.zeroExtend 32 ||| 0xFF000000 := by
  calc u.signExtend 32 = BitVec.allOnes 8 ++ u := by
        rw [BitVec.signExtend_eq_append_of_le (by decide), if_pos h]
        rfl
    _ = (BitVec.allOnes 8).zeroExtend 32 <<< 24 ||| u.zeroExtend 32 := by
        rw [← BitVec.setWidth_eq (BitVec.allOnes 8 ++ u), BitVec.setWidth_append_eq_shiftLeft_setWidth_or]
    _ = u.zeroExtend 32 ||| 0xFF000000 := BitVec.or_comm _ _

theorem signExtend_eq_ite (u : Code24) :
    signExtend u = if u.getLsbD 23 then u.zeroExtend 32 ||| 0xFF000000 else u.zeroExtend 32 := by
  rw [signExtend_eq_signExtend, getLsbD_23_eq_msb]
  cases h : u.msb with
  | true => exact signExtend_eq_or_of_msb h
  | false => exact BitVec.signExtend_eq_setWidth_of_msb_false h

/-- Settles O42: S1 appends the bytes, and S2 is the two's complement value of the code. -/
theorem sampleStages : Obligations.SampleStages := by
  refine ⟨toNat_assemble, fun u => ⟨?_, signExtend_eq_signExtend u, signExtend_eq_ite u, ?_⟩⟩
  · rw [toInt_signExtend, toInt_code_eq_ite]
  · rintro b0 b1 b2 rfl
    rw [decodeSample, toInt_signExtend, toInt_code_eq_ite]

/-! ### Codes and RawSamples -/

theorem isRawSample_iff (x : Int) : isRawSample x = true ↔ -8388608 ≤ x ∧ x ≤ 8388607 := by
  simp [isRawSample]

theorem isRawSample_signExtend (u : Code24) : isRawSample (signExtend u).toInt = true := by
  rw [toInt_signExtend, isRawSample_iff]
  exact ⟨u.le_toInt, u.toInt_le⟩

theorem toInt_code_emod (u : Code24) : u.toInt % 16777216 = (u.toNat : Int) := by
  have hlt := u.isLt
  rw [toInt_code_eq_ite]
  split <;> omega

theorem toInt_ofInt_of_isRawSample {x : Int} (h : isRawSample x = true) : (BitVec.ofInt 24 x).toInt = x := by
  obtain ⟨hmin, hmax⟩ := (isRawSample_iff x).mp h
  exact BitVec.toInt_ofInt_eq_self (by decide) hmin (by omega)

/-- Settles O43: two's complement is a bijection of the codes onto its range, whose inverse is the word of the
integer. -/
theorem signExtensionIsABijection : Obligations.SignExtensionIsABijection := by
  refine ⟨fun u => ⟨isRawSample_signExtend u, ?_⟩, fun u w h => ?_, fun x h => ⟨BitVec.ofInt 24 x, ?_⟩⟩
  · rw [toInt_signExtend, toInt_code_emod]
  · rw [toInt_signExtend, toInt_signExtend] at h
    exact BitVec.eq_of_toInt_eq h
  · rw [toInt_signExtend, toInt_ofInt_of_isRawSample h]

/-! ### Byte lists -/

theorem decodeSampleList_of_length_ne {bytes : List Byte} (h : bytes.length ≠ 3) :
    decodeSampleList bytes = .err (.badLength bytes.length) := by
  unfold decodeSampleList
  split
  · exact absurd rfl h
  · rfl

/-- Settles O40: the call is run in its first step, where it reports BadLength. -/
theorem badLengthIsRefused : Obligations.BadLengthIsRefused := by
  intro s rest bytes hi hp hlen
  rw [step_runOp hi hp (by simp) (by simp) (.inr rfl), runOp, decodeSampleList_of_length_ne hlen]
  rfl

end Sys2Proof.Machine
end

section
/-! PROOF. The samples of a cycle: RAW always holds a RawSample, Emit's voltage is that of RAW, and the records of the
trace are made of them (41_sample_decode R142, 43_sequencer R213, R214). -/

namespace Sys2Proof.Machine

/-- The latches and the records of the trace fit: what every step keeps. -/
def State.samplesFit (s : State) : Prop := s.latchesFit = true ∧ s.recordsFit = true

/-! ### The latches and the records -/

theorem latchesFit_iff {s : State} : s.latchesFit = true ↔
    isRawSample s.raw.toInt = true ∧ (s.phase = .acqEmit → s.v = rawToVoltage s.params s.raw.toInt) := by
  simp [State.latchesFit, ← imp_iff_not_or]

/-- V is bound to RAW in ACQ_EMIT only. -/
theorem latchesFit_of_phase_ne {s : State} (hp : s.phase ≠ .acqEmit) (hraw : isRawSample s.raw.toInt = true) :
    s.latchesFit = true :=
  latchesFit_iff.mpr ⟨hraw, fun h => absurd h hp⟩

theorem recordsFit_of_trace {s t : State} {events : List Event} (hs : s.recordsFit = true)
    (ht : t.trace = s.trace ++ events) (he : events.all (Event.recordFits s.params) = true)
    (hparams : t.params = s.params) : t.recordsFit = true := by
  rw [State.recordsFit, ht, hparams, List.all_append, he, Bool.and_true]
  exact hs

/-- The record that Emit makes of fitting latches is one of this block. -/
theorem record_fits_of_latchesFit {s : State} (hp : s.phase = .acqEmit) (hs : s.latchesFit = true) (now : ℚ) :
    ({ timestamp := now, rawSample := s.raw.toInt, voltage := s.v,
       gainSetting := s.params.gainSetting } : SampleRecord).fits s.params = true := by
  obtain ⟨hraw, hv⟩ := latchesFit_iff.mp hs
  simp [SampleRecord.fits, hraw, hv hp]

/-! ### How a step goes on or ends -/

/-- A step that leaves RAW, does not go to ACQ_EMIT and adds only fitting events keeps the samples. -/
theorem State.samplesFit.of_events {s t : State} {events : List Event} (hs : s.samplesFit)
    (ht : t.trace = s.trace ++ events) (he : events.all (Event.recordFits s.params) = true)
    (hparams : t.params = s.params) (hp : t.phase ≠ .acqEmit) (hraw : t.raw = s.raw) : t.samplesFit :=
  ⟨latchesFit_of_phase_ne hp (hraw ▸ (latchesFit_iff.mp hs.1).1), recordsFit_of_trace hs.2 ht he hparams⟩

theorem State.samplesFit.of_trace_eq {s t : State} (hs : s.samplesFit) (ht : t.trace = s.trace)
    (hparams : t.params = s.params) (hp : t.phase ≠ .acqEmit) (hraw : t.raw = s.raw) : t.samplesFit :=
  hs.of_events (ht.trans (List.append_nil _).symm) rfl hparams hp hraw

/-- The end of an operation clears RAW and adds its result. -/
theorem samplesFit_finish {s : State} (r : OpResult) (hs : s.recordsFit = true) : (s.finish r).samplesFit :=
  ⟨latchesFit_of_phase_ne nofun rfl, recordsFit_of_trace hs (s.finish_trace r) rfl rfl⟩

theorem samplesFit_raise {s : State} (d : DeviceState) (e : Err) (hs : s.recordsFit = true) :
    (s.raise d e).samplesFit :=
  samplesFit_finish (s := { s with devState := d }) _ hs

theorem samplesFit_complete {s : State} (d : DeviceState) (x : OkValue) (hs : s.recordsFit = true) :
    (s.complete d x).samplesFit :=
  samplesFit_finish (s := { s with devState := d }) _ hs

/-- A sending phase keeps the samples where its rule for a response does: a transfer emits no record. -/
theorem samplesFit_sendThen {s : State} {i : Instr} {andThen : State → Frame → State} (hs : s.samplesFit)
    (h : ∀ (t : State) (r : Frame), t.samplesFit → (andThen t r).samplesFit) :
    (s.sendThen i andThen).samplesFit := by
  obtain ⟨r, -, h'⟩ | ⟨e, hbus, h'⟩ := s.sendThen_cases i andThen
  · exact h' ▸ h _ r ⟨hs.1, recordsFit_of_trace hs.2 (s.afterTransfer_trace _ r) rfl rfl⟩
  · have he := s.busErrorEvent_recordFits s.params _ e hbus
    exact h' ▸ samplesFit_raise _ _ (recordsFit_of_trace hs.2 (events := [e]) rfl (by simp [he]) rfl)

/-! ### Each phase keeps the samples -/

theorem Phase.ne_acqEmit_of_initialising {p : Phase} (h : p.initialising = true) : p ≠ .acqEmit := by
  rintro rfl
  cases h

theorem samplesFit_enterWait {s : State} (caller : WaitCaller) (d b : ℚ) (rest : List HostOp) (hs : s.samplesFit) :
    (enterWait caller d b { s with program := rest }).samplesFit := by
  obtain ⟨-, h⟩ | ⟨-, h⟩ := enterWait_cases caller d b { s with program := rest }
  · exact h ▸ hs.of_events rfl rfl rfl nofun rfl
  · exact h ▸ samplesFit_finish _ hs.2

theorem samplesFit_phaseProbe {s : State} (hs : s.samplesFit) : (phaseProbe s).samplesFit := by
  refine samplesFit_sendThen hs fun t r ht => ?_
  dsimp only
  split
  · exact samplesFit_raise _ _ ht.2
  · exact ht.of_trace_eq rfl rfl nofun rfl

theorem samplesFit_phaseCheck {s : State} (hs : s.samplesFit) : (phaseCheck s).samplesFit := by
  obtain ⟨-, h⟩ | ⟨-, h⟩ := phaseCheck_cases s
  · exact h ▸ samplesFit_complete _ _ hs.2
  · exact h ▸ samplesFit_raise _ _ hs.2

/-- A high poll emits no record. -/
theorem pollEvents_recordFits (c : Params) (period n : Nat) (now : ℚ) :
    (pollEvents period n now).all (Event.recordFits c) = true := by
  cases h : progressDue period n <;> simp [pollEvents, h]

theorem samplesFit_phasePoll {s : State} (hs : s.samplesFit) : (phasePoll s).samplesFit := by
  have hpoll := pollEvents_recordFits s.params s.params.progressPeriod (s.wait.polls + 1)
    s.env.drawLevel.2.drawClock.1
  obtain ⟨-, -, h⟩ | ⟨-, -, h⟩ | ⟨-, -, h⟩ | ⟨-, -, h⟩ := phasePoll_cases s
  · exact h ▸ samplesFit_complete _ _ (recordsFit_of_trace hs.2 rfl rfl rfl)
  · exact h ▸ hs.of_events rfl rfl rfl nofun rfl
  · exact h ▸ hs.of_events rfl hpoll rfl nofun rfl
  · exact h ▸ samplesFit_raise _ _ (recordsFit_of_trace hs.2 rfl hpoll rfl)

theorem samplesFit_phaseTrigger {s : State} (hs : s.samplesFit) : (phaseTrigger s).samplesFit := by
  unfold phaseTrigger
  split
  · exact samplesFit_sendThen hs fun t r ht => ht.of_trace_eq rfl rfl nofun rfl
  · exact samplesFit_raise _ _ hs.2

/-- ACQ_READ writes a RawSample to RAW: S2's range is that of the RawSamples. -/
theorem samplesFit_phaseRead {s : State} (hs : s.samplesFit) : (phaseRead s).samplesFit :=
  samplesFit_sendThen hs fun _ r ht =>
    ⟨latchesFit_of_phase_ne nofun (isRawSample_signExtend (responseCode r)), ht.2⟩

/-- ACQ_CONVERT writes to V the voltage of RAW. -/
theorem samplesFit_phaseConvert {s : State} (hs : s.samplesFit) : (phaseConvert s).samplesFit :=
  ⟨latchesFit_iff.mpr ⟨(latchesFit_iff.mp hs.1).1, fun _ => rfl⟩, hs.2⟩

/-- ACQ_EMIT emits a record of the latches, then discards them. -/
theorem samplesFit_phaseEmit {s : State} (hp : s.phase = .acqEmit) (hs : s.samplesFit) :
    (phaseEmit s).samplesFit := by
  refine samplesFit_complete _ _ (recordsFit_of_trace (s := s.now.1) ?_ rfl ?_ rfl)
  · exact recordsFit_of_trace hs.2 s.now_trace rfl rfl
  · simpa using record_fits_of_latchesFit hp hs.1 s.env.drawClock.1

/-- Every step keeps the samples. -/
theorem StepTo.samplesFit {s t : State} (h : StepTo s t) (hs : s.samplesFit) : t.samplesFit := by
  have idle (hi : s.phase = .idle) : s.phase ≠ .acqEmit := by simp [hi]
  cases h with
  | wait => exact hs
  | call i op rest hi =>
    obtain ⟨r, h⟩ := ({ s with program := rest } : State).codecCall_cases i
    exact h ▸ hs.of_events rfl rfl rfl (idle hi) rfl
  | report op rest r hi => exact hs.of_events rfl rfl rfl (idle hi) rfl
  | construct => exact samplesFit_complete _ _ hs.2
  | initialise => exact hs.of_trace_eq rfl rfl nofun rfl
  | waitReady d b rest => exact samplesFit_enterWait .host d b rest hs
  | acquire => exact hs.of_trace_eq rfl rfl nofun rfl
  | reset => exact samplesFit_sendThen hs fun t r ht => ht.of_trace_eq rfl rfl nofun rfl
  | settle => exact hs.of_events rfl rfl rfl nofun rfl
  | probe => exact samplesFit_phaseProbe hs
  | write i =>
    exact samplesFit_sendThen hs fun t r ht =>
      ht.of_events rfl rfl rfl (Phase.ne_acqEmit_of_initialising (initialising_afterWrite i)) rfl
  | verify i =>
    exact samplesFit_sendThen hs fun t r ht =>
      ht.of_trace_eq rfl rfl (Phase.ne_acqEmit_of_initialising (initialising_afterVerify i)) rfl
  | check => exact samplesFit_phaseCheck hs
  | poll => exact samplesFit_phasePoll hs
  | sleep => exact hs.of_events rfl rfl rfl nofun rfl
  | trigger => exact samplesFit_phaseTrigger hs
  | sync => exact samplesFit_enterWait .acquire _ _ s.program hs
  | read => exact samplesFit_phaseRead hs
  | convert => exact samplesFit_phaseConvert hs
  | emit hp => exact samplesFit_phaseEmit hp hs

/-- Settles O59, by the cases of a step: RAW is written by ACQ_READ, with a RawSample, and cleared at the end of an
operation; ACQ_CONVERT alone leads to Emit, with the voltage of RAW; ACQ_EMIT alone emits a record, made of these
latches. -/
theorem stepKeepsRecords : Obligations.StepKeepsRecords :=
  fun _ _ hlatches hrecords h => (step_inversion h).samplesFit ⟨hlatches, hrecords⟩

end Sys2Proof.Machine
end

section
/-! PROOF. When an operation is refused for its configuration (42_voltage_scaling R168, 60_exceptions R237). -/

namespace Sys2Proof.Machine

/-- Where the configuration is bad, an operation that needs a good one does nothing but report the configuration's
first error. -/
theorem step_configurationError {s : State} {op : HostOp} {rest : List HostOp} {e : Err} (hi : s.phase = .idle)
    (hp : s.program = op :: rest) (hn : op.needsConfiguration = true) (he : configurationError s.params = some e) :
    step s = .next { s with program := rest, trace := s.trace ++ [.result (.err e)] } := by
  obtain ⟨hnil, -⟩ | ⟨f, rest', hp', -, -⟩ | ⟨i, op', rest', hp', hcommand, -⟩ | ⟨op', rest', hp', -, -, hstep⟩ :=
    step_idle_cases s hi
  · simp [hp] at hnil
  · obtain ⟨rfl, rfl⟩ := List.cons.inj (hp.symm.trans hp')
    cases hn
  · obtain ⟨rfl, rfl⟩ := List.cons.inj (hp.symm.trans hp')
    obtain rfl | ⟨f, rfl⟩ := hcommand <;> cases hn
  · obtain ⟨rfl, rfl⟩ := List.cons.inj (hp.symm.trans hp')
    rw [hstep]
    simp [startOp, he, hn, State.report, State.log]

theorem configurationError_vref {c : Params} (hv : c.vref.isFinite c.voltArith = false) :
    configurationError c = some (.badParameter .vref) := by
  simp [configurationError, hv]

theorem configurationError_offset {c : Params} (hv : c.vref.isFinite c.voltArith = true)
    (ho : c.offset.isFinite c.voltArith = false) : configurationError c = some (.badParameter .offset) := by
  simp [configurationError, hv, ho]

/-- With finite constants only the poll interval can be bad. -/
theorem configurationError_of_finite {c : Params} (hv : c.vref.isFinite c.voltArith = true)
    (ho : c.offset.isFinite c.voltArith = true) : configurationError c = pollIntervalError c.pollInterval := by
  simp [configurationError, hv, ho]

/-- Settles O41: each clause names the configuration's first error, which the entry of the operation reports. -/
theorem nonFiniteConstantsAreRefused : Obligations.NonFiniteConstantsAreRefused := by
  refine ⟨fun s op rest hi hp hn => ⟨fun hv => ?_, fun hv ho => ?_, fun hv ho hd => ?_⟩, fun _ => rfl,
    fun _ => ⟨rfl, rfl⟩⟩
  · exact step_configurationError hi hp hn (configurationError_vref hv)
  · exact step_configurationError hi hp hn (configurationError_offset hv ho)
  · refine step_configurationError hi hp hn ?_
    rw [configurationError_of_finite hv ho]
    exact if_neg hd

/-- Settles O48: the exact stages compose to the ideal voltage, and under `exact` finite constants leave only the poll
interval to check before the call. -/
theorem exactArithmeticIsIdeal : Obligations.ExactArithmeticIsIdeal := by
  intro c vref offset raw harith hvref hoffset
  have hvoltage : rawToVoltage c raw = .exact (raw * vref / 8388608 + offset) := by
    simp only [rawToVoltage, stageFraction, stageScale, stageOffset, harith, hvref, hoffset, Volt.toRat,
      ConfiguredValue.number, Config.fsr]
    rw [mul_div_right_comm]
    rfl
  refine ⟨hvoltage, ?_⟩
  rintro s rest rfl hd hi hp
  have hc : configurationError s.params = none := by
    rw [configurationError_of_finite (by rw [harith, hvref]; rfl) (by rw [harith, hoffset]; rfl)]
    exact if_pos hd
  rw [step_runOp hi hp (by simp) (by simp) (.inl hc), ← hvoltage]
  rfl

end Sys2Proof.Machine
end

section
/-! PROOF. The voltage under VOLT_ARITH = binary64 (42_voltage_scaling R160 to R168): S3a divides exactly, S3b and S4
round once each, so range, order and error follow from what one rounding does. -/

namespace Sys2Proof.Machine
open Binary64

/-! ### Stage S3a -/

theorem abs_fraction_le_one {raw : Int} (h : isRawSample raw = true) : |(raw : ℚ) / 8388608| ≤ 1 := by
  obtain ⟨hlo, hhi⟩ := (isRawSample_iff raw).mp h
  have hlo' : (-8388608 : ℚ) ≤ raw := by exact_mod_cast hlo
  have hhi' : (raw : ℚ) ≤ 8388607 := by exact_mod_cast hhi
  rw [abs_le]
  constructor <;> linarith

/-- What is at most a power of two in size, up to 2^1023, has a finite nearest value. -/
theorem abs_le_maxFinite {x : ℚ} (k : Int) (hk : k ≤ 1023) (hx : |x| ≤ 2 ^ k) : |x| ≤ maxFinite :=
  hx.trans (pow_le_maxFinite k hk)

theorem fraction_le_maxFinite {raw : Int} (h : isRawSample raw = true) : |(raw : ℚ) / 8388608| ≤ maxFinite :=
  abs_le_maxFinite 0 (by norm_num) (by simpa using abs_fraction_le_one h)

theorem natAbs_le_of_isRawSample {raw : Int} (h : isRawSample raw = true) : raw.natAbs ≤ 2 ^ 53 := by
  rw [isRawSample_iff] at h
  omega

theorem raw_le_maxFinite {raw : Int} (h : isRawSample raw = true) : |(raw : ℚ)| ≤ maxFinite := by
  refine abs_le_maxFinite 23 (by norm_num) ?_
  have := abs_fraction_le_one h
  rw [abs_div, div_le_one (by norm_num)] at this
  exact this.trans (by norm_num)

/-- A RawSample is its own nearest value (42_voltage_scaling R160). -/
theorem value_fl64_raw {raw : Int} (h : isRawSample raw = true) : value (fl64 raw) = raw :=
  value_fl64_exact _ raw 0 (raw_le_maxFinite h) (by norm_num) (natAbs_le_of_isRawSample h) (by simp)

/-- A RawSample over full scale is its own nearest value (42_voltage_scaling R160). -/
theorem value_fl64_fraction {raw : Int} (h : isRawSample raw = true) :
    value (fl64 (raw / 8388608)) = raw / 8388608 :=
  value_fl64_exact _ raw (-23) (fraction_le_maxFinite h) (by norm_num) (natAbs_le_of_isRawSample h)
    (by rw [div_eq_mul_inv]; norm_num)

theorem fsr_le_maxFinite : |((Config.fsr : ℕ) : ℚ)| ≤ maxFinite :=
  abs_le_maxFinite 23 (by norm_num) (by norm_num [Config.fsr])

theorem value_fl64_fsr : value (fl64 (Config.fsr : ℕ)) = 8388608 := by
  rw [value_fl64_exact _ 1 23 fsr_le_maxFinite (by norm_num) (by norm_num) (by norm_num [Config.fsr])]
  rfl

theorem stageFraction_binary64 {c : Params} {raw : Int} (hc : c.voltArith = .binary64) (h : isRawSample raw = true) :
    stageFraction c raw = .binary64 (fl64 (raw / 8388608)) := by
  have hfsr : value (fl64 (Config.fsr : ℕ)) ≠ 0 := by rw [value_fl64_fsr]; norm_num
  simp only [stageFraction, hc]
  rw [div_finite _ _ (isFinite_fl64 _ (raw_le_maxFinite h)) (isFinite_fl64 _ fsr_le_maxFinite) hfsr,
    value_fl64_raw h, value_fl64_fsr]

/-- Under either arithmetic S3a gives RAW / 2^23. -/
theorem toRat_stageFraction {c : Params} {raw : Int} (h : isRawSample raw = true) :
    (stageFraction c raw).toRat = raw / 8388608 := by
  cases hc : c.voltArith with
  | binary64 => rw [stageFraction_binary64 hc h]; exact value_fl64_fraction h
  | exact => simp [stageFraction, hc, Volt.toRat, Config.fsr]

/-! ### Stages S3b and S4 -/

/-- P: the real product of Q and VREF64, rounded once (42_voltage_scaling R161). -/
def scaledBits (vref : ℚ) (raw : Int) : F64 := fl64 (raw / 8388608 * value (fl64 vref))

/-- V: the real sum of P and OFF64, rounded once (42_voltage_scaling R162). -/
def voltageBits (vref offset : ℚ) (raw : Int) : F64 := fl64 (value (scaledBits vref raw) + value (fl64 offset))

/-- A configuration under binary64 with the constants `vref` and `offset`, whose nearest values are finite. -/
structure Params.BinaryConstants (c : Params) (vref offset : ℚ) : Prop where
  arith : c.voltArith = .binary64
  vref_eq : c.vref = .finite vref
  offset_eq : c.offset = .finite offset
  vref_finite : Binary64.isFinite (fl64 vref) = true
  offset_finite : Binary64.isFinite (fl64 offset) = true

theorem abs_fraction_mul_le {raw : Int} (h : isRawSample raw = true) (x : ℚ) : |raw / 8388608 * x| ≤ |x| := by
  rw [abs_mul]
  exact mul_le_of_le_one_left (abs_nonneg x) (abs_fraction_le_one h)

theorem scaled_le_maxFinite {vref : ℚ} {raw : Int} (hv : Binary64.isFinite (fl64 vref) = true)
    (h : isRawSample raw = true) : |raw / 8388608 * value (fl64 vref)| ≤ maxFinite :=
  (abs_fraction_mul_le h _).trans (abs_value_le_maxFinite _ hv)

theorem isFinite_scaledBits {vref : ℚ} {raw : Int} (hv : Binary64.isFinite (fl64 vref) = true)
    (h : isRawSample raw = true) : Binary64.isFinite (scaledBits vref raw) = true :=
  isFinite_fl64 _ (scaled_le_maxFinite hv h)

theorem stageScale_eq {c : Params} {vref offset : ℚ} {raw : Int} (hc : c.BinaryConstants vref offset)
    (h : isRawSample raw = true) : stageScale c (stageFraction c raw) = .binary64 (scaledBits vref raw) := by
  rw [stageFraction_binary64 hc.arith h]
  simp only [stageScale, hc.arith, vref64, hc.vref_eq, ConfiguredValue.number, Volt.toF64]
  rw [mul_finite _ _ (isFinite_fl64 _ (fraction_le_maxFinite h)) hc.vref_finite, value_fl64_fraction h, scaledBits]

theorem rawToVoltage_eq {c : Params} {vref offset : ℚ} {raw : Int} (hc : c.BinaryConstants vref offset)
    (h : isRawSample raw = true) : rawToVoltage c raw = .binary64 (voltageBits vref offset raw) := by
  rw [rawToVoltage, stageScale_eq hc h]
  simp only [stageOffset, hc.arith, off64, hc.offset_eq, ConfiguredValue.number, Volt.toF64]
  rw [add_finite _ _ (isFinite_scaledBits hc.vref_finite h) hc.offset_finite, voltageBits]

theorem toRat_rawToVoltage {c : Params} {vref offset : ℚ} {raw : Int} (hc : c.BinaryConstants vref offset)
    (h : isRawSample raw = true) : (rawToVoltage c raw).toRat = value (voltageBits vref offset raw) := by
  rw [rawToVoltage_eq hc h, Volt.toRat]

/-! ### The corners of R161 and R162 -/

theorem fl64_zero : fl64 0 = 0 := by decide

theorem scaledBits_zero (vref : ℚ) : scaledBits vref 0 = 0 := by
  simp [scaledBits, fl64_zero]

theorem value_scaledBits_min {vref : ℚ} (hv : Binary64.isFinite (fl64 vref) = true) :
    value (scaledBits vref (-8388608)) = -value (fl64 vref) := by
  have hx : ((-8388608 : Int) : ℚ) / 8388608 * value (fl64 vref) = -value (fl64 vref) := by push_cast; ring
  rw [scaledBits, hx, value_fl64_neg _ (abs_value_le_maxFinite _ hv), value_fl64_value _ hv]

theorem value_voltageBits_zero {vref offset : ℚ} (ho : Binary64.isFinite (fl64 offset) = true) :
    value (voltageBits vref offset 0) = value (fl64 offset) := by
  rw [voltageBits, scaledBits_zero, ← fl64_zero, value_fl64_zero, zero_add, value_fl64_value _ ho]

theorem value_voltageBits_zeroOffset {vref : ℚ} {raw : Int} (hv : Binary64.isFinite (fl64 vref) = true)
    (h : isRawSample raw = true) : value (voltageBits vref 0 raw) = value (scaledBits vref raw) := by
  rw [voltageBits, value_fl64_zero, add_zero, value_fl64_value _ (isFinite_scaledBits hv h)]

/-- Settles O44: the quotient of a RawSample by full scale needs no rounding; the other stages are one rounding each. -/
theorem fractionIsExact : Obligations.FractionIsExact := by
  refine ⟨fun c raw h => ⟨toRat_stageFraction h, fun hc => ?_⟩, fun c vref offset raw harith hv ho hvf hof h => ?_⟩
  · refine ⟨_, stageFraction_binary64 hc h, isFinite_fl64 _ (fraction_le_maxFinite h), ?_⟩
    rintro rfl
    simp [fl64_zero]
  · have hc : c.BinaryConstants vref offset := ⟨harith, hv, ho, by rwa [hv] at hvf, by rwa [ho] at hof⟩
    refine ⟨scaledBits vref raw, voltageBits vref offset raw, rfl, rfl, stageScale_eq hc h, rawToVoltage_eq hc h,
      isFinite_scaledBits hc.vref_finite h, ?_, ?_, ?_⟩
    · rintro rfl
      exact value_scaledBits_min hc.vref_finite
    · rintro rfl
      exact ⟨scaledBits_zero vref, value_voltageBits_zero hc.offset_finite⟩
    · rintro rfl
      exact value_voltageBits_zeroOffset hc.vref_finite h

/-! ### Range and order -/

theorem abs_value_fl64_le_of_lt {x : ℚ} (hx : |x| < 2 ^ 1000) : |value (fl64 x)| ≤ 2 ^ (1000 : Int) :=
  abs_value_fl64_le x 1000 (by norm_num) (by norm_num) (by exact_mod_cast hx.le)

theorem Params.constants_of_le {c : Params} {vref offset : ℚ} (k : Int) (hk : k ≤ 1023)
    (harith : c.voltArith = .binary64) (hv : c.vref = .finite vref) (ho : c.offset = .finite offset)
    (hvb : |vref| ≤ 2 ^ k) (hob : |offset| ≤ 2 ^ k) : c.BinaryConstants vref offset where
  arith := harith
  vref_eq := hv
  offset_eq := ho
  vref_finite := isFinite_fl64 _ (abs_le_maxFinite k hk hvb)
  offset_finite := isFinite_fl64 _ (abs_le_maxFinite k hk hob)

theorem Params.constants_of_lt {c : Params} {vref offset : ℚ} (harith : c.voltArith = .binary64)
    (hv : c.vref = .finite vref) (ho : c.offset = .finite offset) (hvb : |vref| < 2 ^ 1000)
    (hob : |offset| < 2 ^ 1000) : c.BinaryConstants vref offset :=
  Params.constants_of_le 1000 (by norm_num) harith hv ho (by exact_mod_cast hvb.le) (by exact_mod_cast hob.le)

/-- P is no larger than VREF64's bound. -/
theorem abs_value_scaledBits_le {vref : ℚ} {raw : Int} (k : Int) (hk : -1021 ≤ k) (hk' : k ≤ 1023)
    (hv : |value (fl64 vref)| ≤ 2 ^ k) (h : isRawSample raw = true) : |value (scaledBits vref raw)| ≤ 2 ^ k :=
  abs_value_fl64_le _ k hk hk' ((abs_fraction_mul_le h _).trans hv)

/-- With constants below 2^1000 the sum of S4 stays far below the largest finite value (42_voltage_scaling R168). -/
theorem sum_le_maxFinite {vref offset : ℚ} {raw : Int} (hv : |vref| < 2 ^ 1000) (ho : |offset| < 2 ^ 1000)
    (h : isRawSample raw = true) : |value (scaledBits vref raw) + value (fl64 offset)| ≤ maxFinite := by
  refine abs_le_maxFinite 1001 (by norm_num) ((abs_add_le _ _).trans ?_)
  calc |value (scaledBits vref raw)| + |value (fl64 offset)|
      ≤ 2 ^ (1000 : Int) + 2 ^ (1000 : Int) :=
        add_le_add (abs_value_scaledBits_le 1000 (by norm_num) (by norm_num) (abs_value_fl64_le_of_lt hv) h)
          (abs_value_fl64_le_of_lt ho)
    _ = 2 ^ (1001 : Int) := by rw [← mul_two, ← zpow_add_one₀ two_ne_zero]; rfl

/-- Settles O45: neither the product nor the sum leaves the finite range. -/
theorem voltagesAreFinite : Obligations.VoltagesAreFinite := by
  intro c vref offset raw harith hv ho hvb hob h
  exact ⟨_, rawToVoltage_eq (Params.constants_of_lt harith hv ho hvb hob) h, isFinite_fl64 _ (sum_le_maxFinite hvb hob h)⟩

/-- A positive VREF may round to zero, not below it. -/
theorem value_fl64_nonneg {x : ℚ} (hx : 0 ≤ x) (hb : |x| ≤ maxFinite) : 0 ≤ value (fl64 x) := by
  rw [← value_fl64_zero]
  exact value_fl64_mono 0 x (by simp [maxFinite_pos.le]) hb hx

theorem value_scaledBits_mono {vref : ℚ} {raw raw' : Int} (hv : Binary64.isFinite (fl64 vref) = true)
    (hpos : 0 ≤ value (fl64 vref)) (h : isRawSample raw = true) (h' : isRawSample raw' = true) (hle : raw ≤ raw') :
    value (scaledBits vref raw) ≤ value (scaledBits vref raw') := by
  refine value_fl64_mono _ _ (scaled_le_maxFinite hv h) (scaled_le_maxFinite hv h') ?_
  gcongr

theorem value_voltageBits_mono {vref offset : ℚ} {raw raw' : Int} (hpos : 0 ≤ vref) (hv : |vref| < 2 ^ 1000)
    (ho : |offset| < 2 ^ 1000) (h : isRawSample raw = true) (h' : isRawSample raw' = true) (hle : raw ≤ raw') :
    value (voltageBits vref offset raw) ≤ value (voltageBits vref offset raw') := by
  have hmax : |vref| ≤ maxFinite := abs_le_maxFinite 1000 (by norm_num) (by exact_mod_cast hv.le)
  refine value_fl64_mono _ _ (sum_le_maxFinite hv ho h) (sum_le_maxFinite hv ho h') ?_
  have := value_scaledBits_mono (isFinite_fl64 _ hmax) (value_fl64_nonneg hpos hmax) h h' hle
  gcongr

/-! ### The reference constants -/

/-- VREF64 of the reference constant. -/
theorem value_fl64_vrefReference : value (fl64 (2048 / 1000)) = 1152921504606847 / 2 ^ 49 := by decide +kernel

/-- OFF64 of the reference constant. -/
theorem value_fl64_offsetReference : value (fl64 (224 / 100000)) = 2582544170319337 / 2 ^ 60 := by decide +kernel

theorem Params.constants_reference {c : Params} (harith : c.voltArith = .binary64)
    (hv : c.vref = .finite (2048 / 1000)) (ho : c.offset = .finite (224 / 100000)) :
    c.BinaryConstants (2048 / 1000) (224 / 100000) :=
  Params.constants_of_le 2 (by norm_num) harith hv ho (by norm_num [abs_of_pos]) (by norm_num [abs_of_pos])

/-- Where VREF64 and OFF64 keep P and V below 4 V, the two roundings are off by at most 2^-52 each. -/
theorem voltage_roundings_error {vref offset : ℚ} {raw : Int} (hv : |value (fl64 vref)| ≤ 3)
    (ho : |value (fl64 offset)| ≤ 1 / 2) (h : isRawSample raw = true) :
    |value (voltageBits vref offset raw) - (raw / 8388608 * value (fl64 vref) + value (fl64 offset))| ≤ 1 / 2 ^ 51 := by
  have hx : |raw / 8388608 * value (fl64 vref)| ≤ 3 := (abs_fraction_mul_le h _).trans hv
  have hp : |value (scaledBits vref raw) - raw / 8388608 * value (fl64 vref)| ≤ 1 / 2 ^ 52 :=
    (value_fl64_error _ 2 (by norm_num) (by norm_num) (hx.trans_lt (by norm_num))).trans (by norm_num)
  have hsum : |value (scaledBits vref raw) + value (fl64 offset)| < 2 ^ (2 : Int) := by
    rw [abs_le] at hx hp ho
    rw [abs_lt]
    constructor <;> linarith
  have hr : |value (voltageBits vref offset raw) - (value (scaledBits vref raw) + value (fl64 offset))| ≤ 1 / 2 ^ 52 :=
    (value_fl64_error _ 2 (by norm_num) (by norm_num) hsum).trans (by norm_num)
  rw [abs_le] at hp hr ⊢
  constructor <;> linarith

/-- The roundings of S3b and S4 with the reference constants. -/
theorem voltage_roundings_error_reference {raw : Int} (h : isRawSample raw = true) :
    |value (voltageBits (2048 / 1000) (224 / 100000) raw) -
      (raw / 8388608 * (1152921504606847 / 2 ^ 49) + 2582544170319337 / 2 ^ 60)| ≤ 1 / 2 ^ 51 := by
  rw [← value_fl64_vrefReference, ← value_fl64_offsetReference]
  refine voltage_roundings_error ?_ ?_ h
  · rw [value_fl64_vrefReference, abs_of_pos (by norm_num)]; norm_num
  · rw [value_fl64_offsetReference, abs_of_pos (by norm_num)]; norm_num

/-- With the reference constants one code is more than 2^-22 V, and the roundings of two voltages are at most 2^-50 V
together. -/
theorem value_voltageBits_strictMono {raw raw' : Int} (h : isRawSample raw = true) (h' : isRawSample raw' = true)
    (hlt : raw < raw') : value (voltageBits (2048 / 1000) (224 / 100000) raw) <
      value (voltageBits (2048 / 1000) (224 / 100000) raw') := by
  have hstep : (raw : ℚ) + 1 ≤ raw' := by exact_mod_cast hlt
  have e := (abs_le.mp (voltage_roundings_error_reference h)).2
  have e' := (abs_le.mp (voltage_roundings_error_reference h')).1
  linarith

/-- Settles O46: each rounding is monotone, and with the reference constants a code's step outweighs the roundings. -/
theorem voltageIsMonotone : Obligations.VoltageIsMonotone := by
  refine ⟨fun c vref offset raw raw' harith hv ho hpos hvb hob h h' hle => ?_,
    fun c raw raw' harith hv ho h h' hlt => ?_⟩
  · have hvb' : |vref| < 2 ^ 1000 := by rwa [abs_of_pos hpos]
    have hc := Params.constants_of_lt harith hv ho hvb' hob
    rw [toRat_rawToVoltage hc h, toRat_rawToVoltage hc h']
    exact value_voltageBits_mono hpos.le hvb' hob h h' hle
  · have hc := Params.constants_reference harith hv ho
    rw [toRat_rawToVoltage hc h, toRat_rawToVoltage hc h']
    exact value_voltageBits_strictMono h h' hlt

/-- Settles O47: the two roundings and the errors of VREF64 and OFF64 together. -/
theorem voltageErrorBound : Obligations.VoltageErrorBound := by
  intro c raw harith hv ho h
  rw [toRat_rawToVoltage (Params.constants_reference harith hv ho) h]
  obtain ⟨hlo, hhi⟩ := abs_le.mp (voltage_roundings_error_reference h)
  obtain ⟨hqlo, hqhi⟩ := abs_le.mp (abs_fraction_le_one h)
  rw [abs_lt]
  constructor <;> linarith

end Sys2Proof.Machine
end

section
/-! PROOF. The wait's count of high polls against the clock (43_sequencer R192 to R196, 60_exceptions R251): what
the invariant says in each phase, that every step keeps it, and what it says of a timeout. -/

namespace Sys2Proof.Machine

/-! ### What the invariant says, by phase -/

/-- Outside a wait the invariant asks nothing. -/
theorem waitFits_of_not_waiting {s : State} (h : s.phase.waiting = false) : s.waitFits = true := by
  unfold State.waitFits
  cases hp : s.phase with
  | waitPoll => simp [hp, Phase.waiting] at h
  | waitSleep => simp [hp, Phase.waiting] at h
  | _ => rfl

theorem waitFits_waitPoll_iff {s : State} (h : s.phase = .waitPoll) :
    s.waitFits = true ↔ 0 < s.wait.pollInterval ∧
      (s.wait.polls : ℚ) * s.wait.pollInterval ≤ s.env.clockFloor - s.wait.t0 ∧
      (s.wait.polls = 0 ∨ ((s.wait.polls : ℚ) - 1) * s.wait.pollInterval ≤ s.wait.timeout) := by
  simp [State.waitFits, h, and_assoc]

theorem waitFits_waitSleep_iff {s : State} (h : s.phase = .waitSleep) :
    s.waitFits = true ↔ 0 < s.wait.pollInterval ∧ 1 ≤ s.wait.polls ∧
      ((s.wait.polls : ℚ) - 1) * s.wait.pollInterval ≤ s.env.clockFloor - s.wait.t0 ∧
      ((s.wait.polls : ℚ) - 1) * s.wait.pollInterval ≤ s.wait.timeout := by
  simp [State.waitFits, h, and_assoc]

/-! ### Every step keeps the invariant -/

/-- A sending phase keeps the invariant where its rule for a response does: a bus fault ends in IDLE. -/
theorem waitFits_sendThen {s : State} {i : Instr} {andThen : State → Frame → State}
    (h : ∀ r, (andThen (s.afterTransfer (encode i) r) r).waitFits = true) : (s.sendThen i andThen).waitFits = true :=
  State.sendThen_induction (P := fun t => t.waitFits = true) h fun _ => waitFits_of_not_waiting rfl

theorem waitFits_phaseProbe (s : State) : (phaseProbe s).waitFits = true := by
  refine waitFits_sendThen fun r => ?_
  dsimp only
  split
  · exact waitFits_of_not_waiting rfl
  · exact waitFits_of_not_waiting rfl

theorem waitFits_phaseTrigger (s : State) : (phaseTrigger s).waitFits = true := by
  unfold phaseTrigger
  split
  · exact waitFits_sendThen fun r => waitFits_of_not_waiting rfl
  · exact waitFits_of_not_waiting rfl

theorem waitFits_phaseCheck (s : State) : (phaseCheck s).waitFits = true := by
  obtain ⟨-, h⟩ | ⟨-, h⟩ := phaseCheck_cases s
  · exact h ▸ waitFits_of_not_waiting rfl
  · exact h ▸ waitFits_of_not_waiting rfl

/-- A phase of `initialize` is none of a wait. -/
theorem Phase.waiting_of_initialising {p : Phase} (h : p.initialising = true) : p.waiting = false := by
  cases p with
  | waitPoll => cases h
  | waitSleep => cases h
  | _ => rfl

/-- A wait starts with no poll made, at the reading that becomes the clock's floor. -/
theorem waitFits_enterWait (caller : WaitCaller) (d b : ℚ) (s : State) :
    (enterWait caller d b s).waitFits = true := by
  obtain ⟨hd, h⟩ | ⟨-, h⟩ := enterWait_cases caller d b s
  · rw [h, waitFits_waitPoll_iff rfl]
    exact ⟨hd, by simp, .inl rfl⟩
  · exact h ▸ waitFits_of_not_waiting rfl

/-- No clock reading of a poll is below the floor before it (60_exceptions R251). -/
theorem Env.clockFloor_le_pollReading (v : Env) : v.clockFloor ≤ v.drawLevel.2.drawClock.1 := by
  simpa using v.drawLevel.2.clockFloor_le_drawClock

/-- At a poll the elapsed time is at least a poll interval for each sleep made. -/
theorem polls_mul_le_elapsed {s : State} (hp : s.phase = .waitPoll) (hs : s.waitFits = true) :
    (s.wait.polls : ℚ) * s.wait.pollInterval ≤ s.env.drawLevel.2.drawClock.1 - s.wait.t0 := by
  obtain ⟨-, hcount, -⟩ := (waitFits_waitPoll_iff hp).mp hs
  have hclock := s.env.clockFloor_le_pollReading
  linarith

theorem waitFits_phasePoll {s : State} (hp : s.phase = .waitPoll) (hs : s.waitFits = true) :
    (phasePoll s).waitFits = true := by
  have helapsed := polls_mul_le_elapsed hp hs
  obtain ⟨hpos, -, -⟩ := (waitFits_waitPoll_iff hp).mp hs
  obtain ⟨-, -, h⟩ | ⟨-, -, h⟩ | ⟨-, hbudget, h⟩ | ⟨-, -, h⟩ := phasePoll_cases s
  · exact h ▸ waitFits_of_not_waiting rfl
  · exact h ▸ waitFits_of_not_waiting rfl
  · rw [h, waitFits_waitSleep_iff rfl]
    refine ⟨hpos, Nat.le_add_left 1 _, ?_, ?_⟩
    · simpa using helapsed
    · simpa using helapsed.trans hbudget
  · exact h ▸ waitFits_of_not_waiting rfl

/-- The sleep lifts the clock's floor by the poll interval that the next poll's count asks for. -/
theorem waitFits_phaseSleep {s : State} (hp : s.phase = .waitSleep) (hs : s.waitFits = true) :
    (phaseSleep s).waitFits = true := by
  obtain ⟨hpos, -, hcount, hbudget⟩ := (waitFits_waitSleep_iff hp).mp hs
  rw [waitFits_waitPoll_iff rfl]
  refine ⟨hpos, ?_, .inr hbudget⟩
  simp only [phaseSleep, State.sleep_wait, State.sleep_env]
  linarith

/-- Every step keeps the wait's count in agreement with the clock. -/
theorem StepTo.waitFits {s t : State} (h : StepTo s t) (hs : s.waitFits = true) : t.waitFits = true := by
  have idle {u : State} (hi : s.phase = .idle) (hu : u.phase = s.phase) : u.waitFits = true :=
    waitFits_of_not_waiting (by rw [hu, hi]; rfl)
  cases h with
  | wait => exact hs
  | call i op rest hi =>
    obtain ⟨r, h⟩ := ({ s with program := rest } : State).codecCall_cases i
    rw [h]
    exact idle hi rfl
  | report op rest r hi => exact idle hi rfl
  | construct => exact waitFits_of_not_waiting rfl
  | initialise => exact waitFits_of_not_waiting rfl
  | waitReady d b rest => exact waitFits_enterWait .host d b _
  | acquire => exact waitFits_of_not_waiting rfl
  | reset => exact waitFits_sendThen fun r => waitFits_of_not_waiting rfl
  | settle => exact waitFits_of_not_waiting rfl
  | probe => exact waitFits_phaseProbe s
  | write i =>
    exact waitFits_sendThen fun r =>
      waitFits_of_not_waiting (Phase.waiting_of_initialising (initialising_afterWrite i))
  | verify i =>
    exact waitFits_sendThen fun r =>
      waitFits_of_not_waiting (Phase.waiting_of_initialising (initialising_afterVerify i))
  | check => exact waitFits_phaseCheck s
  | poll hp => exact waitFits_phasePoll hp hs
  | sleep hp => exact waitFits_phaseSleep hp hs
  | trigger => exact waitFits_phaseTrigger s
  | sync => exact waitFits_enterWait .acquire _ _ s
  | read => exact waitFits_sendThen fun r => waitFits_of_not_waiting rfl
  | convert => exact waitFits_of_not_waiting rfl
  | emit => exact waitFits_of_not_waiting rfl

/-- Settles O60, by the cases of a step: a wait starts with no poll made, a high poll within the budget reads a clock
not below its floor, and the sleep after it lifts the floor by a poll interval. -/
theorem stepKeepsWaitCount : Obligations.StepKeepsWaitCount :=
  fun _ _ hs h => (step_inversion h).waitFits hs

/-- Settles O29: only a high poll over the budget ends in DrdyTimeout, and there the invariant gives both bounds. -/
theorem timeoutBounds : Obligations.TimeoutBounds := by
  intro s t st n e pre hs hp hstep htrace hidle
  have helapsed := polls_mul_le_elapsed hp hs
  obtain ⟨-, -, hlast⟩ := (waitFits_waitPoll_iff hp).mp hs
  obtain rfl : phasePoll s = t := by simpa [step_waitPoll s hp] using hstep
  obtain ⟨-, -, h⟩ | ⟨-, -, h⟩ | ⟨-, -, h⟩ | ⟨-, hover, h⟩ := phasePoll_cases s
  · rw [h, State.complete_trace] at htrace
    simpa using (List.append_inj' htrace rfl).2
  · simp [h] at hidle
  · simp [h] at hidle
  · rw [h, State.raise_trace] at htrace
    obtain ⟨-, rfl, rfl⟩ : Phase.waitPoll = st ∧ s.wait.polls + 1 = n ∧
        s.env.drawLevel.2.drawClock.1 - s.wait.t0 = e := by simpa using (List.append_inj' htrace rfl).2
    refine ⟨hover, by simpa using helapsed, fun hn => ?_⟩
    have hbudget := hlast.resolve_left (by omega)
    push_cast
    linarith

end Sys2Proof.Machine
end

section
/-! PROOF. The phases of `initialize`: its entry, the frames it sends, its settles and its check (43_sequencer R180 to
R186). -/

namespace Sys2Proof.Machine

/-- The end of an operation as one record update, for the statements that give the whole next state. -/
theorem State.finish_eq (s : State) (r : OpResult) :
    s.finish r = { s.discard with phase := .idle, trace := s.trace ++ [.result r] } := rfl

theorem State.raise_eq (s : State) (d : DeviceState) (e : Err) :
    s.raise d e = { s.discard with devState := d, phase := .idle, trace := s.trace ++ [.result (.err e)] } := rfl

theorem State.complete_eq (s : State) (d : DeviceState) (x : OkValue) :
    s.complete d x = { s.discard with devState := d, phase := .idle, trace := s.trace ++ [.result (.ok x)] } := rfl

/-- The command of a phase does what the phase's step does. -/
theorem exec_of_step {s t : State} {i : Instr} (hc : s.command = some i) (h : step s = .next t) :
    exec i s = .next t :=
  (stepRunsTheDecodedCommand.2.2.1 s i hc).symm.trans h

/-! ### Entry -/

theorem checkValue_eq_none_iff (x : Int) : checkValue x = none ↔ 0 ≤ x ∧ x ≤ 255 := by
  simp [checkValue, isByteValue]

theorem checkValue_of_not_byte {x : Int} (h : ¬(0 ≤ x ∧ x ≤ 255)) : checkValue x = some (.badValue x) := by
  simpa [checkValue, isByteValue] using h

/-- The checks of a profile take its values in index order and stop at the first that is no byte. -/
theorem profileError_eq_findSome? (p0 p1 p2 p3 : Int) :
    profileError p0 p1 p2 p3 = [p0, p1, p2, p3].findSome? checkValue := by
  change _ = ([p0] ++ [p1] ++ [p2] ++ [p3]).findSome? checkValue
  simp only [List.findSome?_append, List.findSome?_singleton, profileError]

theorem profileError_eq_none {p0 p1 p2 p3 : Int} (h : ∀ x ∈ [p0, p1, p2, p3], 0 ≤ x ∧ x ≤ 255) :
    profileError p0 p1 p2 p3 = none := by
  rw [profileError_eq_findSome?, List.findSome?_eq_none_iff]
  exact fun x hx => (checkValue_eq_none_iff x).mpr (h x hx)

theorem profileError_of_first_bad {p0 p1 p2 p3 x : Int} {good after : List Int}
    (heq : [p0, p1, p2, p3] = good ++ x :: after) (hgood : ∀ y ∈ good, 0 ≤ y ∧ y ≤ 255)
    (hx : ¬(0 ≤ x ∧ x ≤ 255)) : profileError p0 p1 p2 p3 = some (.badValue x) := by
  have hnone : good.findSome? checkValue = none :=
    List.findSome?_eq_none_iff.mpr fun y hy => (checkValue_eq_none_iff y).mpr (hgood y hy)
  rw [profileError_eq_findSome?, heq, List.findSome?_append, hnone, Option.none_or, List.findSome?_cons,
    checkValue_of_not_byte hx]

/-- A profile given by the numbers of its bytes holds these bytes. -/
theorem profileBytes_toNat (p : Quad) : profileBytes p.b0.toNat p.b1.toNat p.b2.toNat p.b3.toNat = p := by
  simp [profileBytes]

/-- The entry of `initialize` with four bytes writes PROFILE and goes to INIT_RESET (43_sequencer R180). -/
theorem step_initialise {s : State} {rest : List HostOp} (p : Quad) (hi : s.phase = .idle)
    (hp : s.program = .initialise p.b0.toNat p.b1.toNat p.b2.toNat p.b3.toNat :: rest)
    (hc : configurationError s.params = none) :
    step s = .next { s with program := rest, profile := p, profileWritten := true, phase := .initReset } := by
  have hbyte (b : Byte) : 0 ≤ (b.toNat : Int) ∧ (b.toNat : Int) ≤ 255 := by
    have := b.isLt
    omega
  have hnone := profileError_eq_none (p0 := p.b0.toNat) (p1 := p.b1.toNat) (p2 := p.b2.toNat) (p3 := p.b3.toNat)
    (by simp [hbyte])
  rw [step_runOp hi hp (by simp) (by simp) (.inl hc)]
  simp [runOp, opInitialise, hnone, profileBytes_toNat]

/-- Settles O14: the checks pass four bytes, and stop at the first value that is none. -/
theorem initialiseEntry : Obligations.InitialiseEntry := by
  intro s p0 p1 p2 p3 rest hi hp hc
  refine ⟨fun h => ?_, fun good x after heq hgood hx => ?_⟩
  · have hbyte (x : Int) (hx : x ∈ [p0, p1, p2, p3]) : ∃ b : Byte, x = (b.toNat : Int) :=
      (isByteValue_iff x).mp (by simpa [isByteValue] using h x hx)
    obtain ⟨c0, rfl⟩ := hbyte p0 (by simp)
    obtain ⟨c1, rfl⟩ := hbyte p1 (by simp)
    obtain ⟨c2, rfl⟩ := hbyte p2 (by simp)
    obtain ⟨c3, rfl⟩ := hbyte p3 (by simp)
    exact ⟨c0, c1, c2, c3, rfl, rfl, rfl, rfl, step_initialise ⟨c0, c1, c2, c3⟩ hi hp hc⟩
  · rw [step_runOp hi hp (by simp) (by simp) (.inl hc)]
    simp [runOp, opInitialise, profileError_of_first_bad heq hgood hx, State.log]

/-! ### RESET, the settle and the probe -/

theorem phaseReset_responds {s : State} {r : Frame} (h : s.responds (encode .reset) r) :
    phaseReset s = { s.afterTransfer (encode .reset) r with phase := .initSettle } :=
  s.sendThen_responds .reset _ r h

/-- Settles O15: the command of INIT_RESET is its step, whose transfer is answered. -/
theorem resetPhase : Obligations.ResetPhase := by
  intro s r hp hr
  rw [exec_of_step (by simp [State.command, hp]) (step_initReset s hp), phaseReset_responds hr]
  rfl

/-- Settles O16: the phase sends no command, so the step is its rule. -/
theorem settlePhase : Obligations.SettlePhase :=
  fun s hp => step_initSettle s hp

theorem deviceSilent_iff (c : Byte) : deviceSilent c = true ↔ c = 0xFF := decide_eq_true_iff

/-- A probe that reads another value than 0xFF goes on to the writes (43_sequencer R183). -/
theorem phaseProbe_alive {s : State} {x c : Byte} (h : s.responds (encode (.rreg 0)) [x, c]) (hc : c ≠ 0xFF) :
    phaseProbe s = { s.afterTransfer (encode (.rreg 0)) [x, c] with phase := .initWrite 0 } :=
  (s.sendThen_responds (.rreg 0) _ [x, c] h).trans (if_neg (mt (deviceSilent_iff c).mp hc))

theorem phaseProbe_silent {s : State} {x : Byte} (h : s.responds (encode (.rreg 0)) [x, 0xFF]) :
    phaseProbe s = (s.afterTransfer (encode (.rreg 0)) [x, 0xFF]).raise .uninitialized
      (.deviceUnresponsive .initProbe 0 0xFF) :=
  (s.sendThen_responds (.rreg 0) _ [x, 0xFF] h).trans (if_pos rfl)

/-- Settles O17: the probe's answer is the sentinel or it is not. -/
theorem probePhase : Obligations.ProbePhase := by
  intro s x c hp hr
  rw [show ([0x20, 0x00] : Frame) = encode (.rreg 0) from rfl] at hr ⊢
  rw [exec_of_step (by simp [State.command, hp]) (step_initProbe s hp)]
  split
  · rename_i hc
    subst hc
    rw [phaseProbe_silent hr, State.raise_eq]
    simp [State.discard, State.afterTransfer]
  · rename_i hc
    rw [phaseProbe_alive hr hc]

/-! ### Writes and verify reads -/

theorem encode_rreg_index (i : Fin 4) :
    encode (.rreg (i.val : Int)) = [0x20 ||| (BitVec.ofNat 8 i.val <<< 2), 0x00] := by
  simp [encode, commandByte]

theorem encode_writeCommand (s : State) (i : Fin 4) :
    encode (s.writeCommand i) = [0x40 ||| (BitVec.ofNat 8 i.val <<< 2), s.profile.get i] := by
  simp [State.writeCommand, encode, commandByte]

theorem Phase.afterWrite_eq (i : Fin 4) :
    Phase.afterWrite i = if h : i.val < 3 then .initWrite ⟨i.val + 1, by omega⟩ else .initVerify 0 := by
  fin_cases i <;> rfl

theorem Phase.afterVerify_eq (i : Fin 4) :
    Phase.afterVerify i = if h : i.val < 3 then .initVerify ⟨i.val + 1, by omega⟩ else .initCheck := by
  fin_cases i <;> rfl

theorem phaseWrite_responds {s : State} {i : Fin 4} {r : Frame} (h : s.responds (encode (s.writeCommand i)) r) :
    phaseWrite i s = { s with
      env := { s.env.drawBus.2 with clockFloor := s.env.clockFloor + s.params.writeSettle }
      trace := s.trace ++ [.xfer (encode (s.writeCommand i)) r, .sleep s.params.writeSettle]
      phase := Phase.afterWrite i } :=
  (s.sendThen_responds (s.writeCommand i)
    (fun t _ => { t.sleep t.params.writeSettle with phase := Phase.afterWrite i }) r h).trans
    (by simp [State.sleep, State.log, State.afterTransfer])

theorem phaseVerify_responds {s : State} {i : Fin 4} {r : Frame}
    (h : s.responds (encode (.rreg (i.val : Int))) r) :
    phaseVerify i s = { s.afterTransfer (encode (.rreg (i.val : Int))) r with
      rb := s.rb.set i (decodeRegisterResponse r)
      phase := Phase.afterVerify i } :=
  s.sendThen_responds (.rreg (i.val : Int)) _ r h

/-- Settles O18: the command of INIT_WRITE(i) is its step, whose transfer is answered. -/
theorem writePhase : Obligations.WritePhase := by
  intro s i r hp hr
  rw [← encode_writeCommand] at hr ⊢
  rw [exec_of_step (by simp only [State.command, hp]) (step_initWrite s i hp), phaseWrite_responds hr,
    Phase.afterWrite_eq]

/-- Settles O19: writing one readback leaves the others. -/
theorem verifyPhase : Obligations.VerifyPhase := by
  intro s i x c hp hr
  rw [← encode_rreg_index] at hr ⊢
  refine ⟨s.rb.set i c, by simp [Quad.get_set], fun j hj => by simp [Quad.get_set, hj], ?_⟩
  rw [exec_of_step (by simp only [State.command, hp]) (step_initVerify s i hp), phaseVerify_responds hr,
    Phase.afterVerify_eq]
  rfl

/-! ### The check -/

theorem mem_mismatches_iff (profile rb : Quad) (m : Fin 4 × Byte × Byte) :
    m ∈ mismatches profile rb ↔
      rb.get m.1 ≠ profile.get m.1 ∧ m.2 = (profile.get m.1, rb.get m.1) := by
  have hall (i : Fin 4) : i ∈ ([0, 1, 2, 3] : List (Fin 4)) := by fin_cases i <;> decide
  obtain ⟨i, pair⟩ := m
  simp only [mismatches, List.mem_filterMap, hall, true_and]
  constructor
  · rintro ⟨j, hj⟩
    split at hj
    · cases hj
    · cases hj
      exact ⟨‹_›, rfl⟩
  · rintro ⟨hne, rfl⟩
    exact ⟨i, if_neg hne⟩

theorem mismatches_eq_nil_iff (profile rb : Quad) :
    mismatches profile rb = [] ↔ ∀ i, rb.get i = profile.get i := by
  rw [List.eq_nil_iff_forall_not_mem]
  simp only [mem_mismatches_iff]
  exact ⟨fun h i => not_not.mp fun hne => h (i, profile.get i, rb.get i) ⟨hne, rfl⟩, fun h m hm => hm.1 (h m.1)⟩

/-- The mismatches are listed in ascending index. -/
theorem pairwise_mismatches (profile rb : Quad) :
    ((mismatches profile rb).map fun m => m.1.val).Pairwise (· < ·) := by
  rw [List.pairwise_map, mismatches, List.pairwise_filterMap]
  have hasc : ([0, 1, 2, 3] : List (Fin 4)).Pairwise (· < ·) := by decide
  refine hasc.imp fun {i j} hij a ha b hb => ?_
  split at ha
  · cases ha
  · split at hb
    · cases hb
    · cases ha
      cases hb
      exact hij

theorem phaseCheck_equal {s : State} (h : ∀ i, s.rb.get i = s.profile.get i) :
    phaseCheck s = s.complete .configured .done := by
  obtain ⟨-, e⟩ | ⟨hne, -⟩ := phaseCheck_cases s
  · exact e
  · exact absurd ((mismatches_eq_nil_iff _ _).mpr h) hne

theorem phaseCheck_mismatch {s : State} (h : ∃ i, s.rb.get i ≠ s.profile.get i) :
    phaseCheck s = s.raise .faulted (.configurationMismatch .initCheck (mismatches s.profile s.rb)) := by
  obtain ⟨hnil, -⟩ | ⟨-, e⟩ := phaseCheck_cases s
  · obtain ⟨i, hi⟩ := h
    exact absurd ((mismatches_eq_nil_iff _ _).mp hnil i) hi
  · exact e

/-- Settles O20: the readbacks are equal exactly where no mismatch is listed. -/
theorem checkPhase : Obligations.CheckPhase := by
  intro s hp
  refine ⟨fun h => ?_, fun h => ⟨mismatches s.profile s.rb, mem_mismatches_iff _ _, pairwise_mismatches _ _, ?_⟩⟩
  · rw [step_initCheck s hp, phaseCheck_equal h, State.complete_eq]
  · rw [step_initCheck s hp, phaseCheck_mismatch h, State.raise_eq]

end Sys2Proof.Machine
end

section
/-! PROOF. Runs of steps: their composition, what they keep, and the fields that a run inside an operation leaves. -/

namespace Sys2Proof.Machine

theorem run_one {s t : State} (h : step s = .next t) : Sys2Proof.core.run 1 s = .next t :=
  run_next 0 h

theorem run_trans {j k : Nat} {s t u : State} (hj : Sys2Proof.core.run j s = .next t)
    (hk : Sys2Proof.core.run k t = .next u) : Sys2Proof.core.run (j + k) s = .next u :=
  (run_add j k hj).trans hk

/-- What every step keeps holds after a run. -/
theorem run_keeps {P : State → Prop} (hkeep : ∀ {s t : State}, step s = .next t → P s → P t) (k : Nat) {s t : State}
    (h : Sys2Proof.core.run k s = .next t) (hs : P s) : P t := by
  induction k generalizing s with
  | zero =>
    cases h
    exact hs
  | succ k ih =>
    cases hstep : step s with
    | next u => exact ih ((run_next k hstep).symm.trans h) (hkeep hstep hs)
    | fault r => cases r
    | refused r => simp [Host.Core.run, show Sys2Proof.core.step s = .refused r from hstep] at h

/-- `k` steps inside an operation lead from `s` to `t` and perform `events`; PROFILE and the host's program stay. -/
structure Runs (k : Nat) (s t : State) (events : List Event) : Prop where
  run : Sys2Proof.core.run k s = .next t
  trace : t.trace = s.trace ++ events
  params : t.params = s.params := by rfl
  profile : t.profile = s.profile := by rfl
  program : t.program = s.program := by rfl

theorem Runs.refl (s : State) : Runs 0 s s [] where
  run := rfl
  trace := (List.append_nil _).symm

theorem Runs.trans {j k : Nat} {s t u : State} {a b : List Event} (h : Runs j s t a) (h' : Runs k t u b) :
    Runs (j + k) s u (a ++ b) where
  run := run_trans h.run h'.run
  trace := by rw [h'.trace, h.trace, List.append_assoc]
  params := h'.params.trans h.params
  profile := h'.profile.trans h.profile
  program := h'.program.trans h.program

end Sys2Proof.Machine
end

section
/-! PROOF. The phases of a wait and of a cycle (43_sequencer R190 to R195, R210 to R214), and how a cycle ends
(R216). -/

namespace Sys2Proof.Machine

/-! ### The wait -/

theorem enterWait_of_pos {caller : WaitCaller} {d : ℚ} (b : ℚ) (s : State) (h : 0 < d) :
    enterWait caller d b s = { s with
      env := s.env.drawClock.2
      trace := s.trace ++ [.clock s.env.drawClock.1]
      wait := { pollInterval := d, timeout := b, t0 := s.env.drawClock.1, polls := 0, caller := caller }
      phase := .waitPoll } := by
  obtain ⟨-, e⟩ | ⟨hneg, -⟩ := enterWait_cases caller d b s
  · exact e
  · exact absurd h hneg

theorem enterWait_of_not_pos {caller : WaitCaller} {d : ℚ} (b : ℚ) (s : State) (h : ¬ 0 < d) :
    enterWait caller d b s = s.finish (.err (.badParameter .pollInterval)) := by
  obtain ⟨hpos, -⟩ | ⟨-, e⟩ := enterWait_cases caller d b s
  · exact absurd hpos h
  · exact e

/-- Settles O23: the entry runs with the program's rest, and its one check is of the poll interval. -/
theorem waitEntry : Obligations.WaitEntry := by
  intro s d b rest hi hp hc
  have hstep := step_runOp hi hp (by simp) (by simp) (.inl hc)
  refine ⟨fun hd => ?_, fun hd => ?_⟩
  · rw [hstep, runOp, enterWait_of_pos b _ hd]
  · rw [hstep, runOp, enterWait_of_not_pos b _ hd, State.finish_eq]
    rfl

theorem phasePoll_low {s : State} (hl : s.env.drawLevel.1 = .low) : phasePoll s = waitReadyLow s.readLevel.1 := by
  simp [phasePoll, hl, dataReady]

/-- Settles O24: the caller of the wait decides where a low poll leads. -/
theorem lowPoll : Obligations.LowPoll := by
  intro s hp hl
  refine ⟨fun hc => ?_, fun hc => ?_⟩
  · rw [step_waitPoll s hp, phasePoll_low hl]
    simp [waitReadyLow, hc, State.complete_eq, State.discard, State.readLevel, State.log, hl]
  · rw [step_waitPoll s hp, phasePoll_low hl]
    simp [waitReadyLow, hc, State.readLevel, State.log, hl]

theorem pollEvents_eq (period n : Nat) (now : ℚ) :
    pollEvents period n now = [.level .high] ++ (if n % period = 0 then [.progress n] else []) ++ [.clock now] := by
  simp [pollEvents, progressDue]

/-- Settles O25: of the cases of a poll only that of a high poll within the budget is left. -/
theorem highPollWithinBudget : Obligations.HighPollWithinBudget := by
  intro s hp hl hbudget
  rw [step_waitPoll s hp]
  obtain ⟨hl', -⟩ | ⟨hl', -⟩ | ⟨-, -, h⟩ | ⟨-, hover, -⟩ := phasePoll_cases s
  · simp [hl] at hl'
  · simp [hl] at hl'
  · rw [h, pollEvents_eq]
    simp
  · exact absurd hbudget (not_le.mpr hover)

/-- Settles O26: of the cases of a poll only that of a high poll over the budget is left. -/
theorem highPollOverBudget : Obligations.HighPollOverBudget := by
  intro s hp hl hover
  rw [step_waitPoll s hp]
  obtain ⟨hl', -⟩ | ⟨hl', -⟩ | ⟨-, hbudget, -⟩ | ⟨-, -, h⟩ := phasePoll_cases s
  · simp [hl] at hl'
  · simp [hl] at hl'
  · exact absurd hover (not_lt.mpr hbudget)
  · rw [h, pollEvents_eq, State.raise_eq]
    simp [State.discard]

/-- Settles O27: the phase sends no command, so the step is its rule. -/
theorem sleepPhase : Obligations.SleepPhase :=
  fun s hp => step_waitSleep s hp

/-! ### The cycle -/

theorem phaseTrigger_configured {s : State} {r : Frame} (hd : s.devState = .configured)
    (h : s.responds (encode .start) r) :
    phaseTrigger s = { s.afterTransfer (encode .start) r with devState := .conversionPending, phase := .acqSync } :=
  (if_pos hd).trans (s.sendThen_responds .start _ r h)

theorem step_acqTrigger_notConfigured {s : State} (hp : s.phase = .acqTrigger) (hd : s.devState ≠ .configured) :
    step s = .next { s.discard with
      phase := .idle, trace := s.trace ++ [.result (.err (.notConfigured .acqTrigger s.devState))] } := by
  rw [step_acqTrigger s hp, phaseTrigger, if_neg hd, State.raise_eq]
  rfl

theorem step_acquire {s : State} {rest : List HostOp} (hi : s.phase = .idle) (hp : s.program = .acquire :: rest)
    (hc : configurationError s.params = none) :
    step s = .next { s with program := rest, phase := .acqTrigger } :=
  step_runOp hi hp (by simp) (by simp) (.inl hc)

/-- Settles O31: the entry writes only the phase, so the check of DeviceState in the next step sees it as it was. -/
theorem triggerPhase : Obligations.TriggerPhase := by
  refine ⟨fun s rest hi hp hc => ⟨step_acquire hi hp hc, fun hd => ?_⟩, fun s hp => ⟨fun hd => ?_, fun r hd hr => ?_⟩⟩
  · exact run_trans (run_one (step_acquire hi hp hc)) (run_one (step_acqTrigger_notConfigured rfl hd))
  · exact exec_of_step (by simp [State.command, hp]) (step_acqTrigger_notConfigured hp hd)
  · rw [exec_of_step (by simp [State.command, hp]) (step_acqTrigger s hp), phaseTrigger_configured hd hr]
    rfl

/-- Settles O32: ACQ_SYNC is the entry of a wait with the parameters as its operands. -/
theorem syncPhase : Obligations.SyncPhase := by
  intro s hp hd
  rw [step_acqSync s hp, phaseSync, enterWait_of_pos _ s hd]

theorem phaseRead_responds {s : State} {r : Frame} (h : s.responds (encode .rdata) r) :
    phaseRead s = { s.afterTransfer (encode .rdata) r with
      u24 := responseCode r
      raw := signExtend (responseCode r)
      devState := .sampleReady
      phase := .acqConvert } :=
  s.sendThen_responds .rdata _ r h

/-- Settles O33: S1 joins bytes 1 to 3, and S2 reads the code as a two's complement number. -/
theorem readPhase : Obligations.ReadPhase := by
  intro s x b0 b1 b2 hp hr
  refine ⟨assemble b0 b1 b2, signExtend (assemble b0 b1 b2), toNat_assemble b0 b1 b2, ?_, ?_⟩
  · rw [toInt_signExtend, BitVec.toInt_eq_toNat_cond]
    split <;> split <;> omega
  · rw [exec_of_step (by simp [State.command, hp]) (step_acqRead s hp), phaseRead_responds hr]
    rfl

/-- Settles O34: the phase sends no command, so the step is its rule. -/
theorem convertPhase : Obligations.ConvertPhase :=
  fun s hp => step_acqConvert s hp

/-- Settles O35: the record is made of the reading and the latches before they are discarded. -/
theorem emitPhase : Obligations.EmitPhase := by
  intro s hp
  rw [step_acqEmit s hp]
  simp [phaseEmit, State.complete_eq, State.discard, State.now, State.log]

/-! ### How a cycle ends -/

/-- `t` is IDLE and the last event is a result with which a started cycle may end (43_sequencer R216). -/
def State.cycleEnded (t : State) : Prop :=
  t.phase = .idle ∧ ∃ r, t.trace.getLast? = some (.result r) ∧
    ((∃ record, r = .ok (.sampled record)) ∨ (∃ st n e, r = .err (.drdyTimeout st n e)) ∨
      ∃ st reg f, r = .err (.busError st reg f))

theorem State.cycleEnded_finish (s : State) {r : OpResult}
    (h : (∃ record, r = .ok (.sampled record)) ∨ (∃ st n e, r = .err (.drdyTimeout st n e)) ∨
      ∃ st reg f, r = .err (.busError st reg f)) : (s.finish r).cycleEnded :=
  ⟨rfl, r, by simp, h⟩

theorem inCycle_wait_iff {s : State} (h : s.phase = .waitPoll ∨ s.phase = .waitSleep) :
    s.inCycle = true ↔ s.wait.caller = .acquire := by
  obtain h | h := h <;> simp [State.inCycle, h]

/-- A poll of a cycle goes on to ACQ_READ or WAIT_SLEEP, or times out. -/
theorem inCycle_or_ended_phasePoll {s : State} (hc : s.wait.caller = .acquire) :
    (phasePoll s).inCycle = true ∨ (phasePoll s).cycleEnded := by
  obtain ⟨-, hhost, -⟩ | ⟨-, -, h⟩ | ⟨-, -, h⟩ | ⟨-, -, h⟩ := phasePoll_cases s
  · simp [hc] at hhost
  · exact .inl (h ▸ rfl)
  · exact .inl (by simp [h, State.inCycle, hc])
  · exact .inr (h ▸ State.cycleEnded_finish _ (.inr (.inl ⟨_, _, _, rfl⟩)))

/-- Every step of a started cycle stays in it or ends it. -/
theorem StepTo.inCycle_or_ended {s t : State} (h : StepTo s t) (hs : s.inCycle = true)
    (hv : s.params.valid = true) : t.inCycle = true ∨ t.cycleEnded := by
  have outside {p : Prop} (hp : s.inCycle = false) : p := by simp [hp] at hs
  have idle (hi : s.phase = .idle) : s.inCycle = false := by simp [State.inCycle, hi]
  cases h with
  | wait hp => exact outside (idle hp)
  | call i op rest hp => exact outside (idle hp)
  | report op rest r hp => exact outside (idle hp)
  | construct rest hp => exact outside (idle hp)
  | initialise p0 p1 p2 p3 rest hp => exact outside (idle hp)
  | waitReady d b rest hp => exact outside (idle hp)
  | acquire rest hp => exact outside (idle hp)
  | reset hp => exact outside (by simp [State.inCycle, hp])
  | settle hp => exact outside (by simp [State.inCycle, hp])
  | probe hp => exact outside (by simp [State.inCycle, hp])
  | write i hp => exact outside (by simp [State.inCycle, hp])
  | verify i hp => exact outside (by simp [State.inCycle, hp])
  | check hp => exact outside (by simp [State.inCycle, hp])
  | poll hp => exact inCycle_or_ended_phasePoll ((inCycle_wait_iff (.inl hp)).mp hs)
  | sleep hp => exact .inl ((inCycle_wait_iff (.inl rfl)).mpr ((inCycle_wait_iff (.inr hp)).mp hs))
  | trigger hp => exact outside (by simp [State.inCycle, hp])
  | sync => exact .inl (by rw [phaseSync, enterWait_of_pos _ s (Params.pollInterval_pos hv)]; rfl)
  | read =>
    exact State.sendThen_induction (P := fun t => t.inCycle = true ∨ t.cycleEnded) (fun r => .inl rfl)
      fun e => .inr (State.cycleEnded_finish _ (.inr (.inr ⟨_, _, _, rfl⟩)))
  | convert => exact .inl rfl
  | emit => exact .inr (State.cycleEnded_finish _ (.inl ⟨_, rfl⟩))

/-- Settles O37, by the cases of a step: a valid configuration lets the wait of the cycle start. -/
theorem cycleEndsOnlySo : Obligations.CycleEndsOnlySo :=
  fun _ _ hs hv h => (step_inversion h).inCycle_or_ended hs hv

end Sys2Proof.Machine
end

section
/-! PROOF. Whole initializations: the frames and settles in order, and how the check of the readbacks ends them
(43_sequencer R187, R188). -/

namespace Sys2Proof.Machine

/-! ### Steps whose transfer is answered by the next listed response -/

/-- A listed response of the frame's length answers the next transfer (60_exceptions R251). -/
theorem State.responds_of_bus {s : State} {out r : Frame} {rest : List BusAnswer}
    (hb : s.env.bus = .response r :: rest) (hlen : r.length = out.length) : s.responds out r :=
  ⟨by rw [State.busAnswer, s.env.drawBus_cons _ _ hb]; rfl, hlen⟩

theorem Env.drawBus_bus_of_cons {v : Env} {a : BusAnswer} {rest : List BusAnswer} (hb : v.bus = a :: rest) :
    v.drawBus.2.bus = rest := by
  rw [v.drawBus_cons _ _ hb]

theorem runs_reset {s : State} {a : Byte} {rest : List BusAnswer} (hp : s.phase = .initReset)
    (hb : s.env.bus = .response [a] :: rest) :
    ∃ t, Runs 1 s t [.xfer [0x06] [a]] ∧ t.phase = .initSettle ∧ t.env.bus = rest := by
  have h := phaseReset_responds (State.responds_of_bus hb rfl)
  exact ⟨_, { run := run_one ((step_initReset s hp).trans (congrArg _ h)), trace := rfl }, rfl,
    Env.drawBus_bus_of_cons hb⟩

theorem runs_settle {s : State} (hp : s.phase = .initSettle) :
    ∃ t, Runs 1 s t [.sleep s.params.resetSettle] ∧ t.phase = .initProbe ∧ t.env.bus = s.env.bus :=
  ⟨_, { run := run_one (step_initSettle s hp), trace := rfl }, rfl, rfl⟩

theorem runs_probe {s : State} {x c : Byte} {rest : List BusAnswer} (hp : s.phase = .initProbe)
    (hb : s.env.bus = .response [x, c] :: rest) (hc : c ≠ 0xFF) :
    ∃ t, Runs 1 s t [.xfer [0x20, 0x00] [x, c]] ∧ t.phase = .initWrite 0 ∧ t.env.bus = rest := by
  have h := phaseProbe_alive (State.responds_of_bus hb rfl) hc
  exact ⟨_, { run := run_one ((step_initProbe s hp).trans (congrArg _ h)), trace := rfl }, rfl,
    Env.drawBus_bus_of_cons hb⟩

theorem runs_write {s : State} (i : Fin 4) {y z : Byte} {rest : List BusAnswer} (hp : s.phase = .initWrite i)
    (hb : s.env.bus = .response [y, z] :: rest) :
    ∃ t, Runs 1 s t [.xfer [0x40 ||| (BitVec.ofNat 8 i.val <<< 2), s.profile.get i] [y, z],
        .sleep s.params.writeSettle] ∧
      t.phase = Phase.afterWrite i ∧ t.env.bus = rest := by
  have h := phaseWrite_responds (i := i) (State.responds_of_bus hb rfl)
  rw [encode_writeCommand] at h
  exact ⟨_, { run := run_one ((step_initWrite s i hp).trans (congrArg _ h)), trace := rfl }, rfl,
    Env.drawBus_bus_of_cons hb⟩

theorem runs_verify {s : State} (i : Fin 4) {x c : Byte} {rest : List BusAnswer} (hp : s.phase = .initVerify i)
    (hb : s.env.bus = .response [x, c] :: rest) :
    ∃ t, Runs 1 s t [.xfer [0x20 ||| (BitVec.ofNat 8 i.val <<< 2), 0x00] [x, c]] ∧
      t.phase = Phase.afterVerify i ∧ t.env.bus = rest ∧ t.rb = s.rb.set i c := by
  have h := phaseVerify_responds (i := i) (State.responds_of_bus hb rfl)
  rw [encode_rreg_index] at h
  exact ⟨_, { run := run_one ((step_initVerify s i hp).trans (congrArg _ h)), trace := rfl }, rfl,
    Env.drawBus_bus_of_cons hb, rfl⟩

/-! ### The four writes and the four verify reads -/

/-- Four answered writes go on to the first verify read (43_sequencer R184). -/
theorem runs_writes {s : State} {y0 z0 y1 z1 y2 z2 y3 z3 : Byte} {more : List BusAnswer}
    (hp : s.phase = .initWrite 0)
    (hb : s.env.bus = [.response [y0, z0], .response [y1, z1], .response [y2, z2], .response [y3, z3]] ++ more) :
    ∃ t, Runs 4 s t
        [.xfer [0x40, s.profile.b0] [y0, z0], .sleep s.params.writeSettle,
          .xfer [0x44, s.profile.b1] [y1, z1], .sleep s.params.writeSettle,
          .xfer [0x48, s.profile.b2] [y2, z2], .sleep s.params.writeSettle,
          .xfer [0x4C, s.profile.b3] [y3, z3], .sleep s.params.writeSettle] ∧
      t.phase = .initVerify 0 ∧ t.env.bus = more := by
  obtain ⟨t0, h0, hp0, hb0⟩ := runs_write 0 hp hb
  obtain ⟨t1, h1, hp1, hb1⟩ := runs_write 1 hp0 hb0
  obtain ⟨t2, h2, hp2, hb2⟩ := runs_write 2 hp1 hb1
  obtain ⟨t3, h3, hp3, hb3⟩ := runs_write 3 hp2 hb2
  have h := ((h0.trans h1).trans h2).trans h3
  rw [h2.profile, h2.params, h1.profile, h1.params, h0.profile, h0.params] at h
  exact ⟨t3, h, hp3, hb3⟩

/-- Four answered verify reads fill the readbacks and go on to the check (43_sequencer R185). -/
theorem runs_verifies {s : State} {v : Quad} {x0 x1 x2 x3 : Byte} {more : List BusAnswer}
    (hp : s.phase = .initVerify 0)
    (hb : s.env.bus =
      [.response [x0, v.b0], .response [x1, v.b1], .response [x2, v.b2], .response [x3, v.b3]] ++ more) :
    ∃ t, Runs 4 s t
        [.xfer [0x20, 0x00] [x0, v.b0], .xfer [0x24, 0x00] [x1, v.b1], .xfer [0x28, 0x00] [x2, v.b2],
          .xfer [0x2C, 0x00] [x3, v.b3]] ∧
      t.phase = .initCheck ∧ t.env.bus = more ∧ t.rb = v := by
  obtain ⟨t0, h0, hp0, hb0, hrb0⟩ := runs_verify 0 hp hb
  obtain ⟨t1, h1, hp1, hb1, hrb1⟩ := runs_verify 1 hp0 hb0
  obtain ⟨t2, h2, hp2, hb2, hrb2⟩ := runs_verify 2 hp1 hb1
  obtain ⟨t3, h3, hp3, hb3, hrb3⟩ := runs_verify 3 hp2 hb2
  refine ⟨t3, ((h0.trans h1).trans h2).trans h3, hp3, hb3, ?_⟩
  rw [hrb3, hrb2, hrb1, hrb0]
  rfl

/-! ### The check -/

theorem runs_check_equal {s : State} (hp : s.phase = .initCheck) (h : s.rb = s.profile) :
    ∃ t, Runs 1 s t [.result (.ok .done)] ∧ t.devState = .configured ∧ t.phase = .idle ∧ t.env.bus = s.env.bus := by
  have hstep := (step_initCheck s hp).trans (congrArg _ (phaseCheck_equal fun i => congrArg (Quad.get · i) h))
  exact ⟨_, { run := run_one hstep, trace := rfl }, rfl, rfl, rfl⟩

theorem runs_check_mismatch {s : State} (hp : s.phase = .initCheck) (h : s.rb ≠ s.profile) :
    ∃ t bad, Runs 1 s t [.result (.err (.configurationMismatch .initCheck bad))] ∧ bad ≠ [] ∧
      t.devState = .faulted ∧ t.phase = .idle := by
  have hne : ∃ i, s.rb.get i ≠ s.profile.get i := not_forall.mp (mt (Quad.ext_get s.rb s.profile) h)
  have hbad : mismatches s.profile s.rb ≠ [] := fun hnil => not_forall.mpr hne ((mismatches_eq_nil_iff _ _).mp hnil)
  have hstep := (step_initCheck s hp).trans (congrArg _ (phaseCheck_mismatch hne))
  exact ⟨_, _, { run := run_one hstep, trace := rfl }, hbad, rfl, rfl⟩

/-- Settles O21: the entry, then RESET, settle, probe, four writes, four verify reads and the check. -/
theorem initialiseEcho : Obligations.InitialiseEcho := by
  intro s p rest more a x c y0 z0 y1 z1 y2 z2 y3 z3 x0 x1 x2 x3 hi hconf hprog hbus hc
  have hentry := run_one (step_initialise p hi hprog hconf)
  obtain ⟨t1, h1, hp1, hb1⟩ := runs_reset
    (s := { s with program := rest, profile := p, profileWritten := true, phase := .initReset }) rfl hbus
  obtain ⟨t2, h2, hp2, hb2⟩ := runs_settle hp1
  obtain ⟨t3, h3, hp3, hb3⟩ := runs_probe hp2 (hb2.trans hb1) hc
  obtain ⟨t4, h4, hp4, hb4⟩ := runs_writes hp3 hb3
  obtain ⟨t5, h5, hp5, hb5, hrb⟩ := runs_verifies hp4 hb4
  have hread := (((h1.trans h2).trans h3).trans h4).trans h5
  obtain ⟨t6, h6, hdev, hidle, hb6⟩ := runs_check_equal hp5 (hrb.trans hread.profile.symm)
  have hall := hread.trans h6
  rw [h3.params, h3.profile, h2.params, h2.profile, h1.params, h1.profile] at hall
  exact ⟨t6, run_trans hentry hall.run, hdev, hidle, hall.profile, hall.program, hb6.trans hb5, hall.trace⟩

/-- Settles O22: four verify reads, then the check of readbacks that differ. -/
theorem initialiseMismatch : Obligations.InitialiseMismatch := by
  intro s v more x0 x1 x2 x3 hp hbus hne
  obtain ⟨t, h, hcheck, -, hrb⟩ := runs_verifies hp hbus
  obtain ⟨u, bad, h', hbad, hdev, hidle⟩ := runs_check_mismatch hcheck (by rwa [hrb, h.profile])
  have hall := h.trans h'
  exact ⟨u, bad, hall.run, hbad, hdev, hidle, hall.trace⟩

end Sys2Proof.Machine
end

section
/-! PROOF. Whole waits and cycles: rounds of a high poll and its sleep, the termination of a wait (43_sequencer R196),
and a cycle from its call to its record (R215). -/

namespace Sys2Proof.Machine

/-! ### A round of the wait -/

theorem runs_highPoll {s : State} (hp : s.phase = .waitPoll) (hl : s.env.drawLevel.1 = .high)
    (hbudget : s.env.drawLevel.2.drawClock.1 - s.wait.t0 ≤ s.wait.timeout) :
    ∃ t, Runs 1 s t (pollEvents s.params.progressPeriod (s.wait.polls + 1) s.env.drawLevel.2.drawClock.1) ∧
      t.phase = .waitSleep ∧ t.wait = { s.wait with polls := s.wait.polls + 1 } ∧
      t.env = s.env.drawLevel.2.drawClock.2 :=
  ⟨_, { run := run_one (highPollWithinBudget s hp hl hbudget), trace := by simp [pollEvents_eq] }, rfl, rfl, rfl⟩

theorem runs_sleep {s : State} (hp : s.phase = .waitSleep) :
    ∃ t, Runs 1 s t [.sleep s.wait.pollInterval] ∧ t.phase = .waitPoll ∧ t.wait = s.wait ∧
      t.env = { s.env with clockFloor := s.env.clockFloor + s.wait.pollInterval } :=
  ⟨_, { run := run_one (sleepPhase s hp), trace := rfl }, rfl, rfl, rfl⟩

/-- A high poll within the budget and its sleep lead back to WAIT_POLL. -/
theorem runs_highRound {s : State} (hp : s.phase = .waitPoll) (hl : s.env.drawLevel.1 = .high)
    (hbudget : s.env.drawLevel.2.drawClock.1 - s.wait.t0 ≤ s.wait.timeout) :
    ∃ t, Runs 2 s t (pollEvents s.params.progressPeriod (s.wait.polls + 1) s.env.drawLevel.2.drawClock.1 ++
        [.sleep s.wait.pollInterval]) ∧
      t.phase = .waitPoll ∧ t.wait = { s.wait with polls := s.wait.polls + 1 } ∧
      t.env = { s.env.drawLevel.2.drawClock.2 with
        clockFloor := s.env.drawLevel.2.drawClock.1 + s.wait.pollInterval } := by
  obtain ⟨u, h, hup, hwait, henv⟩ := runs_highPoll hp hl hbudget
  obtain ⟨t, h', htp, hwait', henv'⟩ := runs_sleep hup
  rw [hwait] at h' hwait' henv'
  exact ⟨t, h.trans h', htp, hwait', by rw [henv', henv, Env.drawClock_clockFloor]⟩

/-! ### Termination -/

/-- Some number of steps ends in IDLE with a DrdyTimeout of at most `bound` polls, past the budget. -/
def State.timesOutWithin (s : State) (bound : Nat) : Prop :=
  ∃ (k n : Nat) (e : ℚ) (t : State), Sys2Proof.core.run k s = .next t ∧ t.phase = .idle ∧ n ≤ bound ∧
    s.wait.timeout < e ∧ t.trace.getLast? = some (.result (.err (.drdyTimeout .waitPoll n e)))

/-- The budget is less than the next multiple of the poll interval. -/
theorem timeout_lt_mul {d : ℚ} (b : ℚ) (hd : 0 < d) : b < (((⌊b / d⌋.toNat : ℕ) : ℚ) + 1) * d := by
  rw [Int.floor_toNat]
  exact (div_lt_iff₀ hd).mp (Nat.lt_floor_add_one (b / d))

theorem timesOut_of_over {s : State} {bound : Nat} (hp : s.phase = .waitPoll) (hl : s.env.drawLevel.1 = .high)
    (hover : s.wait.timeout < s.env.drawLevel.2.drawClock.1 - s.wait.t0) (hn : s.wait.polls + 1 ≤ bound) :
    s.timesOutWithin bound :=
  ⟨1, _, _, _, run_one (highPollOverBudget s hp hl hover), rfl, hn, hover, List.getLast?_append.trans rfl⟩

/-- The invariant bounds the polls that can still come: after floor(timeout / poll_interval) + 2 polls the last but
one would have been past the budget. -/
theorem timesOut_of_waitFits {more : List Level} (r : Nat) {s : State} {bound : Nat} (hp : s.phase = .waitPoll)
    (hs : s.waitFits = true) (hline : s.env.line = List.replicate r Level.high ++ more)
    (hbound : s.wait.polls + r = bound) (heq : ⌊s.wait.timeout / s.wait.pollInterval⌋.toNat + 2 = bound) :
    s.timesOutWithin bound := by
  induction r generalizing s with
  | zero =>
    obtain ⟨hpos, -, hlast⟩ := (waitFits_waitPoll_iff hp).mp hs
    have hpast := timeout_lt_mul s.wait.timeout hpos
    have hpolls : s.wait.polls = ⌊s.wait.timeout / s.wait.pollInterval⌋.toNat + 2 := by omega
    have hwithin := hlast.resolve_left (by omega)
    rw [hpolls] at hwithin
    push_cast at hwithin
    linarith
  | succ r ih =>
    have hdraw := s.env.drawLevel_cons .high (List.replicate r Level.high ++ more) hline
    have hl : s.env.drawLevel.1 = .high := by rw [hdraw]
    obtain hbudget | hover := le_or_gt (s.env.drawLevel.2.drawClock.1 - s.wait.t0) s.wait.timeout
    · obtain ⟨t, h, htp, hwait, henv⟩ := runs_highRound hp hl hbudget
      have ht : t.waitFits = true := run_keeps (fun {u v} h hu => stepKeepsWaitCount u v hu h) 2 h.run hs
      have hpolls : t.wait.polls = s.wait.polls + 1 := by rw [hwait]
      have htline : t.env.line = List.replicate r Level.high ++ more := by
        rw [henv]
        simp [hdraw]
      obtain ⟨k, n, e, u, hrun, hu⟩ := ih htp ht htline (by rw [hpolls]; omega) (by rw [hwait]; exact heq)
      rw [hwait] at hu
      exact ⟨2 + k, n, e, u, run_trans h.run hrun, hu⟩
    · exact timesOut_of_over hp hl hover (by omega)

/-- Settles O30: a wait with no poll made meets the invariant. -/
theorem waitTerminates : Obligations.WaitTerminates := by
  intro s more hp hpolls hpos _ ht0 hline
  have hs : s.waitFits = true := (waitFits_waitPoll_iff hp).mpr ⟨hpos, by simpa [hpolls] using ht0, .inl hpolls⟩
  exact timesOut_of_waitFits _ hp hs hline (by omega) rfl

/-! ### Rounds over a clock that moves by the sleeps alone -/

theorem highPollEvents_eq (period : Nat) (start d : ℚ) (j : Nat) :
    highPollEvents period start d j = pollEvents period (j + 1) (start + j * d) ++ [.sleep d] := by
  simp [highPollEvents, pollEvents_eq]

/-- A reading that is listed and not above the floor gives the floor (60_exceptions R251). -/
theorem Env.drawClock_of_le {v : Env} {c : ℚ} {rest : List ℚ} (hc : v.clock = c :: rest) (hle : c ≤ v.clockFloor) :
    v.drawClock = (v.clockFloor, { v with clock := rest, draws := v.draws + 1 }) := by
  rw [v.drawClock_cons c rest hc, max_eq_right hle]

/-- A round over a listed high level and a listed reading that the floor lifts. -/
theorem runs_listedHighRound {s : State} {line : List Level} {c : ℚ} {clock : List ℚ} (hp : s.phase = .waitPoll)
    (hline : s.env.line = .high :: line) (hclock : s.env.clock = c :: clock) (hle : c ≤ s.env.clockFloor)
    (hbudget : s.env.clockFloor - s.wait.t0 ≤ s.wait.timeout) :
    ∃ t, Runs 2 s t (pollEvents s.params.progressPeriod (s.wait.polls + 1) s.env.clockFloor ++
        [.sleep s.wait.pollInterval]) ∧
      t.phase = .waitPoll ∧ t.wait = { s.wait with polls := s.wait.polls + 1 } ∧
      t.env = { s.env with
        line := line
        clock := clock
        clockFloor := s.env.clockFloor + s.wait.pollInterval
        draws := s.env.draws + 2 } := by
  have hlevel := s.env.drawLevel_cons _ _ hline
  have hnow := Env.drawClock_of_le (v := s.env.drawLevel.2) (by rw [hlevel]; exact hclock) (by rw [hlevel]; exact hle)
  obtain ⟨t, h, htp, hwait, henv⟩ := runs_highRound hp (congrArg Prod.fst hlevel) (by rw [hnow, hlevel]; exact hbudget)
  rw [hnow, hlevel] at h henv
  exact ⟨t, h, htp, hwait, henv⟩

/-- `k` high polls within the budget, each with its sleep: the clock's floor is the start plus the sleeps since. -/
theorem runs_highRounds {line : List Level} {clock : List ℚ} (k : Nat) {s : State} (hp : s.phase = .waitPoll)
    (hpos : 0 < s.wait.pollInterval) (hline : s.env.line = List.replicate k Level.high ++ line)
    (hclock : s.env.clock = List.replicate k s.wait.t0 ++ clock)
    (hfloor : s.env.clockFloor = s.wait.t0 + s.wait.polls * s.wait.pollInterval)
    (hbudget : ∀ j < s.wait.polls + k, (j : ℚ) * s.wait.pollInterval ≤ s.wait.timeout) :
    ∃ t, Runs (2 * k) s t ((List.range' s.wait.polls k).flatMap
        (highPollEvents s.params.progressPeriod s.wait.t0 s.wait.pollInterval)) ∧
      t.phase = .waitPoll ∧ t.wait = { s.wait with polls := s.wait.polls + k } ∧ t.env.bus = s.env.bus ∧
      t.env.line = line ∧ t.env.clock = clock ∧
      t.env.clockFloor = s.wait.t0 + (s.wait.polls + k) * s.wait.pollInterval := by
  induction k generalizing s with
  | zero => exact ⟨s, .refl s, hp, rfl, rfl, hline, hclock, by simpa using hfloor⟩
  | succ k ih =>
    obtain ⟨t, h, htp, hwait, henv⟩ := runs_listedHighRound (line := List.replicate k Level.high ++ line)
      (clock := List.replicate k s.wait.t0 ++ clock) hp hline hclock
      (by rw [hfloor]; exact le_add_of_nonneg_right (by positivity))
      (by rw [hfloor]; simpa using hbudget s.wait.polls (by omega))
    rw [hfloor, ← highPollEvents_eq] at h
    rw [hfloor] at henv
    obtain ⟨u, h', hup, huwait, hubus, huline, huclock, hufloor⟩ := ih (s := t) htp (by rw [hwait]; exact hpos)
      (by rw [henv]) (by rw [henv, hwait]) (by rw [henv, hwait]; push_cast; ring)
      (fun j hj => by rw [hwait] at hj ⊢; exact hbudget j (by dsimp only at hj; omega))
    rw [hwait] at h' huwait hufloor
    rw [h.params] at h'
    refine ⟨u, ?_, hup, ?_, ?_, huline, huclock, ?_⟩
    · rw [List.range'_succ, List.flatMap_cons, Nat.mul_succ, Nat.add_comm]
      exact h.trans h'
    · rw [huwait, Nat.add_right_comm, Nat.add_assoc]
    · rw [hubus, henv]
    · rw [hufloor]
      push_cast
      ring

end Sys2Proof.Machine
end

section
/-! PROOF. A whole cycle, from the call of `acquire` to its record (43_sequencer R215). -/

namespace Sys2Proof.Machine

/-! ### The phases of a cycle over listed answers -/

theorem runs_trigger {s : State} {a : Byte} {rest : List BusAnswer} (hp : s.phase = .acqTrigger)
    (hd : s.devState = .configured) (hb : s.env.bus = .response [a] :: rest) :
    ∃ t, Runs 1 s t [.xfer [0x08] [a]] ∧ t.phase = .acqSync ∧
      t.env = { s.env with bus := rest, draws := s.env.draws + 1 } := by
  have h := phaseTrigger_configured hd (State.responds_of_bus hb rfl)
  exact ⟨_, { run := run_one ((step_acqTrigger s hp).trans (congrArg _ h)), trace := rfl }, rfl,
    congrArg Prod.snd (s.env.drawBus_cons _ _ hb)⟩

theorem runs_sync {s : State} {rest : List ℚ} (hp : s.phase = .acqSync) (hpos : 0 < s.params.pollInterval)
    (hclock : s.env.clock = s.env.clockFloor :: rest) :
    ∃ t, Runs 1 s t [.clock s.env.clockFloor] ∧ t.phase = .waitPoll ∧
      t.wait = { pollInterval := s.params.pollInterval, timeout := s.params.drdyTimeout, t0 := s.env.clockFloor,
                 polls := 0, caller := .acquire } ∧
      t.env = { s.env with clock := rest, draws := s.env.draws + 1 } := by
  have h := syncPhase s hp hpos
  rw [Env.drawClock_of_le hclock le_rfl] at h
  exact ⟨_, { run := run_one h, trace := rfl }, rfl, rfl, rfl⟩

theorem runs_lowPoll {s : State} {rest : List Level} (hp : s.phase = .waitPoll) (hc : s.wait.caller = .acquire)
    (hline : s.env.line = .low :: rest) :
    ∃ t, Runs 1 s t [.level .low] ∧ t.phase = .acqRead ∧
      t.env = { s.env with line := rest, draws := s.env.draws + 1 } := by
  have hdraw := s.env.drawLevel_cons _ _ hline
  exact ⟨_, { run := run_one ((lowPoll s hp (congrArg Prod.fst hdraw)).2 hc), trace := rfl }, rfl,
    congrArg Prod.snd hdraw⟩

theorem runs_read {s : State} {x b0 b1 b2 : Byte} {rest : List BusAnswer} (hp : s.phase = .acqRead)
    (hb : s.env.bus = .response [x, b0, b1, b2] :: rest) :
    ∃ t, Runs 1 s t [.xfer [0x10, 0x00, 0x00, 0x00] [x, b0, b1, b2]] ∧ t.phase = .acqConvert ∧
      t.raw = signExtend (assemble b0 b1 b2) ∧ t.env = { s.env with bus := rest, draws := s.env.draws + 1 } := by
  have h := phaseRead_responds (State.responds_of_bus hb rfl)
  exact ⟨_, { run := run_one ((step_acqRead s hp).trans (congrArg _ h)), trace := rfl }, rfl, rfl,
    congrArg Prod.snd (s.env.drawBus_cons _ _ hb)⟩

/-- The record that a cycle makes of a RawSample at a reading of the clock (43_sequencer R213, R214). -/
def SampleRecord.ofRaw (c : Params) (now : ℚ) (raw : Int) : SampleRecord :=
  { timestamp := now, rawSample := raw, voltage := rawToVoltage c raw, gainSetting := c.gainSetting }

theorem runs_convertEmit {s : State} {c : ℚ} {rest : List ℚ} {r : SampleRecord} (hp : s.phase = .acqConvert)
    (hclock : s.env.clock = c :: rest) (hle : c ≤ s.env.clockFloor)
    (hr : r = SampleRecord.ofRaw s.params s.env.clockFloor s.raw.toInt) :
    ∃ t, Runs 2 s t [.clock r.timestamp, .emit r, .result (.ok (.sampled r))] ∧
      t.devState = .configured ∧ t.phase = .idle := by
  subst hr
  have hemit := emitPhase _ (show (phaseConvert s).phase = .acqEmit from rfl)
  rw [show (phaseConvert s).env = s.env from rfl, Env.drawClock_of_le hclock hle] at hemit
  exact ⟨_, { run := run_trans (run_one (step_acqConvert s hp)) (run_one hemit), trace := rfl }, rfl, rfl⟩

/-! ### The cycle -/

/-- Where the last of `k` high polls is within the budget, all are. -/
theorem polls_within_budget {k : Nat} {d b : ℚ} (hpos : 0 < d) (h : k = 0 ∨ ((k : ℚ) - 1) * d ≤ b) (j : Nat)
    (hj : j < k) : (j : ℚ) * d ≤ b := by
  have hlast := h.resolve_left (by omega)
  have hle : (j : ℚ) ≤ k - 1 := by
    have : (j : ℚ) + 1 ≤ k := by exact_mod_cast hj
    linarith
  exact (mul_le_mul_of_nonneg_right hle hpos.le).trans hlast

theorem pollInterval_pos_of_configured {c : Params} (h : configurationError c = none) : 0 < c.pollInterval := by
  unfold configurationError pollIntervalError at h
  split_ifs at h
  assumption

/-- ACQ_TRIGGER and ACQ_SYNC lead to the wait of the cycle. -/
theorem runs_triggerSync {s : State} {a : Byte} {rest : List BusAnswer} {clock : List ℚ} (hp : s.phase = .acqTrigger)
    (hd : s.devState = .configured) (hpos : 0 < s.params.pollInterval) (hbus : s.env.bus = .response [a] :: rest)
    (hclock : s.env.clock = s.env.clockFloor :: clock) :
    ∃ t, Runs 2 s t [.xfer [0x08] [a], .clock s.env.clockFloor] ∧ t.phase = .waitPoll ∧
      t.wait = { pollInterval := s.params.pollInterval, timeout := s.params.drdyTimeout, t0 := s.env.clockFloor,
                 polls := 0, caller := .acquire } ∧
      t.env = { s.env with bus := rest, clock := clock, draws := s.env.draws + 2 } := by
  obtain ⟨t1, h1, hp1, henv1⟩ := runs_trigger hp hd hbus
  obtain ⟨t2, h2, hp2, hwait2, henv2⟩ :=
    runs_sync (rest := clock) hp1 (h1.params ▸ hpos) (by rw [henv1]; exact hclock)
  rw [henv1] at h2 hwait2 henv2
  rw [h1.params] at hwait2
  exact ⟨t2, h1.trans h2, hp2, hwait2, henv2⟩

/-- The low poll, RDATA, conversion and record end the cycle. -/
theorem runs_readOut {s : State} {x b0 b1 b2 : Byte} {bus : List BusAnswer} {line : List Level} {c : ℚ}
    {clock : List ℚ} {r : SampleRecord} (hp : s.phase = .waitPoll) (hc : s.wait.caller = .acquire)
    (hbus : s.env.bus = .response [x, b0, b1, b2] :: bus) (hline : s.env.line = .low :: line)
    (hclock : s.env.clock = c :: clock) (hle : c ≤ s.env.clockFloor)
    (hr : r = SampleRecord.ofRaw s.params s.env.clockFloor (decodeSample b0 b1 b2)) :
    ∃ t, Runs 4 s t [.level .low, .xfer [0x10, 0x00, 0x00, 0x00] [x, b0, b1, b2], .clock r.timestamp, .emit r,
        .result (.ok (.sampled r))] ∧
      t.devState = .configured ∧ t.phase = .idle := by
  obtain ⟨t1, h1, hp1, henv1⟩ := runs_lowPoll hp hc hline
  obtain ⟨t2, h2, hp2, hraw2, henv2⟩ := runs_read (rest := bus) hp1 (by rw [henv1]; exact hbus)
  rw [henv1] at henv2
  have hr2 : r = SampleRecord.ofRaw t2.params t2.env.clockFloor t2.raw.toInt := by
    rw [h2.params, h1.params, henv2, hraw2, hr]
    rfl
  obtain ⟨t3, h3, hdev, hidle⟩ := runs_convertEmit hp2 (by rw [henv2]; exact hclock) (by rw [henv2]; exact hle) hr2
  exact ⟨t3, (h1.trans h2).trans h3, hdev, hidle⟩

/-- The steps of a cycle after its entry. -/
theorem runs_cycle {s : State} {k : Nat} {a x b0 b1 b2 : Byte} {bus : List BusAnswer} {line : List Level}
    {clock : List ℚ} {r : SampleRecord} (hp : s.phase = .acqTrigger) (hd : s.devState = .configured)
    (hpos : 0 < s.params.pollInterval) (hbus : s.env.bus = .response [a] :: .response [x, b0, b1, b2] :: bus)
    (hline : s.env.line = List.replicate k Level.high ++ Level.low :: line)
    (hclock : s.env.clock = List.replicate (k + 2) s.env.clockFloor ++ clock)
    (hbudget : k = 0 ∨ ((k : ℚ) - 1) * s.params.pollInterval ≤ s.params.drdyTimeout)
    (hr : r = SampleRecord.ofRaw s.params (s.env.clockFloor + k * s.params.pollInterval) (decodeSample b0 b1 b2)) :
    ∃ t, Runs (2 * k + 6) s t
        ([.xfer [0x08] [a], .clock s.env.clockFloor]
          ++ (List.range k).flatMap (highPollEvents s.params.progressPeriod s.env.clockFloor s.params.pollInterval)
          ++ [.level .low, .xfer [0x10, 0x00, 0x00, 0x00] [x, b0, b1, b2], .clock r.timestamp, .emit r,
            .result (.ok (.sampled r))]) ∧
      t.devState = .configured ∧ t.phase = .idle := by
  have hclocks : s.env.clock =
      s.env.clockFloor :: (List.replicate k s.env.clockFloor ++ s.env.clockFloor :: clock) := by
    rw [hclock, List.replicate_succ, List.replicate_succ']
    simp
  obtain ⟨t1, h1, hp1, hwait1, henv1⟩ := runs_triggerSync hp hd hpos hbus hclocks
  obtain ⟨t2, h2, hp2, hwait2, hbus2, hline2, hclock2, hfloor2⟩ := runs_highRounds k hp1 (by rw [hwait1]; exact hpos)
    (by rw [henv1]; exact hline) (by rw [henv1, hwait1]) (by simp [henv1, hwait1])
    (by simpa [hwait1] using polls_within_budget hpos hbudget)
  rw [hwait1, h1.params] at h2
  rw [henv1] at hbus2
  rw [hwait1] at hfloor2
  simp only [Nat.cast_zero, zero_add] at hfloor2
  obtain ⟨t3, h3, hdev, hidle⟩ := runs_readOut hp2 (by rw [hwait2, hwait1]) hbus2 hline2 hclock2
    (by rw [hfloor2]; exact le_add_of_nonneg_right (by positivity))
    (hr.trans (by rw [h2.params, h1.params, hfloor2]))
  have hall := (h1.trans h2).trans h3
  rw [Nat.add_right_comm, Nat.add_comm] at hall
  rw [List.range_eq_range']
  exact ⟨t3, hall, hdev, hidle⟩

/-- Settles O36: the entry, START, the entry of the wait, the rounds of the high polls, the low poll, RDATA,
conversion and record. -/
theorem acquireCycle : Obligations.AcquireCycle := by
  intro s k a x b0 b1 b2 rest bus line clock hi hd hconf hprog hbus hline hclock hbudget
  obtain ⟨t, h, hdev, hidle⟩ := runs_cycle (s := { s with program := rest, phase := .acqTrigger }) rfl hd
    (pollInterval_pos_of_configured hconf) hbus hline hclock hbudget rfl
  have hrun := run_trans (run_one (step_acquire hi hprog hconf)) h.run
  rw [Nat.add_comm] at hrun
  exact ⟨t, hrun, hdev, hidle, h.program, _, rfl, rfl, rfl, rfl, by simpa only [List.append_assoc] using h.trace⟩

end Sys2Proof.Machine
end

section
/-! PROOF. Error entry, bus errors and clock readings (60_exceptions R236, R238, R251). -/

namespace Sys2Proof.Machine

/-- Settles O12: the discarded fields hold the cleared values, and the others are those of `s`. -/
theorem errorEntry : Obligations.ErrorEntry :=
  fun s d e => s.raise_eq d e

/-- A bus fault as one record update, for the statements that give the whole next state. -/
theorem State.busFault_eq (s : State) (i : Instr) (e : Event) :
    s.busFault i e = { s.discard with
      devState := .faulted
      phase := .idle
      env := s.env.drawBus.2
      trace := s.trace ++ [e, .result (.err (.busError s.phase s.phase.register (encode i)))] } := by
  rw [State.busFault, State.raise_eq]
  simp [State.discard]

/-- A sent command whose transfer is a bus error ends in the bus fault. START is sent only where DeviceState is
Configured (43_sequencer R210). -/
theorem SentTo.eq_busFault {s t : State} {i : Instr} {e : Event} (h : SentTo s i t)
    (hstart : i = .start → s.devState = .configured) (he : s.busErrorEvent (encode i) = some e) :
    t = s.busFault i e := by
  cases h with
  | reset => exact s.sendThen_busError .reset _ e he
  | probe => exact s.sendThen_busError (.rreg 0) _ e he
  | write j => exact s.sendThen_busError (s.writeCommand j) _ e he
  | verify j => exact s.sendThen_busError (.rreg (j.val : Int)) _ e he
  | trigger => exact (if_pos (hstart rfl)).trans (s.sendThen_busError .start _ e he)
  | read => exact s.sendThen_busError .rdata _ e he

/-- Settles O11: a command in its sending phase is executed by that phase's rule, which ends in the bus fault. -/
theorem busErrorFaults : Obligations.BusErrorFaults := by
  intro s i e ⟨hc, hstart⟩ he
  obtain ⟨t, ht⟩ := exec_answers i s
  rw [ht, (exec_sent hc ht).eq_busFault hstart he, State.busFault_eq]

/-- Settles O28: a reading is the listed one lifted to the floor, so one that is not below the floor stays. -/
theorem clockReadings : Obligations.ClockReadings := by
  intro v t rest
  refine ⟨v.clockFloor_le_drawClock, v.drawClock_clockFloor, fun hc hle => ?_⟩
  rw [v.drawClock_cons t rest hc]
  exact ⟨max_eq_left hle, rfl⟩

end Sys2Proof.Machine
end

section
/-! PROOF. The results of operations: a step that ends an operation gives one, and every other step gives none
(60_exceptions R230, R237). -/

namespace Sys2Proof.Machine

/-- What a step inside an operation does to the results: it ends the operation with one result more, or it goes on
with none. -/
inductive State.ResultStep (s t : State) : Prop
  | ends (r : OpResult) : t.phase = .idle → t.results = s.results ++ [r] → State.ResultStep s t
  | goesOn : t.phase ≠ .idle → t.results = s.results → State.ResultStep s t

/-! ### The results of a longer trace -/

theorem results_append {s t : State} {events : List Event} (ht : t.trace = s.trace ++ events) :
    t.results = s.results ++ ({ s with trace := events } : State).results := by
  simp only [State.results, ht, List.filterMap_append]

/-- Primitives give no result: the first events of a step, up to the result that may follow them. -/
theorem results_of_primitives {s t : State} {events : List Event} (ht : t.trace = s.trace ++ events)
    (he : ∀ r, Event.result r ∉ events) : t.results = s.results := by
  have hnone : ({ s with trace := events } : State).results = [] := by
    refine List.filterMap_eq_nil_iff.mpr fun e hmem => ?_
    cases e with
    | result r => exact absurd hmem (he r)
    | _ => rfl
  rw [results_append ht, hnone, List.append_nil]

theorem results_finish (s : State) (r : OpResult) : (s.finish r).results = s.results ++ [r] :=
  results_append (s.finish_trace r)

/-- The event of a bus error is no result. -/
theorem State.busErrorEvent_ne_result {s : State} {out : Frame} {e : Event} (h : s.busErrorEvent out = some e)
    (r : OpResult) : Event.result r ∉ [e] := by
  obtain rfl | ⟨bytes, -, rfl⟩ := s.busErrorEvent_cases out e h <;> simp

theorem result_not_mem_pollEvents (period n : Nat) (now : ℚ) (r : OpResult) :
    Event.result r ∉ pollEvents period n now := by
  cases h : progressDue period n <;> simp [pollEvents, h]

/-! ### How a step ends or goes on -/

/-- The end of an operation after primitives gives its one result. -/
theorem State.ResultStep.ends_after_primitives {s u : State} {events : List Event} (r : OpResult)
    (hu : u.trace = s.trace ++ events) (he : ∀ r, Event.result r ∉ events) : s.ResultStep (u.finish r) :=
  .ends r rfl (by rw [results_finish, results_of_primitives hu he])

/-- An operation whose last step adds its result and nothing else. -/
theorem State.ResultStep.of_result {s t : State} {r : OpResult} (hi : t.phase = .idle)
    (ht : t.trace = s.trace ++ [.result r]) : s.ResultStep t :=
  .ends r hi (results_append ht)

/-- An operation that goes on after primitives has given no result. -/
theorem State.ResultStep.goesOn_after_primitives {s t : State} {events : List Event} (hp : t.phase ≠ .idle)
    (ht : t.trace = s.trace ++ events) (he : ∀ r, Event.result r ∉ events) : s.ResultStep t :=
  .goesOn hp (results_of_primitives ht he)

/-- Primitives before a rule leave what the rule does to the results. -/
theorem State.ResultStep.of_primitives {s u t : State} {events : List Event} (h : u.ResultStep t)
    (hu : u.trace = s.trace ++ events) (he : ∀ r, Event.result r ∉ events) : s.ResultStep t := by
  have hsame := results_of_primitives hu he
  cases h with
  | ends r hp ht => exact .ends r hp (by rw [ht, hsame])
  | goesOn hp ht => exact .goesOn hp (by rw [ht, hsame])

/-- A sending phase gives results as its rule for a response does, and a bus fault gives one. -/
theorem State.resultStep_sendThen {s : State} {i : Instr} {andThen : State → Frame → State}
    (h : ∀ (t : State) (r : Frame), t.ResultStep (andThen t r)) : s.ResultStep (s.sendThen i andThen) := by
  obtain ⟨r, -, e⟩ | ⟨event, he, e⟩ := s.sendThen_cases i andThen
  · rw [e]
    exact (h _ r).of_primitives (s.afterTransfer_trace _ r) (by simp)
  · rw [e]
    exact .ends_after_primitives _ rfl (State.busErrorEvent_ne_result he)

/-! ### Each phase -/

theorem resultStep_phaseProbe (s : State) : s.ResultStep (phaseProbe s) := by
  refine State.resultStep_sendThen fun t r => ?_
  dsimp only
  split
  · exact .of_result rfl rfl
  · exact .goesOn (by simp) rfl

theorem resultStep_phaseWrite (i : Fin 4) (s : State) : s.ResultStep (phaseWrite i s) :=
  State.resultStep_sendThen fun t _ =>
    .goesOn_after_primitives (Phase.afterWrite_ne_idle i) (t.sleep_trace t.params.writeSettle) (by simp)

theorem resultStep_phaseTrigger (s : State) : s.ResultStep (phaseTrigger s) := by
  unfold phaseTrigger
  split
  · exact State.resultStep_sendThen fun t r => .goesOn (by simp) rfl
  · exact .of_result rfl rfl

theorem resultStep_phaseCheck (s : State) : s.ResultStep (phaseCheck s) := by
  obtain ⟨-, h⟩ | ⟨-, h⟩ := phaseCheck_cases s
  · exact h ▸ .of_result rfl rfl
  · exact h ▸ .of_result rfl rfl

theorem resultStep_phasePoll (s : State) : s.ResultStep (phasePoll s) := by
  obtain ⟨-, -, h⟩ | ⟨-, -, h⟩ | ⟨-, -, h⟩ | ⟨-, -, h⟩ := phasePoll_cases s
  · exact h ▸ .ends_after_primitives _ rfl (by simp)
  · exact h ▸ .goesOn_after_primitives (by simp) rfl (by simp)
  · exact h ▸ .goesOn_after_primitives (by simp) rfl (result_not_mem_pollEvents _ _ _)
  · exact h ▸ .ends_after_primitives _ rfl (result_not_mem_pollEvents _ _ _)

theorem resultStep_enterWait (caller : WaitCaller) (d b : ℚ) (s : State) :
    s.ResultStep (enterWait caller d b s) := by
  obtain ⟨-, h⟩ | ⟨-, h⟩ := enterWait_cases caller d b s
  · exact h ▸ .goesOn_after_primitives (by simp) rfl (by simp)
  · exact h ▸ .of_result rfl rfl

theorem resultStep_phaseEmit (s : State) : s.ResultStep (phaseEmit s) :=
  .ends_after_primitives _ (List.append_assoc s.trace [_] [_]) (by simp)

/-- Every step but the wait in IDLE for an operation gives results as a step inside one does. -/
theorem StepTo.resultStep {s t : State} (h : StepTo s t) (hbusy : s.phase ≠ .idle ∨ s.program ≠ []) :
    s.ResultStep t := by
  cases h with
  | wait hi hp => simp [hi, hp] at hbusy
  | call i op rest hi =>
    obtain ⟨r, h⟩ := ({ s with program := rest } : State).codecCall_cases i
    rw [h]
    exact .of_result hi rfl
  | report op rest r hi => exact .of_result hi rfl
  | construct => exact .of_result rfl rfl
  | initialise => exact .goesOn (by simp) rfl
  | waitReady d b rest =>
    exact (resultStep_enterWait .host d b _).of_primitives (s.trace.append_nil).symm (by simp)
  | acquire => exact .goesOn (by simp) rfl
  | reset => exact State.resultStep_sendThen fun t r => .goesOn (by simp) rfl
  | settle => exact .goesOn_after_primitives (by simp [phaseSettle]) (s.sleep_trace _) (by simp)
  | probe => exact resultStep_phaseProbe s
  | write i => exact resultStep_phaseWrite i s
  | verify i => exact State.resultStep_sendThen fun t r => .goesOn (Phase.afterVerify_ne_idle i) rfl
  | check => exact resultStep_phaseCheck s
  | poll => exact resultStep_phasePoll s
  | sleep => exact .goesOn_after_primitives (by simp [phaseSleep]) (s.sleep_trace _) (by simp)
  | trigger => exact resultStep_phaseTrigger s
  | sync => exact resultStep_enterWait .acquire _ _ s
  | read => exact State.resultStep_sendThen fun t r => .goesOn (by simp) rfl
  | convert => exact .goesOn (by simp [phaseConvert]) rfl
  | emit => exact resultStep_phaseEmit s

/-- In IDLE with no operation to take, the block waits (70_reset_and_hazards R270). -/
theorem step_waits {s : State} (hi : s.phase = .idle) (hp : s.program = []) : step s = .next s := by
  simp [step, fetch, runPhase, phaseIdle, hi, hp]

/-- Settles O54: where an operation runs or is taken, the phase after the step tells whether it ended; where none is,
the block waits. -/
theorem oneResultPerOperation : Obligations.OneResultPerOperation := by
  intro s t h
  by_cases hbusy : s.phase ≠ .idle ∨ s.program ≠ []
  · have hwait (hi : s.phase = .idle) (hp : s.program = []) : t.results = s.results :=
      absurd hbusy (by simp [hi, hp])
    cases (step_inversion h).resultStep hbusy with
    | ends r hidle hr => exact ⟨fun _ _ => ⟨r, hr⟩, fun hne => absurd hidle hne, hwait⟩
    | goesOn hne hr => exact ⟨fun _ hidle => absurd hidle hne, fun _ => hr, hwait⟩
  · obtain ⟨hi, hp⟩ : s.phase = .idle ∧ s.program = [] := by simpa using hbusy
    cases (step_waits hi hp).symm.trans h
    exact ⟨fun h => absurd h hbusy, fun _ => rfl, fun _ _ => rfl⟩

end Sys2Proof.Machine
end

section
/-! PROOF. The hazards: where the monitor of the trace stands in each phase, and that no step breaks a rule of
70_reset_and_hazards R280 to R285. -/

namespace Sys2Proof.Machine

/-! ### The monitor over the events of a step -/

/-- The frame of a completed register read opens no settle and starts no conversion. -/
theorem Monitor.completed_rreg (m : Monitor) (i : Fin 4) : m.completed (encode (.rreg (i.val : Int))) = m := by
  rw [Monitor.completed, decodeFrame_rreg]

/-- The frame of a completed register write opens its settle (R281). -/
theorem Monitor.completed_wreg (m : Monitor) (i : Fin 4) (b : Byte) :
    m.completed (encode (.wreg (i.val : Int) (b.toNat : Int))) = { m with settle := Config.writeSettleMinimum } := by
  rw [Monitor.completed, decodeFrame_wreg]

/-- A failed transfer opens no settle. -/
theorem Monitor.failed_settle (m : Monitor) (out : Frame) : (m.failed out).settle = m.settle := by
  unfold Monitor.failed
  split <;> rfl

/-- A sleep as long as the open settle closes it. -/
theorem Monitor.run_sleep {m : Monitor} {d : ℚ} (h : m.settle ≤ max 0 d) :
    m.run [.sleep d] = some { m with settle := 0 } := by
  simp [Monitor.run, Monitor.next, h]

/-- A high poll leaves the monitor as it is. -/
theorem Monitor.run_pollEvents (m : Monitor) (period n : Nat) (now : ℚ) :
    m.run (pollEvents period n now) = some m := by
  cases h : progressDue period n <;> simp [pollEvents, h, Monitor.run, Monitor.next]

/-! ### Where the monitor stands after the trace -/

/-- The trace broke no hazard rule, and the monitor stands at `m` after it. -/
def State.Monitored (s : State) (m : Monitor) : Prop := Monitor.start.run s.trace = some m

theorem State.hazardInvariant_iff {s : State} :
    s.hazardInvariant = true ↔ ∃ m, s.Monitored m ∧ monitorFits s m = true := by
  unfold State.hazardInvariant State.Monitored
  cases Monitor.start.run s.trace <;> simp

theorem State.hazardFree_of_hazardInvariant {s : State} (h : s.hazardInvariant = true) : s.hazardFree = true := by
  obtain ⟨m, hm, -⟩ := State.hazardInvariant_iff.mp h
  exact Option.isSome_iff_exists.mpr ⟨m, hm⟩

/-- The events of a step move the monitor on from where it stood. -/
theorem State.Monitored.append {s t : State} {m n : Monitor} {events : List Event} (hs : s.Monitored m)
    (ht : t.trace = s.trace ++ events) (he : m.run events = some n) : t.Monitored n := by
  unfold State.Monitored at hs ⊢
  rw [ht, Monitor.run_append, hs]
  exact he

/-! ### What the monitor must show, by phase -/

/-- The hazards ask of the phase only that no settle is open. -/
def Phase.onlySettled : Phase → Bool
  | .initSettle => false
  | .acqSync => false
  | .acqRead => false
  | .waitPoll => false
  | .waitSleep => false
  | .idle => true
  | .initReset => true
  | .initProbe => true
  | .initWrite _ => true
  | .initVerify _ => true
  | .initCheck => true
  | .acqTrigger => true
  | .acqConvert => true
  | .acqEmit => true

theorem monitorFits_onlySettled_iff {s : State} {m : Monitor} (h : s.phase.onlySettled = true) :
    monitorFits s m = true ↔ m.settle ≤ 0 := by
  unfold monitorFits
  cases hp : s.phase <;> simp_all [Phase.onlySettled]

theorem monitorFits_initSettle_iff {s : State} {m : Monitor} (h : s.phase = .initSettle) :
    monitorFits s m = true ↔ m.settle ≤ Config.resetSettleMinimum := by
  simp [monitorFits, h]

theorem monitorFits_acqSync_iff {s : State} {m : Monitor} (h : s.phase = .acqSync) :
    monitorFits s m = true ↔ m.settle ≤ 0 ∧ m.started = true := by
  simp [monitorFits, h]

theorem monitorFits_acqRead_iff {s : State} {m : Monitor} (h : s.phase = .acqRead) :
    monitorFits s m = true ↔ m.settle ≤ 0 ∧ m.ready = true := by
  simp [monitorFits, h]

theorem monitorFits_wait_iff {s : State} {m : Monitor} (h : s.phase = .waitPoll ∨ s.phase = .waitSleep) :
    monitorFits s m = true ↔ m.settle ≤ 0 ∧ (s.wait.caller = .host ∨ m.started = true) := by
  obtain h | h := h <;> simp [monitorFits, h]

theorem onlySettled_afterWrite (i : Fin 4) : (Phase.afterWrite i).onlySettled = true := by
  fin_cases i <;> rfl

theorem onlySettled_afterVerify (i : Fin 4) : (Phase.afterVerify i).onlySettled = true := by
  fin_cases i <;> rfl

/-- No phase but INIT_SETTLE has a settle open at its start. -/
theorem settle_nonpos_of_monitorFits {s : State} {m : Monitor} (hp : s.phase ≠ .initSettle)
    (h : monitorFits s m = true) : m.settle ≤ 0 := by
  unfold monitorFits at h
  cases hs : s.phase <;> simp_all

/-- INIT_SETTLE sends no command, so no settle is open where one is sent (R280, R281). -/
theorem settle_nonpos_of_command {s : State} {i : Instr} {m : Monitor} (hc : s.command = some i)
    (h : monitorFits s m = true) : m.settle ≤ 0 :=
  settle_nonpos_of_monitorFits (fun hp => by simp [State.command, hp] at hc) h

/-- RDATA is the command of ACQ_READ alone. -/
theorem State.phase_of_command_rdata {s : State} (hc : s.command = some .rdata) : s.phase = .acqRead := by
  unfold State.command at hc
  cases hp : s.phase <;> simp_all

/-- The frame of a phase's command may be sent: no settle is open, and where it is RDATA the line has read low
since START (R280 to R282). -/
theorem Monitor.admits_of_command {s : State} {i : Instr} {m : Monitor} (hc : s.command = some i)
    (h : monitorFits s m = true) : m.admits (encode i) = true := by
  have hsettle : m.settle ≤ 0 := settle_nonpos_of_command hc h
  have hready : i ≠ .rdata ∨ m.ready = true := by
    refine or_iff_not_imp_left.mpr fun hi => ?_
    have hp : s.phase = .acqRead := State.phase_of_command_rdata (hc.trans (congrArg some (not_not.mp hi)))
    exact ((monitorFits_acqRead_iff hp).mp h).2
  simpa [Monitor.admits, State.command_decodes hc, hsettle] using hready

/-! ### How a step ends or goes on -/

/-- A phase that asks only for the settles keeps the invariant where none is open. -/
theorem hazardInvariant_of_settled {t : State} {n : Monitor} (ht : t.Monitored n)
    (hp : t.phase.onlySettled = true) (hn : n.settle ≤ 0) : t.hazardInvariant = true :=
  State.hazardInvariant_iff.mpr ⟨n, ht, (monitorFits_onlySettled_iff hp).mpr hn⟩

/-- The end of an operation keeps the invariant where no settle is open. -/
theorem hazardInvariant_finish {s : State} {m : Monitor} (r : OpResult) (hs : s.Monitored m) (hm : m.settle ≤ 0) :
    (s.finish r).hazardInvariant = true :=
  hazardInvariant_of_settled (hs.append (s.finish_trace r) rfl) rfl hm

theorem hazardInvariant_raise {s : State} {m : Monitor} (d : DeviceState) (e : Err) (hs : s.Monitored m)
    (hm : m.settle ≤ 0) : (s.raise d e).hazardInvariant = true :=
  hazardInvariant_finish (s := { s with devState := d }) _ hs hm

theorem hazardInvariant_complete {s : State} {m : Monitor} (d : DeviceState) (x : OkValue) (hs : s.Monitored m)
    (hm : m.settle ≤ 0) : (s.complete d x).hazardInvariant = true :=
  hazardInvariant_finish (s := { s with devState := d }) _ hs hm

/-- A sending phase keeps the invariant where its rule for a response does: its frame may be sent, and a failed
transfer opens no settle. -/
theorem hazardInvariant_sendThen {s : State} {i : Instr} {andThen : State → Frame → State} {m : Monitor}
    (hc : s.command = some i) (hs : s.Monitored m) (hm : monitorFits s m = true)
    (h : ∀ r, (s.afterTransfer (encode i) r).Monitored (m.completed (encode i)) →
      (andThen (s.afterTransfer (encode i) r) r).hazardInvariant = true) :
    (s.sendThen i andThen).hazardInvariant = true := by
  have hadmits := Monitor.admits_of_command hc hm
  obtain ⟨r, hr, h'⟩ | ⟨e, he, h'⟩ := s.sendThen_cases i andThen
  · rw [h']
    exact h r (hs.append rfl (by simp [Monitor.run, m.next_responds s _ r hr hadmits]))
  · rw [h']
    refine hazardInvariant_raise (m := m.failed (encode i)) _ _ (hs.append (events := [e]) rfl ?_) ?_
    · simp [Monitor.run, m.next_busError s _ e he hadmits]
    · rw [Monitor.failed_settle]
      exact settle_nonpos_of_command hc hm

/-! ### Each phase keeps the invariant -/

section Phases

variable {s : State} {m : Monitor}

/-- INIT_RESET leaves a settle open for INIT_SETTLE (R280). -/
theorem hazardInvariant_phaseReset (hp : s.phase = .initReset) (hs : s.Monitored m) (hm : monitorFits s m = true) :
    (phaseReset s).hazardInvariant = true :=
  hazardInvariant_sendThen (by simp only [State.command, hp]) hs hm fun _ ht =>
    State.hazardInvariant_iff.mpr ⟨_, ht, (monitorFits_initSettle_iff rfl).mpr le_rfl⟩

/-- The settle of a valid configuration is as long as the settle RESET opened (R280). -/
theorem hazardInvariant_phaseSettle (hv : Config.resetSettleMinimum ≤ s.params.resetSettle)
    (hp : s.phase = .initSettle) (hs : s.Monitored m) (hm : monitorFits s m = true) :
    (phaseSettle s).hazardInvariant = true := by
  have hle : m.settle ≤ max 0 s.params.resetSettle :=
    le_max_of_le_right (((monitorFits_initSettle_iff hp).mp hm).trans hv)
  exact hazardInvariant_of_settled (hs.append (s.sleep_trace _) (Monitor.run_sleep hle)) rfl le_rfl

theorem hazardInvariant_phaseProbe (hp : s.phase = .initProbe) (hs : s.Monitored m) (hm : monitorFits s m = true) :
    (phaseProbe s).hazardInvariant = true := by
  have hsettle : m.settle ≤ 0 := settle_nonpos_of_monitorFits (by simp [hp]) hm
  refine hazardInvariant_sendThen (by simp only [State.command, hp]) hs hm fun r ht => ?_
  rw [show m.completed (encode (.rreg 0)) = m from m.completed_rreg 0] at ht
  dsimp only
  split
  · exact hazardInvariant_raise _ _ ht hsettle
  · exact hazardInvariant_of_settled (n := m) ht rfl hsettle

/-- INIT_WRITE(i) sleeps as long as the settle its WREG opened (R281). -/
theorem hazardInvariant_phaseWrite (hv : Config.writeSettleMinimum ≤ s.params.writeSettle) {i : Fin 4}
    (hp : s.phase = .initWrite i) (hs : s.Monitored m) (hm : monitorFits s m = true) :
    (phaseWrite i s).hazardInvariant = true := by
  refine hazardInvariant_sendThen (by simp only [State.command, hp]) hs hm fun r ht => ?_
  rw [Monitor.completed_wreg] at ht
  exact hazardInvariant_of_settled
    (ht.append (State.sleep_trace _ _) (Monitor.run_sleep (le_max_of_le_right hv)))
    (onlySettled_afterWrite i) le_rfl

theorem hazardInvariant_phaseVerify {i : Fin 4} (hp : s.phase = .initVerify i) (hs : s.Monitored m)
    (hm : monitorFits s m = true) : (phaseVerify i s).hazardInvariant = true := by
  refine hazardInvariant_sendThen (by simp only [State.command, hp]) hs hm fun r ht => ?_
  rw [Monitor.completed_rreg] at ht
  exact hazardInvariant_of_settled (n := m) ht (onlySettled_afterVerify i)
    (settle_nonpos_of_monitorFits (by simp [hp]) hm)

theorem hazardInvariant_phaseCheck (hs : s.Monitored m) (hm : m.settle ≤ 0) :
    (phaseCheck s).hazardInvariant = true := by
  obtain ⟨-, h⟩ | ⟨-, h⟩ := phaseCheck_cases s
  · exact h ▸ hazardInvariant_complete _ _ hs hm
  · exact h ▸ hazardInvariant_raise _ _ hs hm

/-- A cycle waits for the conversion it started. -/
theorem hazardInvariant_enterWait {caller : WaitCaller} (d b : ℚ) (hs : s.Monitored m) (hm : m.settle ≤ 0)
    (hc : caller = .host ∨ m.started = true) : (enterWait caller d b s).hazardInvariant = true := by
  obtain ⟨-, h⟩ | ⟨-, h⟩ := enterWait_cases caller d b s
  · rw [h]
    exact State.hazardInvariant_iff.mpr
      ⟨m, hs.append rfl rfl, (monitorFits_wait_iff (.inl rfl)).mpr ⟨hm, hc⟩⟩
  · exact h ▸ hazardInvariant_finish _ hs hm

/-- A low poll of a cycle makes the result of its START ready for ACQ_READ (R282). -/
theorem hazardInvariant_phasePoll (hp : s.phase = .waitPoll) (hs : s.Monitored m) (hm : monitorFits s m = true) :
    (phasePoll s).hazardInvariant = true := by
  obtain ⟨hsettle, hstarted⟩ := (monitorFits_wait_iff (.inl hp)).mp hm
  have hhigh := m.run_pollEvents s.params.progressPeriod (s.wait.polls + 1) s.env.drawLevel.2.drawClock.1
  have hlow : m.run [.level .low] = some { m with ready := m.started } := rfl
  obtain ⟨-, -, h⟩ | ⟨-, hc, h⟩ | ⟨-, -, h⟩ | ⟨-, -, h⟩ := phasePoll_cases s
  · exact h ▸ hazardInvariant_complete _ _ (hs.append rfl hlow) hsettle
  · have hready : m.started = true := hstarted.resolve_left (by simp [hc])
    rw [h]
    exact State.hazardInvariant_iff.mpr
      ⟨_, hs.append rfl hlow, (monitorFits_acqRead_iff rfl).mpr ⟨hsettle, hready⟩⟩
  · rw [h]
    exact State.hazardInvariant_iff.mpr
      ⟨m, hs.append rfl hhigh, (monitorFits_wait_iff (.inr rfl)).mpr ⟨hsettle, hstarted⟩⟩
  · exact h ▸ hazardInvariant_raise _ _ (hs.append rfl hhigh) hsettle

theorem hazardInvariant_phaseSleep (hp : s.phase = .waitSleep) (hs : s.Monitored m) (hm : monitorFits s m = true) :
    (phaseSleep s).hazardInvariant = true := by
  obtain ⟨hsettle, hstarted⟩ := (monitorFits_wait_iff (.inr hp)).mp hm
  exact State.hazardInvariant_iff.mpr
    ⟨_, hs.append (s.sleep_trace _) (Monitor.run_sleep (le_max_of_le_left hsettle)),
      (monitorFits_wait_iff (.inl rfl)).mpr ⟨le_rfl, hstarted⟩⟩

/-- START begins the conversion that ACQ_SYNC waits for. -/
theorem hazardInvariant_phaseTrigger (hp : s.phase = .acqTrigger) (hs : s.Monitored m)
    (hm : monitorFits s m = true) : (phaseTrigger s).hazardInvariant = true := by
  have hsettle : m.settle ≤ 0 := settle_nonpos_of_monitorFits (by simp [hp]) hm
  unfold phaseTrigger
  split
  · exact hazardInvariant_sendThen (by simp only [State.command, hp]) hs hm fun _ ht =>
      State.hazardInvariant_iff.mpr ⟨_, ht, (monitorFits_acqSync_iff rfl).mpr ⟨hsettle, rfl⟩⟩
  · exact hazardInvariant_raise _ _ hs hsettle

theorem hazardInvariant_phaseRead (hp : s.phase = .acqRead) (hs : s.Monitored m) (hm : monitorFits s m = true) :
    (phaseRead s).hazardInvariant = true := by
  have hsettle : m.settle ≤ 0 := settle_nonpos_of_monitorFits (by simp [hp]) hm
  exact hazardInvariant_sendThen (by simp only [State.command, hp]) hs hm fun _ ht =>
    hazardInvariant_of_settled (n := m.completed (encode .rdata)) ht rfl hsettle

/-- ACQ_EMIT reads the clock, emits its record and ends the operation: none of the three moves the monitor. -/
theorem hazardInvariant_phaseEmit (hs : s.Monitored m) (hm : m.settle ≤ 0) :
    (phaseEmit s).hazardInvariant = true :=
  hazardInvariant_complete _ _ ((hs.append s.now_trace rfl).append (State.log_trace _ _) rfl) hm

end Phases

theorem Params.valid_iff {c : Params} : c.valid = true ↔
    configurationError c = none ∧ 0 ≤ c.drdyTimeout ∧ 0 < c.progressPeriod ∧
      Config.resetSettleMinimum ≤ c.resetSettle ∧ Config.writeSettleMinimum ≤ c.writeSettle := by
  simp [Params.valid, and_assoc]

/-- Every step keeps the hazards respected. -/
theorem StepTo.hazardInvariant {s t : State} (h : StepTo s t) (hv : s.params.valid = true)
    (hs : s.hazardInvariant = true) : t.hazardInvariant = true := by
  obtain ⟨m, hs, hm⟩ := State.hazardInvariant_iff.mp hs
  obtain ⟨-, -, -, hreset, hwrite⟩ := Params.valid_iff.mp hv
  have settled (hp : s.phase ≠ .initSettle) : m.settle ≤ 0 := settle_nonpos_of_monitorFits hp hm
  have idle (hi : s.phase = .idle) : m.settle ≤ 0 := settled (by simp [hi])
  have idle_report {rest : List HostOp} (r : OpResult) (hi : s.phase = .idle) :
      ({ s with program := rest, trace := s.trace ++ [.result r] } : State).hazardInvariant = true :=
    hazardInvariant_of_settled (hs.append rfl rfl) (by simp [hi, Phase.onlySettled]) (idle hi)
  cases h with
  | wait => exact State.hazardInvariant_iff.mpr ⟨m, hs, hm⟩
  | call i op rest hi =>
    obtain ⟨r, h⟩ := ({ s with program := rest } : State).codecCall_cases i
    exact h ▸ idle_report r hi
  | report op rest r hi => exact idle_report r hi
  | construct rest hi => exact hazardInvariant_complete (m := m) _ _ hs (idle hi)
  | initialise p0 p1 p2 p3 rest hi => exact hazardInvariant_of_settled (n := m) hs rfl (idle hi)
  | waitReady d b rest hi => exact hazardInvariant_enterWait (m := m) d b hs (idle hi) (.inl rfl)
  | acquire rest hi => exact hazardInvariant_of_settled (n := m) hs rfl (idle hi)
  | reset hp => exact hazardInvariant_phaseReset hp hs hm
  | settle hp => exact hazardInvariant_phaseSettle hreset hp hs hm
  | probe hp => exact hazardInvariant_phaseProbe hp hs hm
  | write i hp => exact hazardInvariant_phaseWrite hwrite hp hs hm
  | verify i hp => exact hazardInvariant_phaseVerify hp hs hm
  | check hp => exact hazardInvariant_phaseCheck hs (settled (by simp [hp]))
  | poll hp => exact hazardInvariant_phasePoll hp hs hm
  | sleep hp => exact hazardInvariant_phaseSleep hp hs hm
  | trigger hp => exact hazardInvariant_phaseTrigger hp hs hm
  | sync hp =>
    obtain ⟨hsettle, hstarted⟩ := (monitorFits_acqSync_iff hp).mp hm
    exact hazardInvariant_enterWait _ _ hs hsettle (.inr hstarted)
  | read hp => exact hazardInvariant_phaseRead hp hs hm
  | convert hp => exact hazardInvariant_of_settled (n := m) hs rfl (settled (by simp [hp]))
  | emit hp => exact hazardInvariant_phaseEmit hs (settled (by simp [hp]))

/-- Settles O58, by the cases of a step: RESET and each WREG are followed by their settle, ACQ_READ is reached from a
low poll after its own START, and no other phase sends RDATA. -/
theorem stepKeepsHazards : Obligations.StepKeepsHazards := by
  intro s t hv hs h
  have ht : t.hazardInvariant = true := (step_inversion h).hazardInvariant hv hs
  exact ⟨ht, State.hazardFree_of_hazardInvariant ht⟩

end Sys2Proof.Machine
end

section
/-! PROOF. Reset leaves the block Uninitialized with every invariant met, and a block that is not Configured becomes
so through a verified profile alone (70_reset_and_hazards R270, R272, R284). -/

namespace Sys2Proof.Machine

/-- Settles O53: of the writers of Configured, ACQ_EMIT starts at SampleReady, and INIT_CHECK writes Faulted where a
readback differs. -/
theorem configuredOnlyAfterVerify : Obligations.ConfiguredOnlyAfterVerify := by
  intro s t hs h hconfigured hsettled hne
  have hwriter : s.mayWrite t.devState :=
    (step_inversion h).writes.resolve_left (fun hsame => hne (hsame ▸ hconfigured))
  rw [hconfigured] at hwriter
  obtain hp | hp : s.phase = .initCheck ∨ s.phase = .acqEmit := hwriter
  · refine ⟨hp, by_contra fun hdiffers => ?_⟩
    cases (step_initCheck s hp).symm.trans h
    rw [phaseCheck_mismatch (not_forall.mp hdiffers)] at hconfigured
    cases hconfigured
  · rw [((coherent_ready_iff (.inr hp)).mp hs).2] at hsettled
    cases hsettled

/-- Settles O38: `construct` ends in its first step, and after reset there is no operation to take. -/
theorem constructAndReset : Obligations.ConstructAndReset := by
  refine ⟨fun s rest hi hp hc => ?_, rfl, rfl, rfl, rfl, step_waits rfl rfl⟩
  exact ⟨_, step_runOp hi hp (by simp) (by simp) (.inl hc), rfl, rfl, rfl, rfl, rfl, rfl, rfl⟩

/-- A number in the range of binary64 is a finite constant in either arithmetic. -/
theorem ConfiguredValue.isFinite_of_abs_le {x : ℚ} (arith : VoltArith) (hx : |x| ≤ Binary64.maxFinite) :
    (ConfiguredValue.finite x).isFinite arith = true := by
  cases arith with
  | exact => rfl
  | binary64 => exact Binary64.isFinite_fl64 x hx

/-- The reference configuration is valid, whatever DRDY_TIMEOUT it holds (00_scope R7 to R14). -/
theorem Params.reference_valid : Params.reference.valid = true := by
  have hvref : |Config.vrefReference| ≤ Binary64.maxFinite :=
    abs_le_maxFinite 2 (by norm_num) (by norm_num [Config.vrefReference, abs_le])
  have hoffset : |Config.offsetReference| ≤ Binary64.maxFinite :=
    abs_le_maxFinite 2 (by norm_num) (by norm_num [Config.offsetReference, abs_le])
  have htimeout : 0 ≤ Config.drdyTimeout := by
    unfold Config.drdyTimeout
    positivity
  refine Params.valid_iff.mpr ⟨?_, htimeout, by decide, le_rfl, le_rfl⟩
  exact configurationError_of_finite (ConfiguredValue.isFinite_of_abs_le _ hvref)
    (ConfiguredValue.isFinite_of_abs_le _ hoffset)

/-- Settles O55: the reset configuration is valid, nothing is open in IDLE, and the trace is empty. -/
theorem resetMeetsTheInvariants : Obligations.ResetMeetsTheInvariants := by
  refine ⟨?_, rfl, ?_, latchesFit_of_phase_ne (by decide) rfl, rfl, waitFits_of_not_waiting rfl⟩
  · exact (coherent_idle_iff rfl).mpr ⟨Params.reference_valid, rfl, rfl⟩
  · exact hazardInvariant_of_settled (n := .start) rfl rfl le_rfl

end Sys2Proof.Machine
end
